-- ==== Sys2Proof/Word.lean ====
section
/-! DEFINITION. The word types of the block: bytes of `BUF`, command words, the bit patterns of the number type `F`, and complex pairs. -/

namespace Sys2Proof

/-- One cell of the capture buffer (10_state.md R24). -/
abbrev Byte := BitVec 8

/-- One command word (30_encoding.md R70). -/
abbrev CmdWord := BitVec 16

/-- The number type `F` of 00_scope.md R13 under its default: a binary64 bit pattern.
DESIGN CHOICE (log 2): `NUM` is an OPEN parameter and the model takes the spec's default for it. -/
abbrev F := BitVec 64

/-- A complex value `(re, im)` of `F` (00_scope.md R19). -/
structure CPair where
  re : F
  im : F
  deriving DecidableEq, Repr, Inhabited

/-- One row of a channel matrix: entries `c` = 0, 1, 2. -/
abbrev CRow := Vector CPair 3

/-- One channel matrix `V[r][c]` (10_state.md R30). -/
abbrev CMatrix := Vector CRow 3

end Sys2Proof
end

