-- ==== Sys2Proof/Syntax.lean ====
section
/-! DEFINITION. The commands of the block: one constructor for each row of `spec/opcode_table.json`. -/

namespace Sys2Proof

/-- A command with its operand fields as the word holds them (30_encoding.md R71, R72): `p` the prefix flag,
`s` the subcarrier, `i` the angle slot, `bw` the bit width. -/
inductive Instr
  /-- `HDR p` (40_header_parser.md R90) -/
  | hdr (p : Bool)
  /-- `CSIX` (41_bit_extractor.md R100) -/
  | csix
  /-- `DECOMP s` (42_givens_decomposer.md R120) -/
  | decomp (s : BitVec 5)
  /-- `QUANT s, i, bw` (43_angle_quantizer.md R150) -/
  | quant (s : BitVec 5) (i : BitVec 3) (bw : BitVec 4)
  /-- `DEQUANT s, i, bw` (43_angle_quantizer.md R160) -/
  | dequant (s : BitVec 5) (i : BitVec 3) (bw : BitVec 4)
  /-- `PACK s, bw` (44_bit_codec.md R171) -/
  | pack (s : BitVec 5) (bw : BitVec 4)
  /-- `UNPACK s` (44_bit_codec.md R180) -/
  | unpack (s : BitVec 5)
  deriving DecidableEq, Repr

end Sys2Proof
end

