-- ==== Sys2Proof/WellFormed.lean ====
section
/-! DEFINITION. Which operand values a command may hold (30_encoding.md R72, R73): `S` in 0..29 and `I` in 0..5. Every value of `P` and `BW` is legal; a bad bit width is an error of the operation, not of the encoding. -/

namespace Sys2Proof

/-- `S <= 29` (R72). -/
def legalSubcarrier (s : BitVec 5) : Bool := s.toNat ≤ 29

/-- `I <= 5` (R72). -/
def legalSlot (i : BitVec 3) : Bool := i.toNat ≤ 5

/-- The extra conditions of the opcode map (R73). -/
def Instr.wellFormed : Instr → Bool
  | .hdr _ => true
  | .csix => true
  | .decomp s => legalSubcarrier s
  | .quant s i _ => legalSubcarrier s && legalSlot i
  | .dequant s i _ => legalSubcarrier s && legalSlot i
  | .pack s _ => legalSubcarrier s
  | .unpack s => legalSubcarrier s

end Sys2Proof
end

