-- ==== Sys2Proof/Decode.lean ====
section
/-! DEFINITION. The decoder of 30_encoding.md R75, total on all 65,536 words and rejecting by name, and the encoder, its inverse. -/

namespace Sys2Proof

/-- Why a word selects no row of the opcode map (30_encoding.md R74). -/
inductive DecodeError
  /-- `OPC` is 0 or at least 8. -/
  | badOpcode
  /-- A must-be-zero bit is set. -/
  | reservedBits
  /-- `S` is 30 or 31. -/
  | badSubcarrier
  /-- `I` is 6 or 7. -/
  | badSlot
  deriving DecidableEq, Repr

/-- `OPC = w[15:12]` (R71). -/
def fieldOpc (w : CmdWord) : BitVec 4 := w.extractLsb' 12 4

/-- `BW = w[11:8]` (R72). -/
def fieldBw (w : CmdWord) : BitVec 4 := w.extractLsb' 8 4

/-- `I = w[7:5]` (R72). -/
def fieldI (w : CmdWord) : BitVec 3 := w.extractLsb' 5 3

/-- `S = w[4:0]` (R72). -/
def fieldS (w : CmdWord) : BitVec 5 := w.extractLsb' 0 5

/-- `P = w[0]` (R72). -/
def fieldP (w : CmdWord) : Bool := w.getLsbD 0

/-- A command without the slot operand: its must-be-zero bits, then its subcarrier. -/
def decodeS (zeros : Bool) (s : BitVec 5) (i : Instr) : Except DecodeError Instr :=
  if !zeros then .error .reservedBits
  else if !legalSubcarrier s then .error .badSubcarrier
  else .ok i

/-- A command of format Q: its subcarrier, then its slot. -/
def decodeQ (s : BitVec 5) (k : BitVec 3) (i : Instr) : Except DecodeError Instr :=
  if !legalSubcarrier s then .error .badSubcarrier
  else if !legalSlot k then .error .badSlot
  else .ok i

/-- `Decode(w)` (R75). -/
def decode (w : CmdWord) : Except DecodeError Instr :=
  let s := fieldS w
  let i := fieldI w
  let bw := fieldBw w
  match (fieldOpc w).toNat with
  | 1 => if w.extractLsb' 1 11 = 0 then .ok (.hdr (fieldP w)) else .error .reservedBits
  | 2 => if w.extractLsb' 0 12 = 0 then .ok .csix else .error .reservedBits
  | 3 => decodeS (w.extractLsb' 5 7 = 0) s (.decomp s)
  | 4 => decodeQ s i (.quant s i bw)
  | 5 => decodeQ s i (.dequant s i bw)
  | 6 => decodeS (i = 0) s (.pack s bw)
  | 7 => decodeS (w.extractLsb' 5 7 = 0) s (.unpack s)
  | _ => .error .badOpcode

/-- The encoder of R75: the command word of an instruction. -/
def encode : Instr → CmdWord
  | .hdr p => 0x1000#16 ||| (BitVec.ofBool p).setWidth 16
  | .csix => 0x2000#16
  | .decomp s => 0x3000#16 ||| s.setWidth 16
  | .quant s i bw => 0x4000#16 ||| (bw.setWidth 16 <<< 8) ||| (i.setWidth 16 <<< 5) ||| s.setWidth 16
  | .dequant s i bw => 0x5000#16 ||| (bw.setWidth 16 <<< 8) ||| (i.setWidth 16 <<< 5) ||| s.setWidth 16
  | .pack s bw => 0x6000#16 ||| (bw.setWidth 16 <<< 8) ||| s.setWidth 16
  | .unpack s => 0x7000#16 ||| s.setWidth 16

/-- `mask` of an instruction's row in the opcode map (R73). -/
def rowMask : Instr → CmdWord
  | .hdr _ => 0xFFFE#16
  | .csix => 0xFFFF#16
  | .decomp _ => 0xFFE0#16
  | .quant _ _ _ => 0xF000#16
  | .dequant _ _ _ => 0xF000#16
  | .pack _ _ => 0xF0E0#16
  | .unpack _ => 0xFFE0#16

/-- `match` of an instruction's row in the opcode map (R73). -/
def rowMatch : Instr → CmdWord
  | .hdr _ => 0x1000#16
  | .csix => 0x2000#16
  | .decomp _ => 0x3000#16
  | .quant _ _ _ => 0x4000#16
  | .dequant _ _ _ => 0x5000#16
  | .pack _ _ => 0x6000#16
  | .unpack _ => 0x7000#16

/-- The instruction this decoder reads from an opcode-table word: the table numbers a word's bits as R71 does,
and a command is one 16-bit word, so a number that needs more bits is no command. -/
def decodeTableWord (nbits w : Nat) : Option Instr :=
  if w % 2 ^ nbits < 2 ^ 16 then (decode (BitVec.ofNat 16 (w % 2 ^ nbits))).toOption else none

end Sys2Proof
end

