-- ==== Sys2Proof/Machine/Reg.lean ====
section
/-! DEFINITION. The names of the block's registers and cells. There is no register map (10_state.md section 2, `HOST_MAP`): a register is reached by name and index (log 21). -/

namespace Sys2Proof.Machine

/-- The two components of a complex cell. -/
inductive Part
  | re
  | im
  deriving DecidableEq, Repr

/-- Every register and array cell of 10_state.md R21 to R37, by name. -/
inductive Reg
  | run
  | err
  | errinfo
  | buf (addr : Nat)
  | bufLen
  | payBase
  | noise (k : Fin 3)
  | fcnt
  | nrx
  | ntx
  | rssi (k : Fin 3)
  | rnoise
  | agc
  | antsel
  | flen
  | rate
  | perm (k : Fin 3)
  | cur
  | csi (s : Fin 30) (r c : Fin 3) (part : Part)
  | ang (s : Fin 30) (i : Fin 6)
  | tag (s : Fin 30) (i : Fin 6)
  | recon (s : Fin 30) (i : Fin 6)
  | code (s : Fin 30) (i : Fin 6)
  | pkw (s : Fin 30) (j : Fin 6)
  | pki (s : Fin 30)
  deriving DecidableEq, Repr

end Sys2Proof.Machine
end

