-- ==== Sys2Proof/Config.lean ====
section
/-! DEFINITION. What is fixed for one block: the constants of the document, the OPEN parameters of 92_eei_decisions.md section 9, and the free values. An `opaque` constant here has no body: no proof can see a value of it. -/

namespace Sys2Proof

/-! ### Fixed by the document (00_scope.md R8, R9) -/

/-- `NSC`, subcarriers in a frame. -/
abbrev Config.nsc : Nat := 30

/-- `NANG`, angles of a subcarrier. -/
abbrev Config.nang : Nat := 6

/-- `HDR_LEN`, bytes of the fixed header region. -/
abbrev Config.hdrLen : Nat := 19

/-- Bits of format padding before each subcarrier. -/
abbrev Config.padBits : Nat := 3

/-- Bits of one antenna pair. -/
abbrev Config.pairBits : Nat := 16

/-! ### OPEN parameters -/

/-- `PREFIX_LONG_LEN` (00_scope.md R12): a natural number of which the spec gives no value. -/
opaque Config.prefixLongLen : Nat

/-- How much larger `BUF_CAP` is than the least capacity R10 allows. -/
opaque Config.bufCapSlack : Nat

/-- `BUF_CAP` (00_scope.md R10): any capacity that is at least `PREFIX_LONG_LEN + 19 + 552` (log 11). -/
def Config.bufCap : Nat := Config.prefixLongLen + Config.bufCapSlack + 571

/-- `ADDR_W = ceil(log2(BUF_CAP + 1))` (00_scope.md R11). -/
def Config.addrW : Nat := Nat.clog 2 (Config.bufCap + 1)

/-- `ATAN2` before the properties P1 and P4 are imposed (00_scope.md R13, R18; log 3). -/
opaque Config.atan2 : F → F → F

/-- `ACOS` before the properties P2 and P4 are imposed (log 3). -/
opaque Config.acos : F → F

/-- `COS` before the property P3 is imposed (log 3). -/
opaque Config.cos : F → F

/-- `SIN` before the property P3 is imposed (log 3). -/
opaque Config.sin : F → F

/-- The basic operations of 00_scope.md R17 that can return a NaN. -/
inductive Config.FOp
  | add
  | sub
  | mul
  | div
  | sqrt
  | neg
  deriving DecidableEq, Repr

/-- Which NaN an operation returns on given operands: not specified (00_scope.md R13; log 4). A one-operand operation passes its operand twice. -/
opaque Config.nanBits : Config.FOp → F → F → F

/-! ### Free values -/

/-- The content a register cell has after reset number `resets`, where the spec calls it unspecified (10_state.md R42, R43; log 5). -/
opaque Config.unspec (resets : Nat) (r : Machine.Reg) (w : Nat) : BitVec w

/-- The `n`-th angle drawn for subcarrier `s`: any `F` value (93_implementation_defined.md U1, U2; log 7, log 8). -/
opaque Config.drawF (s n : Nat) : F

/-- The `n`-th code drawn for subcarrier `s`: any 6-bit value (U2; log 8). -/
opaque Config.drawCode (s n : Nat) : BitVec 6

end Sys2Proof
end

