-- ==== Sys2Proof/Machine/Memory.lean ====
section
/-! DEFINITION. The capture buffer as plain data: a list of (address, byte) pairs in one canonical form (20_memory.md R50, 10_state.md R24). -/

namespace Sys2Proof.Machine

/-- The bytes of `BUF` that hold a value, addresses strictly rising. -/
abbrev Memory := List Host.Cell

/-- What an unlisted address reads as: no value. `BUF` is unspecified after reset and a model must not pick a value
(10_state.md R42; log 6). -/
def Memory.unlisted : Option Byte := none

/-- The value of the byte at `a`, if it has one. -/
def Memory.read (a : Nat) : Memory → Option Byte
  | [] => Memory.unlisted
  | (b, u) :: m => if a = b then some u else Memory.read a m

/-- Store the byte `v` at `a`. A byte never equals what an unlisted address reads as, so no write removes an entry. -/
def Memory.write (a : Nat) (v : Byte) : Memory → Memory
  | [] => [(a, v)]
  | (b, u) :: m =>
    if a < b then (a, v) :: (b, u) :: m
    else if a = b then (a, v) :: m
    else (b, u) :: Memory.write a v m

/-- The canonical form: addresses strictly rising, and no entry equal to what an unlisted address reads as. -/
abbrev Memory.wf (m : Memory) : Prop :=
  m.Pairwise (fun x y => x.1 < y.1) ∧ ∀ c ∈ m, some c.2 ≠ Memory.unlisted

end Sys2Proof.Machine
end

