-- ==== Sys2Proof/Machine/State.lean ====
section
/-! DEFINITION. The state of the block as plain data (10_state.md R20 to R43), the reasons a step can stop, and the state after reset. -/

namespace Sys2Proof.Machine

/-- `RUN` (10_state.md R21). -/
inductive Run
  | ready
  | faulted
  deriving DecidableEq, Repr

/-- The six error kinds (60_exceptions.md R190). -/
inductive ErrKind
  | malformedHeader
  | truncatedCsiData
  | unsupportedDimension
  | invalidBitWidth
  | invalidAngleTag
  | illegalCommand
  deriving DecidableEq, Repr

/-- A host action between two commands (10_state.md R20, 70_reset_and_hazards.md R221). -/
inductive HostAction
  /-- Issue a command word (30_encoding.md R79). -/
  | issue (w : CmdWord)
  /-- Write a value, as a bit pattern, to a register (10_state.md R41). -/
  | write (r : Reg) (v : Nat)
  /-- Read a register (10_state.md R41). -/
  | read (r : Reg)
  /-- Reset the block (70_reset_and_hazards.md R210). -/
  | reset
  deriving DecidableEq, Repr

/-- Why the machine stops with a fault. An error of the block is NOT one: fault entry is a next state (60_exceptions.md R194). -/
inductive Fault
  /-- Raised by a host write or read of a `BUF` cell at or beyond `BUF_CAP`: the address does not exist (10_state.md R24; log 16). Safe. -/
  | bufAddress
  deriving DecidableEq, Repr

/-- Why a step is refused. -/
inductive Refusal
  /-- Raised by an arm of `exec` whose instruction has no meaning yet. Safe. -/
  | notModelled (mnemonic : String)
  /-- Raised by HDR and CSIX when they read a `BUF` byte that nothing has written (10_state.md R42, U4; log 6). Safe. -/
  | unwrittenBuffer
  /-- Raised by a host write to a register the access matrix lets no host write (10_state.md R41; log 16). Safe. -/
  | readOnlyRegister
  /-- Raised by a host write of a value wider than the cell (70_reset_and_hazards.md R222; log 16). Safe. -/
  | valueTooWide
  deriving DecidableEq, Repr

/-- Everything the spec gives the block, and three fields of the model's own: `host`, `draws`, `resets`. -/
structure State where
  /-- `RUN` (R21). -/
  run : Run
  /-- `ERR` (R22): `none` is the spec's value 0, "none" (log 22). -/
  err : Option ErrKind
  /-- `ERRINFO` (R23). -/
  errinfo : CmdWord
  /-- `BUF` (R24). -/
  buf : Memory
  /-- `BUF_LEN` (R25; log 10). -/
  bufLen : Nat
  /-- `PAYBASE` (R26; log 10). -/
  payBase : Nat
  /-- `NOISE[0..2]` (R27). -/
  noise : Vector Byte 3
  /-- `FCNT` (R27). -/
  fcnt : BitVec 16
  /-- `NRX` (R27). -/
  nrx : Byte
  /-- `NTX` (R27). -/
  ntx : Byte
  /-- `RSSI[0..2]` (R27). -/
  rssi : Vector Byte 3
  /-- `RNOISE` (R27), a two's complement byte. -/
  rnoise : Byte
  /-- `AGC` (R27). -/
  agc : Byte
  /-- `ANTSEL` (R27). -/
  antsel : Byte
  /-- `FLEN` (R27). -/
  flen : BitVec 16
  /-- `RATE` (R27). -/
  rate : BitVec 16
  /-- `PERM[0..2]` (R28). -/
  perm : Vector (BitVec 3) 3
  /-- `CUR` (R29). -/
  cur : BitVec 16
  /-- `CSI[s][r][c]` (R30). -/
  csi : Vector CMatrix 30
  /-- `ANG[s][i]` (R31). -/
  ang : Vector (Vector F 6) 30
  /-- `TAG[s][i]` (R32). -/
  tag : Vector (Vector (BitVec 2) 6) 30
  /-- `REC[s][i]` (R34). -/
  recon : Vector (Vector F 6) 30
  /-- `CODE[s][i]` (R35). -/
  code : Vector (Vector (BitVec 6) 6) 30
  /-- `PKW[s][j]` (R36). -/
  pkw : Vector (Vector (BitVec 3) 6) 30
  /-- `PKI[s]` (R37). -/
  pki : Vector (BitVec 36) 30
  /-- The host actions still to come, the next one first: the model's own field (log 1). -/
  host : List HostAction
  /-- How many free values were drawn for each subcarrier: the model's own field (log 9). -/
  draws : Vector Nat 30
  /-- How many resets came before: the model's own field (log 9). -/
  resets : Nat
  deriving DecidableEq, Repr

/-- The state after reset number `n` (10_state.md R43): the values the spec gives, and a free value, which can differ from
one reset to the next, in every register cell the spec calls unspecified (log 5). -/
def State.afterReset (n : Nat) (host : List HostAction) (draws : Vector Nat 30) : State where
  run := .ready
  err := none
  errinfo := 0#16
  buf := []
  bufLen := 0
  payBase := 0
  noise := Vector.ofFn fun k => Config.unspec n (.noise k) 8
  fcnt := Config.unspec n .fcnt 16
  nrx := 0#8
  ntx := 0#8
  rssi := Vector.ofFn fun k => Config.unspec n (.rssi k) 8
  rnoise := Config.unspec n .rnoise 8
  agc := Config.unspec n .agc 8
  antsel := Config.unspec n .antsel 8
  flen := Config.unspec n .flen 16
  rate := Config.unspec n .rate 16
  perm := Vector.ofFn fun k => Config.unspec n (.perm k) 3
  cur := 0#16
  csi := Vector.ofFn fun s => Vector.ofFn fun r => Vector.ofFn fun c =>
    ⟨Config.unspec n (.csi s r c .re) 64, Config.unspec n (.csi s r c .im) 64⟩
  ang := Vector.ofFn fun s => Vector.ofFn fun i => Config.unspec n (.ang s i) 64
  tag := Vector.ofFn fun _ => Vector.ofFn fun _ => 0#2
  recon := Vector.ofFn fun s => Vector.ofFn fun i => Config.unspec n (.recon s i) 64
  code := Vector.ofFn fun s => Vector.ofFn fun i => Config.unspec n (.code s i) 6
  pkw := Vector.ofFn fun s => Vector.ofFn fun j => Config.unspec n (.pkw s j) 3
  pki := Vector.ofFn fun s => Config.unspec n (.pki s) 36
  host := host
  draws := draws
  resets := n

/-- The machine right after its first reset: no host action has arrived and nothing has been drawn. -/
def State.reset : State := State.afterReset 0 [] (Vector.ofFn fun _ => 0)

end Sys2Proof.Machine
end

