-- ==== Sys2Proof/Machine/Flags.lean ====
section
/-! DEFINITION. The block has no flags or condition codes (10_state.md R39): its only status is `RUN`, `ERR` and `ERRINFO`. Here are the numbers the host reads in `RUN` and `ERR`. -/

namespace Sys2Proof.Machine

/-- The value of `RUN` (10_state.md R21). -/
def Run.code : Run → BitVec 1
  | .ready => 0#1
  | .faulted => 1#1

/-- The number of an error kind (10_state.md R22, 60_exceptions.md R191). -/
def ErrKind.code : ErrKind → BitVec 3
  | .malformedHeader => 1#3
  | .truncatedCsiData => 2#3
  | .unsupportedDimension => 3#3
  | .invalidBitWidth => 4#3
  | .invalidAngleTag => 5#3
  | .illegalCommand => 6#3

/-- The value of `ERR`; 0 is "none" and 7 never occurs (R22). -/
def errCode : Option ErrKind → BitVec 3
  | none => 0#3
  | some k => k.code

end Sys2Proof.Machine
end

