-- ==== Sys2Proof/Machine/Operands.lean ====
section
/-! DEFINITION. Every operand form of a command (30_encoding.md R72): the subcarrier, the slot, the bit width, the prefix flag, and the tag, which is read from state (10_state.md R32). -/

namespace Sys2Proof.Machine

/-- The array index of a subcarrier field; 30 and 31 have none. -/
def subcarrier? (s : BitVec 5) : Option (Fin 30) :=
  if h : s.toNat < 30 then some ⟨s.toNat, h⟩ else none

/-- The array index of a slot field; 6 and 7 have none. -/
def slot? (i : BitVec 3) : Option (Fin 6) :=
  if h : i.toNat < 6 then some ⟨i.toNat, h⟩ else none

/-- `BW` as a bit width: 1 to 4, and no other value (43_angle_quantizer.md R151). -/
def bitWidth? (bw : BitVec 4) : Option Nat :=
  if 1 ≤ bw.toNat ∧ bw.toNat ≤ 4 then some bw.toNat else none

/-- `PrefixLen(P)` (40_header_parser.md R91). -/
def prefixLen (p : Bool) : Nat := if p then Config.prefixLongLen else 1

/-- A checked tag (10_state.md R32). -/
inductive Tag
  | phi
  | psi
  deriving DecidableEq, Repr

/-- The two bits of a tag. -/
def Tag.bits : Tag → BitVec 2
  | .phi => 1#2
  | .psi => 2#2

/-- The tag in a `TAG` cell; `0b00` and `0b11` are not tags. -/
def tagOf? (b : BitVec 2) : Option Tag :=
  if b = 1#2 then some .phi else if b = 2#2 then some .psi else none

/-- The six tags of one subcarrier, if all six cells hold one. -/
def tagsOf? (row : Vector (BitVec 2) 6) : Option (Vector Tag 6) := do
  let t0 ← tagOf? row[0]
  let t1 ← tagOf? row[1]
  let t2 ← tagOf? row[2]
  let t3 ← tagOf? row[3]
  let t4 ← tagOf? row[4]
  let t5 ← tagOf? row[5]
  return #v[t0, t1, t2, t3, t4, t5]

/-- `n` in {1, 2, 3}: the invariant of `NRX` and `NTX` (10_state.md R27). -/
def isCount (n : Byte) : Bool := n = 1#8 || n = 2#8 || n = 3#8

end Sys2Proof.Machine
end

