-- ==== Sys2Proof/Machine/Ops.lean ====
section
/-! DEFINITION. The operations every command shares: what a command body answers, fault entry, reset, the frame around a command, and the reads and writes of array cells. -/

namespace Sys2Proof.Machine

/-- What the body of a command answers. -/
inductive Effect
  /-- All its writes are made. -/
  | done (s : State)
  /-- It raises an error and makes no write (30_encoding.md R79). -/
  | raise (k : ErrKind)
  /-- It reads a `BUF` byte that nothing has written (10_state.md R42). -/
  | unwritten
  deriving DecidableEq, Repr

/-- Fault entry, `raise E(w)` (60_exceptions.md R194): `ERR`, `ERRINFO` and `RUN` are written and nothing else. -/
def State.raise (k : ErrKind) (w : CmdWord) (s : State) : State :=
  { s with err := some k, errinfo := w, run := .faulted }

/-- Reset, the only return from a fault (60_exceptions.md R197, 70_reset_and_hazards.md R210). The host's further actions and
the count of drawn values are not the block's and stay (log 9, log 18). -/
def State.hostReset (s : State) : State := State.afterReset (s.resets + 1) s.host s.draws

/-- The frame of `Issue(w)` (30_encoding.md R79): nothing happens while `RUN = FAULTED` (60_exceptions.md R196); otherwise the command
either makes all its writes or raises one error on the state it was issued in (log 13). -/
def issueEffect (w : CmdWord) (s : State) (e : Effect) : Host.Outcome State Fault Refusal :=
  match s.run with
  | .faulted => .next s
  | .ready =>
    match e with
    | .done t => .next t
    | .raise k => .next (s.raise k w)
    | .unwritten => .refused .unwrittenBuffer

/-- A command performed: its word is the one its encoding gives (log 12). -/
def command (i : Instr) (s : State) (e : Effect) : Host.Outcome State Fault Refusal :=
  issueEffect (encode i) s e

/-- Give a body its subcarrier. A field without one makes the word illegal (30_encoding.md R74; log 12). -/
def withSubcarrier (s : BitVec 5) (f : Fin 30 → Effect) : Effect :=
  match subcarrier? s with
  | some k => f k
  | none => .raise .illegalCommand

/-- Give a body its subcarrier and its slot. -/
def withCell (s : BitVec 5) (i : BitVec 3) (f : Fin 30 → Fin 6 → Effect) : Effect :=
  withSubcarrier s fun k =>
    match slot? i with
    | some j => f k j
    | none => .raise .illegalCommand

/-- Give a body its bit width, or raise `InvalidBitWidth` (43_angle_quantizer.md R151, 44_bit_codec.md R174). -/
def withBitWidth (bw : BitVec 4) (f : Nat → Effect) : Effect :=
  match bitWidth? bw with
  | some n => f n
  | none => .raise .invalidBitWidth

/-- Give a body the tag of a cell, or raise `InvalidAngleTag` (43_angle_quantizer.md R152). -/
def withTag (b : BitVec 2) (f : Tag → Effect) : Effect :=
  match tagOf? b with
  | some t => f t
  | none => .raise .invalidAngleTag

/-- `MemRead(addr, 1)` (20_memory.md R50). -/
def State.memRead (s : State) (a : Nat) : Option Byte := Memory.read a s.buf

/-! ### Cells of the arrays -/

/-- A cell of an array of 30 rows of 6. -/
def cell {α : Type} (t : Vector (Vector α 6) 30) (k : Fin 30) (i : Fin 6) : α := t[k][i]

/-- The array with one cell written. -/
def setCell {α : Type} (t : Vector (Vector α 6) 30) (k : Fin 30) (i : Fin 6) (v : α) : Vector (Vector α 6) 30 :=
  t.set k (t[k].set i v)

end Sys2Proof.Machine
end

