-- ==== Sys2Proof/Machine/Codec.lean ====
section
/-! DEFINITION. PACK and UNPACK, the variable-width bit-packing codec (44_bit_codec.md R170 to R186). -/

namespace Sys2Proof.Machine

/-- `Width(tag, bw)` (R170). -/
def fieldWidth (t : Tag) (bw : Nat) : Nat :=
  match t with
  | .psi => bw
  | .phi => bw + 2

/-- The widths of the six slots, in slot order. -/
def slotWidths (tags : Vector Tag 6) (bw : Nat) : Vector Nat 6 :=
  Vector.ofFn fun i => fieldWidth tags[i] bw

/-- The packing loop (R171, R172): slots from the last to the first, shift and add on an unbounded integer. -/
def packLoop (wd : Vector Nat 6) (code : Vector (BitVec 6) 6) : Nat :=
  ([5, 4, 3, 2, 1, 0] : List (Fin 6)).foldl (fun acc i => (acc <<< wd[i]) + (code[i]).toNat) 0

/-- The widths list (R173): most significant field first, the reverse of slot order. -/
def widthsList (wd : Vector Nat 6) : Vector (BitVec 3) 6 :=
  Vector.ofFn fun j => BitVec.ofNat 3 wd[j.rev]

/-- The body of PACK (R171): bit width, then the tags in slot order (R174), then the writes. -/
def packEffect (k : Fin 30) (bw : BitVec 4) (s : State) : Effect :=
  withBitWidth bw fun n =>
    match tagsOf? s.tag[k] with
    | none => .raise .invalidAngleTag
    | some tags =>
      let wd := slotWidths tags n
      .done { s with
        pkw := s.pkw.set k (widthsList wd)
        pki := s.pki.set k (BitVec.ofNat 36 (packLoop wd s.code[k])) }

/-- `PACK s, bw` (R171). -/
def execPack (sc : BitVec 5) (bw : BitVec 4) (s : State) : Host.Outcome State Fault Refusal :=
  command (.pack sc bw) s (withSubcarrier sc fun k => packEffect k bw s)

/-- One pass of the unpacking loop (R180): mask the low `wv` bits, of which the cell keeps six (R182), and shift them out. -/
def unpackStep (pkw : Vector (BitVec 3) 6) (acc : Nat × Vector (BitVec 6) 6) (i : Fin 6) : Nat × Vector (BitVec 6) 6 :=
  let wv := (pkw[i.rev]).toNat
  (acc.1 >>> wv, acc.2.set i (BitVec.ofNat 6 (acc.1 % 2 ^ wv)))

/-- The unpacking loop (R180, R181): slots from the first to the last; the bits left at the end are dropped (R184). -/
def unpackLoop (pkw : Vector (BitVec 3) 6) (v : Nat) (code : Vector (BitVec 6) 6) : Vector (BitVec 6) 6 :=
  (([0, 1, 2, 3, 4, 5] : List (Fin 6)).foldl (unpackStep pkw) (v, code)).2

/-- The body of UNPACK (R180): it raises nothing. -/
def unpackEffect (k : Fin 30) (s : State) : Effect :=
  .done { s with code := s.code.set k (unpackLoop s.pkw[k] (s.pki[k]).toNat s.code[k]) }

/-- `UNPACK s` (R180). -/
def execUnpack (sc : BitVec 5) (s : State) : Host.Outcome State Fault Refusal :=
  command (.unpack sc) s (withSubcarrier sc fun k => unpackEffect k s)

end Sys2Proof.Machine
end

