-- ==== Sys2Proof/Machine/Binary64.lean ====
section
/-! DEFINITION. The basic operations of the number type `F` under the default `NUM` (00_scope.md R13, R17): IEEE 754
binary64, round to nearest even, subnormals kept, no flags and no traps. Every finite value is an integer number of
units of 2^-1074, its magnitude, so each operation is exact integer arithmetic followed by one rounding. -/

namespace Sys2Proof.Machine

/-! ### The parts of a bit pattern -/

/-- The sign bit. -/
def fSign (x : F) : Bool := x.getLsbD 63

/-- The 11 exponent bits. -/
def fExp (x : F) : Nat := (x.extractLsb' 52 11).toNat

/-- The 52 fraction bits. -/
def fFrac (x : F) : Nat := (x.extractLsb' 0 52).toNat

def fIsNaN (x : F) : Bool := fExp x = 2047 && fFrac x ≠ 0

def fIsInf (x : F) : Bool := fExp x = 2047 && fFrac x = 0

def fIsFinite (x : F) : Bool := fExp x ≠ 2047

/-- A zero of either sign. -/
def fIsZero (x : F) : Bool := fExp x = 0 && fFrac x = 0

/-- The magnitude in units of 2^-1074. An infinity counts as 2^2098, above every finite magnitude. -/
def fMag (x : F) : Nat :=
  if fExp x = 0 then fFrac x else (2 ^ 52 + fFrac x) * 2 ^ (fExp x - 1)

/-- The value in units of 2^-1074, for a pattern that is not a NaN. -/
def fVal (x : F) : Int := if fSign x then -(fMag x : Int) else fMag x

/-- One, in units of 2^-1074. -/
abbrev fUnit : Nat := 2 ^ 1074

/-! ### Building results -/

/-- A pattern from its sign and its other 63 bits. -/
def fPack (neg : Bool) (bits : Nat) : F := BitVec.ofBool neg ++ BitVec.ofNat 63 bits

/-- The 63 bits of an infinity. -/
abbrev fInfBits : Nat := 2047 * 2 ^ 52

def fZero (neg : Bool) : F := fPack neg 0

def fInf (neg : Bool) : F := fPack neg fInfBits

/-- The NaN an operation returns: whichever NaN the configuration names for the operation and its operands. Where the
free pattern is no NaN the default quiet NaN stands for it, so every NaN is possible and nothing but a NaN is (log 4). -/
def fNaN (op : Config.FOp) (x y : F) : F :=
  let b := Config.nanBits op x y
  if fIsNaN b then b else 0x7FF8000000000000#64

/-- How many bits of `n` lie below the unit in the last place of a 53-bit result. -/
def ulpShift (n : Nat) : Nat := n.log2 - 52

/-- `num / den` rounded to the nearest integer, ties to even. -/
def roundDiv (num den : Nat) : Nat :=
  let q := num / den
  let r := num % den
  if den < 2 * r then q + 1
  else if 2 * r = den then q + q % 2
  else q

/-- The 63 magnitude bits of the fraction `num / den` (units of 2^-1074) rounded to nearest even; beyond the largest
finite value, an infinity. -/
def roundBits (num den : Nat) : Nat :=
  let t := ulpShift (num / den)
  min (t * 2 ^ 52 + roundDiv num (den * 2 ^ t)) fInfBits

/-- The rounded value of sign `neg` and magnitude `num / den`. -/
def fRound (neg : Bool) (num den : Nat) : F := fPack neg (roundBits num den)

/-- The rounded value of the integer `v` of units of 2^-1074; `zneg` is the sign of a zero result. -/
def fRoundInt (zneg : Bool) (v : Int) : F :=
  if v = 0 then fZero zneg else fRound (v < 0) v.natAbs 1

/-! ### The operations (00_scope.md R17) -/

/-- `fneg`: exact sign change. -/
def fneg (x : F) : F := if fIsNaN x then fNaN .neg x x else x ^^^ 0x8000000000000000#64

/-- The sum of two operands that are not NaNs; an exact zero sum is negative only when both operands are. -/
def fsum (op : Config.FOp) (x y : F) (a b : F) : F :=
  if fIsInf a then (if fIsInf b && fSign a != fSign b then fNaN op x y else a)
  else if fIsInf b then b
  else fRoundInt (fSign a && fSign b) (fVal a + fVal b)

def fadd (x y : F) : F := if fIsNaN x || fIsNaN y then fNaN .add x y else fsum .add x y x y

def fsub (x y : F) : F := if fIsNaN x || fIsNaN y then fNaN .sub x y else fsum .sub x y x (fneg y)

def fmul (x y : F) : F :=
  let neg := fSign x != fSign y
  if fIsNaN x || fIsNaN y then fNaN .mul x y
  else if fIsInf x || fIsInf y then (if fIsZero x || fIsZero y then fNaN .mul x y else fInf neg)
  else fRound neg (fMag x * fMag y) fUnit

def fdiv (x y : F) : F :=
  let neg := fSign x != fSign y
  if fIsNaN x || fIsNaN y then fNaN .div x y
  else if fIsInf x then (if fIsInf y then fNaN .div x y else fInf neg)
  else if fIsInf y then fZero neg
  else if fIsZero y then (if fIsZero x then fNaN .div x y else fInf neg)
  else fRound neg (fMag x * fUnit) (fMag y)

/-- The bits of the integer square root below bit `k`, added to `r` from the highest down. -/
def isqrtGo (n : Nat) : Nat → Nat → Nat
  | 0, r => r
  | k + 1, r => isqrtGo n k (if (r + 2 ^ k) * (r + 2 ^ k) ≤ n then r + 2 ^ k else r)

/-- The integer square root, rounded down. -/
def isqrt (n : Nat) : Nat := isqrtGo n (n.log2 / 2 + 1) 0

/-- `fsqrt`. The root is taken with three more bits than the unit has; what is left over is one more half bit, which decides
the rounding as the exact root would. -/
def fsqrt (x : F) : F :=
  if fIsNaN x then fNaN .sqrt x x
  else if fIsZero x then x
  else if fSign x then fNaN .sqrt x x
  else if fIsInf x then x
  else
    let n := fMag x * 2 ^ 1080
    let r := isqrt n
    fRound false (if r * r = n then 2 * r else 2 * r + 1) 16

/-- `x < y`, false whenever an operand is a NaN. -/
def flt (x y : F) : Bool := !fIsNaN x && !fIsNaN y && fVal x < fVal y

/-- `x <= y`, false whenever an operand is a NaN. -/
def fle (x y : F) : Bool := !fIsNaN x && !fIsNaN y && fVal x ≤ fVal y

/-- `I2F(n)`. -/
def i2f (n : Int) : F := fRoundInt false (n * fUnit)

/-- `CEIL(x)`: the least integer not below a finite `x`; nothing else has one. -/
def ceil? (x : F) : Option Int :=
  if fIsFinite x then
    some (if fSign x then -((fMag x / fUnit : Nat) : Int) else ((fMag x + (fUnit - 1)) / fUnit : Nat))
  else none

end Sys2Proof.Machine
end

