-- ==== Sys2Proof/Machine/Numerics.lean ====
section
/-! DEFINITION. The rest of `NUM`: the transcendental functions, which are free but for the properties P1 to P4 of 00_scope.md R18, and the complex helpers of R19. -/

namespace Sys2Proof.Machine

abbrev fPosZero : F := 0#64
abbrev fOne : F := 0x3FF0000000000000#64
abbrev fNegOne : F := 0xBFF0000000000000#64
abbrev fTwo : F := 0x4000000000000000#64

/-- `PI` under the default `NUM`, `0x1.921fb54442d18p+1` (R17). -/
abbrev fPi : F := 0x400921FB54442D18#64

/-- `-PI`. -/
abbrev fNegPi : F := 0xC00921FB54442D18#64

/-- `lo <= x <= hi`. -/
def fInRange (lo hi x : F) : Bool := fle lo x && fle x hi

/-- `x` where it lies in the range, else `+0`. Over all free functions this leaves every function with values in the range and no other. -/
def fForceRange (lo hi x : F) : F := if fInRange lo hi x then x else fPosZero

/-- `ATAN2(y, x)`: any total function with P1 and P4 (R13, R18; log 3). -/
def atan2 (y x : F) : F :=
  if y = fPosZero && (x = fPosZero || flt fPosZero x) then fPosZero
  else if fIsFinite y && fIsFinite x && !(fIsZero y && fIsZero x) then
    fForceRange fNegPi fPi (Config.atan2 y x)
  else Config.atan2 y x

/-- `ACOS(x)`: any total function with P2 and P4. -/
def acos (x : F) : F :=
  if x = fOne then fPosZero
  else if fInRange fNegOne fOne x then fForceRange fPosZero fPi (Config.acos x)
  else Config.acos x

/-- `COS(x)`: any total function with P3. -/
def cos (x : F) : F := if x = fPosZero then fOne else Config.cos x

/-- `SIN(x)`: any total function with P3. -/
def sin (x : F) : F := if x = fPosZero then fPosZero else Config.sin x

/-! ### Complex helpers (00_scope.md R19) -/

def cmul (u v : CPair) : CPair :=
  ⟨fsub (fmul u.re v.re) (fmul u.im v.im), fadd (fmul u.re v.im) (fmul u.im v.re)⟩

def cadd (u v : CPair) : CPair := ⟨fadd u.re v.re, fadd u.im v.im⟩

def smul (k : F) (u : CPair) : CPair := ⟨fmul k u.re, fmul k u.im⟩

def carg (u : CPair) : F := atan2 u.im u.re

/-- The conjugate of e^{jt}. -/
def cisn (t : F) : CPair := ⟨cos t, fneg (sin t)⟩

/-- A phase computed as negative is shifted by `2 PI` before storage (42_givens_decomposer.md R131): the test is `x < 0` only. -/
def norm2pi (x : F) : F := if flt x fPosZero then fadd x (fmul fTwo fPi) else x

end Sys2Proof.Machine
end

