-- ==== Sys2Proof/Machine/Decomposer.lean ====
section
/-! DEFINITION. DECOMP, the Givens-rotation angle extractor (42_givens_decomposer.md R120 to R138). The operation trees are those of R120 and 00_scope.md R19, in their order (R133). -/

namespace Sys2Proof.Machine

/-- Step 1 (R122): the phase of column `c`'s last-row entry. -/
def columnPhase (v : CMatrix) (c : Fin 3) : F := carg v[2][c]

/-- Step 2 (R123): the product with the conjugate transpose of the column phases, on the right. -/
def applyColumnPhases (v : CMatrix) : CMatrix :=
  Vector.ofFn fun r => Vector.ofFn fun c => cmul v[r][c] (cisn (columnPhase v c))

/-- A row multiplied by the conjugate of e^{j phi}, on the left (R124, R130). -/
def phaseRow (phi : F) (row : CRow) : CRow := Vector.ofFn fun c => cmul (cisn phi) row[c]

/-- The upper row of a Givens rotation: `cs * a + sn * b` (R127, R129). -/
def rotateUpper (psi : F) (a b : CRow) : CRow :=
  Vector.ofFn fun c => cadd (smul (cos psi) a[c]) (smul (sin psi) b[c])

/-- The lower row of a Givens rotation: `-sn * a + cs * b` (R127, R129). -/
def rotateLower (psi : F) (a b : CRow) : CRow :=
  Vector.ofFn fun c => cadd (smul (fneg (sin psi)) a[c]) (smul (cos psi) b[c])

/-- `CalcPsi(x1, x2)` (R125). Two zero arguments have no specified result (R135): `none`. DESIGN CHOICE, unsafe (log 23): arguments that
are not both zero but whose squares underflow, so that the norm is a zero, are evaluated by the tree as any others. -/
def calcPsi? (x1 x2 : F) : Option F :=
  if fIsZero x1 && fIsZero x2 then none
  else some (acos (fdiv x1 (fsqrt (fadd (fmul x1 x1) (fmul x2 x2)))))

/-- `V2` (R124): row 0 corrected by phi11, row 1 by phi21, row 2 unchanged. -/
def correctRows (phi11 phi21 : F) (v1 : CMatrix) : CMatrix := #v[phaseRow phi11 v1[0], phaseRow phi21 v1[1], v1[2]]

/-- `V3` (R127): the rotation of rows 0 and 1. -/
def rotate01 (psi21 : F) (v2 : CMatrix) : CMatrix :=
  #v[rotateUpper psi21 v2[0] v2[1], rotateLower psi21 v2[0] v2[1], v2[2]]

/-- `V4` (R129): the rotation of rows 0 and 2. -/
def rotate02 (psi31 : F) (v3 : CMatrix) : CMatrix :=
  #v[rotateUpper psi31 v3[0] v3[2], v3[1], rotateLower psi31 v3[0] v3[2]]

/-- `V5` (R130): row 1 corrected by phi22. -/
def correctRow1 (phi22 : F) (v4 : CMatrix) : CMatrix := #v[v4[0], phaseRow phi22 v4[1], v4[2]]

/-- The last output, psi32 (R130), from `V4`. -/
def finalAngles (v4 : CMatrix) : Vector (Option F) 2 :=
  let phi22 := norm2pi (carg v4[1][1])
  let v5 := correctRow1 phi22 v4
  #v[some phi22, calcPsi? v5[1][1].re v5[2][1].re]

/-- The six angles of a matrix in AngleSet order. `none` marks an unspecified output: the psi whose two arguments are zero and every
output computed after it (R135). -/
def decompose (v : CMatrix) : Vector (Option F) 6 :=
  let v1 := applyColumnPhases v
  let phi11 := norm2pi (carg v1[0][0])
  let phi21 := norm2pi (carg v1[1][0])
  let v2 := correctRows phi11 phi21 v1
  match calcPsi? v2[0][0].re v2[1][0].re with
  | none => #v[some phi11, some phi21, none, none, none, none]
  | some psi21 =>
    let v3 := rotate01 psi21 v2
    match calcPsi? v3[0][0].re v3[2][0].re with
    | none => #v[some phi11, some phi21, some psi21, none, none, none]
    | some psi31 =>
      let f := finalAngles (rotate02 psi31 v3)
      #v[some phi11, some phi21, some psi21, some psi31, f[0], f[1]]

/-- The angles to store: a free value for each unspecified one (R135, U1; log 7). -/
def fillAngles (k : Fin 30) (n : Nat) (a : Vector (Option F) 6) : Vector F 6 :=
  Vector.ofFn fun i => a[i].getD (Config.drawF k (n + i))

/-- How many free values `fillAngles` used up: six numbers when any output is unspecified. -/
def drawsOf (a : Vector (Option F) 6) : Nat := if (a.toList.all Option.isSome) then 0 else 6

/-- The fixed tag pattern (R132, 10_state.md R32). -/
def fixedTags : Vector (BitVec 2) 6 :=
  #v[Tag.phi.bits, Tag.phi.bits, Tag.psi.bits, Tag.psi.bits, Tag.phi.bits, Tag.psi.bits]

/-- All the writes of DECOMP (R132). -/
def State.writeAngles (k : Fin 30) (a : Vector (Option F) 6) (s : State) : State :=
  { s with
    ang := s.ang.set k (fillAngles k s.draws[k] a)
    tag := s.tag.set k fixedTags
    draws := s.draws.set k (s.draws[k] + drawsOf a) }

/-- The body of DECOMP (R120): dimension check (R121), then the six steps. -/
def decompEffect (k : Fin 30) (s : State) : Effect :=
  if s.nrx ≠ 3#8 ∨ s.ntx ≠ 3#8 then .raise .unsupportedDimension
  else .done (s.writeAngles k (decompose s.csi[k]))

/-- `DECOMP s` (R120). -/
def execDecomp (sc : BitVec 5) (s : State) : Host.Outcome State Fault Refusal :=
  command (.decomp sc) s (withSubcarrier sc fun k => decompEffect k s)

end Sys2Proof.Machine
end

