-- ==== Sys2Proof/Machine/Extractor.lean ====
section
/-! DEFINITION. CSIX, the unaligned bit extractor (41_bit_extractor.md R100 to R113). -/

namespace Sys2Proof.Machine

/-- The eight bits that start at bit `p` of the byte `lo` and run on into the byte `hi` (R103). -/
def window (lo hi : Byte) (p : Nat) : Byte :=
  BitVec.ofNat 8 (((lo.toNat >>> p) ||| (hi.toNat <<< (8 - p))) &&& 0xFF)

/-- `Window8(k, p)` of the payload that starts at `base` (R103). -/
def window8 (m : Memory) (base k p : Nat) : Option Byte := do
  let lo ← m.read (base + k)
  let hi ← m.read (base + k + 1)
  return window lo hi p

/-- A component: a signed byte promoted to `F` (R104). -/
def component (b : Byte) : F := i2f b.toInt

/-- The antenna pair at cursor `cur`: real part from the window at its byte, imaginary part one byte later (R104). -/
def readPair (m : Memory) (base rem cur : Nat) : Option CPair := do
  let re ← window8 m base (cur / 8) rem
  let im ← window8 m base (cur / 8 + 1) rem
  return ⟨component re, component im⟩

/-- The antenna pairs of a matrix, receive index outer, transmit index inner (R105). -/
def antennaPairs (nrx ntx : Nat) : List (Fin 3 × Fin 3) :=
  ((List.finRange 3).take nrx).flatMap fun r => ((List.finRange 3).take ntx).map fun c => (r, c)

/-- Write one entry of a matrix. -/
def CMatrix.write (v : CMatrix) (r c : Fin 3) (z : CPair) : CMatrix := v.set r (v[r].set c z)

/-- One pass of the inner loop of R100: read the pair, write its cell, advance by 16 bits. -/
def extractPair (m : Memory) (base rem : Nat) (acc : Nat × CMatrix) (rc : Fin 3 × Fin 3) : Option (Nat × CMatrix) := do
  let z ← readPair m base rem acc.1
  return (acc.1 + Config.pairBits, CMatrix.write acc.2 rc.1 rc.2 z)

/-- One pass of the outer loop of R100: skip the 3 padding bits, fix the remainder, extract every pair (R101, R102). -/
def extractSubcarrier (m : Memory) (base nrx ntx : Nat) (acc : Nat × Vector CMatrix 30) (k : Fin 30) :
    Option (Nat × Vector CMatrix 30) := do
  let cur := acc.1 + Config.padBits
  let (cur', v) ← (antennaPairs nrx ntx).foldlM (extractPair m base (cur % 8)) (cur, acc.2[k])
  return (cur', acc.2.set k v)

/-- The loop of R100 over 30 subcarriers: the final cursor and the tensor. Cells outside the frame's shape keep their content (R109). -/
def extractTensor (m : Memory) (base nrx ntx : Nat) (csi : Vector CMatrix 30) : Option (Nat × Vector CMatrix 30) :=
  (List.finRange 30).foldlM (extractSubcarrier m base nrx ntx) (0, csi)

/-- The body of CSIX (R100): count check (R107), length check (R106), then the loop. -/
def csixEffect (s : State) : Effect :=
  if !isCount s.nrx || !isCount s.ntx then .raise .malformedHeader
  else if s.payBase + 60 * (s.nrx.toNat * s.ntx.toNat) + 12 > s.bufLen then .raise .truncatedCsiData
  else
    match extractTensor s.buf s.payBase s.nrx.toNat s.ntx.toNat s.csi with
    | some (cur, csi) => .done { s with csi := csi, cur := BitVec.ofNat 16 cur }
    | none => .unwritten

/-- `CSIX` (R100). -/
def execCsix (s : State) : Host.Outcome State Fault Refusal :=
  command .csix s (csixEffect s)

end Sys2Proof.Machine
end

