-- ==== Sys2Proof/Machine/Header.lean ====
section
/-! DEFINITION. HDR, the frame header parser (40_header_parser.md R90 to R97). -/

namespace Sys2Proof.Machine

/-- The header fields HDR reads (40_header_parser.md R93, 20_memory.md R58). -/
structure FrameHeader where
  noise : Vector Byte 3
  fcnt : BitVec 16
  nrx : Byte
  ntx : Byte
  rssi : Vector Byte 3
  rnoise : Byte
  agc : Byte
  antsel : Byte
  flen : BitVec 16
  rate : BitVec 16
  deriving DecidableEq, Repr

/-- `LE16` of two bytes: low byte plus high byte times 256 (20_memory.md R52). -/
def le16 (lo hi : Byte) : BitVec 16 := lo.setWidth 16 + (hi.setWidth 16 <<< 8)

/-- Bytes `a`, `a + 1`, `a + 2` of the buffer. -/
def read3 (m : Memory) (a : Nat) : Option (Vector Byte 3) := do
  let x ← m.read a
  let y ← m.read (a + 1)
  let z ← m.read (a + 2)
  return #v[x, y, z]

/-- The little-endian 16-bit field at `a`. -/
def readLE16 (m : Memory) (a : Nat) : Option (BitVec 16) := do
  let lo ← m.read a
  let hi ← m.read (a + 1)
  return le16 lo hi

/-- The header after a prefix of `pre` bytes: the 17 bytes 0 to 4 and 7 to 18 are read, bytes 5 and 6 are not (20_memory.md R57, R58). -/
def readHeader (m : Memory) (pre : Nat) : Option FrameHeader := do
  let noise ← read3 m pre
  let fcnt ← readLE16 m (pre + 3)
  let nrx ← m.read (pre + 7)
  let ntx ← m.read (pre + 8)
  let rssi ← read3 m (pre + 9)
  let rnoise ← m.read (pre + 12)
  let agc ← m.read (pre + 13)
  let antsel ← m.read (pre + 14)
  let flen ← readLE16 m (pre + 15)
  let rate ← readLE16 m (pre + 17)
  return ⟨noise, fcnt, nrx, ntx, rssi, rnoise, agc, antsel, flen, rate⟩

/-- `PERM[k]`: bits `2k+1 : 2k` of the antenna-selection byte, plus 1 (40_header_parser.md R94). -/
def permOf (antsel : Byte) : Vector (BitVec 3) 3 :=
  Vector.ofFn fun k => (antsel.extractLsb' (2 * k.val) 2).setWidth 3 + 1#3

/-- All the writes of HDR (R90, R96). -/
def State.writeHeader (h : FrameHeader) (pre : Nat) (s : State) : State :=
  { s with
    noise := h.noise, fcnt := h.fcnt, nrx := h.nrx, ntx := h.ntx, rssi := h.rssi, rnoise := h.rnoise,
    agc := h.agc, antsel := h.antsel, flen := h.flen, rate := h.rate,
    perm := permOf h.antsel, payBase := pre + Config.hdrLen }

/-- A count byte that has a value and breaks the invariant (R95; log 15). -/
def badCount : Option Byte → Bool
  | some b => !isCount b
  | none => false

/-- The body of HDR (R90): length check (R92), count check (R95), then the writes. -/
def hdrEffect (p : Bool) (s : State) : Effect :=
  let pre := prefixLen p
  if s.bufLen < pre + Config.hdrLen then .raise .malformedHeader
  else if badCount (s.memRead (pre + 7)) || badCount (s.memRead (pre + 8)) then .raise .malformedHeader
  else
    match readHeader s.buf pre with
    | some h => .done (s.writeHeader h pre)
    | none => .unwritten

/-- `HDR p` (R90). -/
def execHdr (p : Bool) (s : State) : Host.Outcome State Fault Refusal :=
  command (.hdr p) s (hdrEffect p s)

end Sys2Proof.Machine
end

