-- ==== Sys2Proof/Machine/Quantizer.lean ====
section
/-! DEFINITION. QUANT and DEQUANT, the angle quantizer (43_angle_quantizer.md R150 to R161). -/

namespace Sys2Proof.Machine

/-- `A(bw) = 2^(bw+1)` (R153). -/
def quantA (bw : Nat) : Nat := 2 ^ (bw + 1)

/-- `B(bw) = 2^(bw+2)` (R153). -/
def quantB (bw : Nat) : Nat := 2 ^ (bw + 2)

/-- `KMax(tag, bw)` (R153), taken literally. -/
def kMax (t : Tag) (bw : Nat) : Nat :=
  match t with
  | .psi => 2 ^ (bw - 1)
  | .phi => 2 ^ (bw + 2) - 1

/-- `Inv(k, bw)` (R158). -/
def inv (k bw : Nat) : F :=
  fadd (fdiv (fmul (i2f k) fPi) (i2f (quantA bw))) (fdiv fPi (i2f (quantB bw)))

/-- `ThrMin(bw)` (R154), the literal formula. -/
def thrMin (bw : Nat) : F := fdiv fPi (i2f ((bw ^ quantB bw : Nat)))

/-- `ThrMax(tag, bw)` (R155). -/
def thrMax (t : Tag) (bw : Nat) : F := inv (kMax t bw) bw

/-- The argument of `CEIL` in `Affine(x, bw)` (R157). -/
def affineArg (x : F) (bw : Nat) : F := fsub (fdiv (fmul x (i2f (quantA bw))) fPi) fOne

/-- `Affine(x, bw)` (R157); a NaN has no ceiling (R159 f). A ceiling below 0 is code 0, as R157, R159 (g) and R161 say of every
angle above the minimum threshold (log 14). -/
def affine? (x : F) (bw : Nat) : Option Nat := (ceil? (affineArg x bw)).map Int.toNat

/-- The code of an angle (R150): the minimum threshold first, then the maximum, then the affine path (R156). -/
def quantize? (x : F) (t : Tag) (bw : Nat) : Option Nat :=
  if fle x (thrMin bw) then some 0
  else if fle (thrMax t bw) x then some (kMax t bw)
  else affine? x bw

/-- All the writes of QUANT for a code. -/
def State.writeQuantized (k : Fin 30) (i : Fin 6) (code bw : Nat) (s : State) : State :=
  { s with code := setCell s.code k i (BitVec.ofNat 6 code), recon := setCell s.recon k i (inv code bw) }

/-- All the writes of QUANT for a NaN angle: a free code and a free reconstruction (R159 f, U2; log 8). DESIGN CHOICE, safe (log 24): they
are drawn anew each time, so R159 (h), "QUANT of the same slot twice gives the same result", is read as said of angles that are no NaN. -/
def State.writeUnquantized (k : Fin 30) (i : Fin 6) (s : State) : State :=
  { s with
    code := setCell s.code k i (Config.drawCode k s.draws[k])
    recon := setCell s.recon k i (Config.drawF k s.draws[k])
    draws := s.draws.set k (s.draws[k] + 1) }

/-- The body of QUANT (R150): bit width (R151), then tag (R152), then the code. -/
def quantEffect (k : Fin 30) (i : Fin 6) (bw : BitVec 4) (s : State) : Effect :=
  withBitWidth bw fun n =>
    withTag (cell s.tag k i) fun t =>
      match quantize? (cell s.ang k i) t n with
      | some c => .done (s.writeQuantized k i c n)
      | none => .done (s.writeUnquantized k i)

/-- `QUANT s, i, bw` (R150). -/
def execQuant (sc : BitVec 5) (i : BitVec 3) (bw : BitVec 4) (s : State) : Host.Outcome State Fault Refusal :=
  command (.quant sc i bw) s (withCell sc i fun k j => quantEffect k j bw s)

/-- The body of DEQUANT (R160): the checks of QUANT, then the reconstruction; the code is not compared with `KMax`. -/
def dequantEffect (k : Fin 30) (i : Fin 6) (bw : BitVec 4) (s : State) : Effect :=
  withBitWidth bw fun n =>
    withTag (cell s.tag k i) fun _ =>
      .done { s with recon := setCell s.recon k i (inv (cell s.code k i).toNat n) }

/-- `DEQUANT s, i, bw` (R160). -/
def execDequant (sc : BitVec 5) (i : BitVec 3) (bw : BitVec 4) (s : State) : Host.Outcome State Fault Refusal :=
  command (.dequant sc i bw) s (withCell sc i fun k j => dequantEffect k j bw s)

end Sys2Proof.Machine
end

