-- ==== Sys2Proof/Machine/Dispatch.lean ====
section
/-! DEFINITION. The meaning of each command, one arm for each row of the opcode table. -/

namespace Sys2Proof.Machine

def exec (i : Instr) (s : State) : Host.Outcome State Fault Refusal :=
  match i with
  | .hdr p => Sys2Proof.Machine.execHdr p s
  | .csix => Sys2Proof.Machine.execCsix s
  | .decomp sc => Sys2Proof.Machine.execDecomp sc s
  | .quant sc k bw => Sys2Proof.Machine.execQuant sc k bw s
  | .dequant sc k bw => Sys2Proof.Machine.execDequant sc k bw s
  | .pack sc bw => Sys2Proof.Machine.execPack sc bw s
  | .unpack sc => Sys2Proof.Machine.execUnpack sc s

end Sys2Proof.Machine
end

