-- ==== Sys2Proof/Machine/HostActions.lean ====
section
/-! DEFINITION. What the host does between commands: issue a word, write a register, read a register, reset (10_state.md R41, 30_encoding.md R79, 60_exceptions.md R196, 70_reset_and_hazards.md R210). -/

namespace Sys2Proof.Machine

/-- `Issue(w)` (30_encoding.md R79): an illegal word raises `IllegalCommand` (60_exceptions.md R192), any other is performed. -/
def issue (w : CmdWord) (s : State) : Host.Outcome State Fault Refusal :=
  match decode w with
  | .ok i => exec i s
  | .error _ => issueEffect w s (.raise .illegalCommand)

/-- The width in bits of a register (10_state.md R21 to R37). -/
def Reg.width : Reg → Nat
  | .run => 1
  | .err => 3
  | .errinfo => 16
  | .buf _ => 8
  | .bufLen => Config.addrW
  | .payBase => Config.addrW
  | .noise _ => 8
  | .fcnt => 16
  | .nrx => 8
  | .ntx => 8
  | .rssi _ => 8
  | .rnoise => 8
  | .agc => 8
  | .antsel => 8
  | .flen => 16
  | .rate => 16
  | .perm _ => 3
  | .cur => 16
  | .csi _ _ _ _ => 64
  | .ang _ _ => 64
  | .tag _ _ => 2
  | .recon _ _ => 64
  | .code _ _ => 6
  | .pkw _ _ => 3
  | .pki _ => 36

/-- The host column of the access matrix: which registers the host may write (10_state.md R41). -/
def Reg.hostWritable : Reg → Bool
  | .buf _ => true
  | .bufLen => true
  | .payBase => true
  | .nrx => true
  | .ntx => true
  | .csi _ _ _ _ => true
  | .ang _ _ => true
  | .tag _ _ => true
  | .recon _ _ => true
  | .code _ _ => true
  | .pkw _ _ => true
  | .pki _ => true
  | .run => false
  | .err => false
  | .errinfo => false
  | .noise _ => false
  | .fcnt => false
  | .rssi _ => false
  | .rnoise => false
  | .agc => false
  | .antsel => false
  | .flen => false
  | .rate => false
  | .perm _ => false
  | .cur => false

/-- One component of a complex value. -/
def CPair.part (z : CPair) : Part → F
  | .re => z.re
  | .im => z.im

/-- A complex value with one component replaced. -/
def CPair.withPart (z : CPair) (v : F) : Part → CPair
  | .re => ⟨v, z.im⟩
  | .im => ⟨z.re, v⟩

/-- The bit pattern the host reads from a register; a `BUF` byte that nothing has written has none (10_state.md R42). -/
def State.hostRead (s : State) : Reg → Option Nat
  | .run => some s.run.code.toNat
  | .err => some (errCode s.err).toNat
  | .errinfo => some s.errinfo.toNat
  | .buf a => (s.memRead a).map BitVec.toNat
  | .bufLen => some s.bufLen
  | .payBase => some s.payBase
  | .noise k => some s.noise[k].toNat
  | .fcnt => some s.fcnt.toNat
  | .nrx => some s.nrx.toNat
  | .ntx => some s.ntx.toNat
  | .rssi k => some s.rssi[k].toNat
  | .rnoise => some s.rnoise.toNat
  | .agc => some s.agc.toNat
  | .antsel => some s.antsel.toNat
  | .flen => some s.flen.toNat
  | .rate => some s.rate.toNat
  | .perm k => some s.perm[k].toNat
  | .cur => some s.cur.toNat
  | .csi k r c part => some (CPair.part s.csi[k][r][c] part).toNat
  | .ang k i => some (cell s.ang k i).toNat
  | .tag k i => some (cell s.tag k i).toNat
  | .recon k i => some (cell s.recon k i).toNat
  | .code k i => some (cell s.code k i).toNat
  | .pkw k j => some (cell s.pkw k j).toNat
  | .pki k => some s.pki[k].toNat

/-- The state with a host-writable register written; any other register is not written here. -/
def State.setReg (s : State) (r : Reg) (v : Nat) : State :=
  match r with
  | .buf a => { s with buf := Memory.write a (BitVec.ofNat 8 v) s.buf }
  | .bufLen => { s with bufLen := v }
  | .payBase => { s with payBase := v }
  | .nrx => { s with nrx := BitVec.ofNat 8 v }
  | .ntx => { s with ntx := BitVec.ofNat 8 v }
  | .csi k i c part =>
    { s with csi := s.csi.set k (CMatrix.write s.csi[k] i c (CPair.withPart s.csi[k][i][c] (BitVec.ofNat 64 v) part)) }
  | .ang k i => { s with ang := setCell s.ang k i (BitVec.ofNat 64 v) }
  | .tag k i => { s with tag := setCell s.tag k i (BitVec.ofNat 2 v) }
  | .recon k i => { s with recon := setCell s.recon k i (BitVec.ofNat 64 v) }
  | .code k i => { s with code := setCell s.code k i (BitVec.ofNat 6 v) }
  | .pkw k j => { s with pkw := setCell s.pkw k j (BitVec.ofNat 3 v) }
  | .pki k => { s with pki := s.pki.set k (BitVec.ofNat 36 v) }
  | .run | .err | .errinfo | .noise _ | .fcnt | .rssi _ | .rnoise | .agc | .antsel | .flen | .rate | .perm _ | .cur => s

/-- Is `r` a `BUF` cell the block does not have? -/
def Reg.outsideBuf : Reg → Bool
  | .buf a => Config.bufCap ≤ a
  | _ => false

/-- A host write (10_state.md R41): ignored while `RUN = FAULTED` (60_exceptions.md R196); a `BUF_LEN` above `BUF_CAP` is
refused by the block, with no change (R25); what the host must not do stops the model (log 16). -/
def hostWrite (r : Reg) (v : Nat) (s : State) : Host.Outcome State Fault Refusal :=
  match s.run with
  | .faulted => .next s
  | .ready =>
    if !r.hostWritable then .refused .readOnlyRegister
    else if r.outsideBuf then .fault .bufAddress
    else if r = .bufLen ∧ Config.bufCap < v then .next s
    else if 2 ^ r.width ≤ v then .refused .valueTooWide
    else .next (s.setReg r v)

/-- A host read leaves the state as it is, FAULTED or not: what the host sees is `State.hostRead` (10_state.md R41; log 17). -/
def hostReadStep (r : Reg) (s : State) : Host.Outcome State Fault Refusal :=
  if r.outsideBuf then .fault .bufAddress else .next s

/-- One host action. -/
def perform (a : HostAction) (s : State) : Host.Outcome State Fault Refusal :=
  match a with
  | .issue w => issue w s
  | .write r v => hostWrite r v s
  | .read r => hostReadStep r s
  | .reset => .next s.hostReset

end Sys2Proof.Machine
end

