-- ==== Sys2Proof/Machine/Step.lean ====
section
/-! DEFINITION. One step: the next host action is performed. A block with no action pending waits, unchanged (60_exceptions.md R201). -/

namespace Sys2Proof.Machine

/-- One step of the machine. There is no program counter (10_state.md R33): the next command is the next host action (log 1), and commands are performed one after another (log 20). -/
def step (s : State) : Host.Outcome State Fault Refusal :=
  match s.host with
  | [] => .next s
  | a :: rest => perform a { s with host := rest }

/-- The state in which the host issues the word `w` next. -/
def State.withFetchWord (s : State) (nbits w : Nat) : State :=
  { s with host := .issue (BitVec.ofNat 16 (w % 2 ^ nbits)) :: s.host }

end Sys2Proof.Machine
end

