-- ==== Sys2Proof/Machine/Asm.lean ====
section
/-! DEFINITION. The assembler text of 30_encoding.md R76 and the pseudo-commands of R77. The text is a list of characters. -/

namespace Sys2Proof.Machine

/-! ### Pseudo-commands (R77) -/

/-- The six slot fields in slot order. -/
def slotFields : List (BitVec 3) := [0#3, 1#3, 2#3, 3#3, 4#3, 5#3]

/-- `QUANT6 s, bw`. -/
def quant6 (s : BitVec 5) (bw : BitVec 4) : List Instr := slotFields.map fun i => .quant s i bw

/-- `DEQUANT6 s, bw`. -/
def dequant6 (s : BitVec 5) (bw : BitVec 4) : List Instr := slotFields.map fun i => .dequant s i bw

/-- `FEEDBACK s, bw`. -/
def feedback (s : BitVec 5) (bw : BitVec 4) : List Instr := .decomp s :: quant6 s bw ++ [.pack s bw]

/-! ### Writing a command -/

/-- One decimal digit. -/
def digitChar (n : Nat) : Char := Char.ofNat (48 + n)

/-- A field value in decimal: no field exceeds 31. -/
def decimal (n : Nat) : List Char := if n < 10 then [digitChar n] else [digitChar (n / 10), digitChar (n % 10)]

/-- Operands separated by a comma and a space. -/
def operandText : List Nat → List Char
  | [] => []
  | [n] => decimal n
  | n :: ns => decimal n ++ [',', ' '] ++ operandText ns

/-- A command's mnemonic and operands. -/
def asmParts : Instr → List Char × List Nat
  | .hdr p => (['H', 'D', 'R'], [p.toNat])
  | .csix => (['C', 'S', 'I', 'X'], [])
  | .decomp s => (['D', 'E', 'C', 'O', 'M', 'P'], [s.toNat])
  | .quant s i bw => (['Q', 'U', 'A', 'N', 'T'], [s.toNat, i.toNat, bw.toNat])
  | .dequant s i bw => (['D', 'E', 'Q', 'U', 'A', 'N', 'T'], [s.toNat, i.toNat, bw.toNat])
  | .pack s bw => (['P', 'A', 'C', 'K'], [s.toNat, bw.toNat])
  | .unpack s => (['U', 'N', 'P', 'A', 'C', 'K'], [s.toNat])

/-- The line of a command (R76). -/
def asmText (i : Instr) : List Char :=
  match (asmParts i).2 with
  | [] => (asmParts i).1
  | ns => (asmParts i).1 ++ [' '] ++ operandText ns

/-! ### Reading a line -/

/-- A line without its comment. -/
def withoutComment (cs : List Char) : List Char := cs.takeWhile (fun c => !decide (c = ';'))

def isBlank (c : Char) : Bool := c = ' '

/-- Text without blanks at either end. -/
def trimBlanks (cs : List Char) : List Char := ((cs.dropWhile isBlank).reverse.dropWhile isBlank).reverse

/-- Text cut at its commas. -/
def splitCommas : List Char → List (List Char)
  | [] => [[]]
  | c :: cs =>
    if c = ',' then [] :: splitCommas cs
    else
      match splitCommas cs with
      | [] => [[c]]
      | p :: ps => (c :: p) :: ps

/-- The value of one decimal digit. -/
def digit? (c : Char) : Option Nat := if 48 ≤ c.toNat ∧ c.toNat ≤ 57 then some (c.toNat - 48) else none

/-- The value of a decimal number; an empty text is none. -/
def number? (cs : List Char) : Option Nat :=
  if cs.isEmpty then none else cs.foldlM (fun n c => (digit? c).map (10 * n + ·)) 0

/-- The operands of a line; no text is no operand. -/
def operands? (cs : List Char) : Option (List Nat) :=
  if (trimBlanks cs).isEmpty then some [] else (splitCommas cs).mapM (fun p => number? (trimBlanks p))

/-- A number as a field of `w` bits. -/
def field? (w n : Nat) : Option (BitVec w) := if n < 2 ^ w then some (BitVec.ofNat w n) else none

/-- The commands of a mnemonic with its operands, a pseudo-command among them. -/
def assemble : List Char → List Nat → Option (List Instr)
  | ['H', 'D', 'R'], [p] => if p = 0 then some [.hdr false] else if p = 1 then some [.hdr true] else none
  | ['C', 'S', 'I', 'X'], [] => some [.csix]
  | ['D', 'E', 'C', 'O', 'M', 'P'], [s] => do return [.decomp (← field? 5 s)]
  | ['Q', 'U', 'A', 'N', 'T'], [s, i, bw] => do return [.quant (← field? 5 s) (← field? 3 i) (← field? 4 bw)]
  | ['D', 'E', 'Q', 'U', 'A', 'N', 'T'], [s, i, bw] => do return [.dequant (← field? 5 s) (← field? 3 i) (← field? 4 bw)]
  | ['P', 'A', 'C', 'K'], [s, bw] => do return [.pack (← field? 5 s) (← field? 4 bw)]
  | ['U', 'N', 'P', 'A', 'C', 'K'], [s] => do return [.unpack (← field? 5 s)]
  | ['Q', 'U', 'A', 'N', 'T', '6'], [s, bw] => do return quant6 (← field? 5 s) (← field? 4 bw)
  | ['D', 'E', 'Q', 'U', 'A', 'N', 'T', '6'], [s, bw] => do return dequant6 (← field? 5 s) (← field? 4 bw)
  | ['F', 'E', 'E', 'D', 'B', 'A', 'C', 'K'], [s, bw] => do return feedback (← field? 5 s) (← field? 4 bw)
  | _, _ => none

/-- The commands of one line (R76, R77); an empty line has none, a line that names no legal command is rejected (log 19). -/
def parseLine (line : List Char) : Option (List Instr) :=
  let cs := (withoutComment line).dropWhile isBlank
  let name := cs.takeWhile (fun c => !isBlank c)
  if name.isEmpty then some []
  else do
    let ns ← operands? (cs.drop name.length)
    let is ← assemble name ns
    if is.all Instr.wellFormed then return is else none

end Sys2Proof.Machine
end

