-- ==== Sys2Proof/Safety.lean ====
section
/-! DEFINITION. What counts as a safe run: the state invariant, runs of host actions, and when a run has gone wrong. -/

namespace Sys2Proof.Machine

/-- The invariant every step keeps. -/
def State.Inv (s : State) : Prop :=
  /- The buffer is in its canonical form and holds no byte beyond `BUF_CAP` (10_state.md R24). -/
  Memory.wf s.buf ∧ (∀ c ∈ s.buf, c.1 < Config.bufCap) ∧
  /- `BUF_LEN <= BUF_CAP` (R25), and `PAYBASE` fits `ADDR_W` bits (R26). -/
  s.bufLen ≤ Config.bufCap ∧ s.payBase < 2 ^ Config.addrW ∧
  /- `ERR = 0` exactly when `RUN = READY` (R22); `ERRINFO` is written by fault entry only (R23). -/
  (s.err = none ↔ s.run = .ready) ∧ (s.run = .ready → s.errinfo = 0#16) ∧
  /- The largest value of `CUR` is 4410 (R29). -/
  s.cur.toNat ≤ 4410

/-- A run has gone wrong exactly when `RUN = FAULTED` (70_reset_and_hazards.md R221). -/
def State.goneWrong (s : State) : Prop := s.run = .faulted

/-- A sequence of host actions performed in order, up to the first stop (70_reset_and_hazards.md R221). -/
def performAll : List HostAction → State → Host.Outcome State Fault Refusal
  | [], s => .next s
  | a :: rest, s =>
    match perform a s with
    | .next t => performAll rest t
    | .fault f => .fault f
    | .refused r => .refused r

/-- The subcarrier a command names, if it names one (70_reset_and_hazards.md R219). -/
def subcarrierField : Instr → Option (BitVec 5)
  | .hdr _ => none
  | .csix => none
  | .decomp s => some s
  | .quant s _ _ => some s
  | .dequant s _ _ => some s
  | .pack s _ => some s
  | .unpack s => some s

end Sys2Proof.Machine
end

