-- ==== Sys2Proof/Certificates/Slice0/Obligations.lean ====
section
/-! DEFINITION. The statements for the provers. -/

open Sys2Proof Sys2Proof.Machine

/-! ### Encoding -/

/-- 30_encoding.md R75: decoding the word of a well-formed command gives it back, with every operand. -/
def Obligations.DecodeInvertsEncode : Prop :=
  ∀ i : Instr, i.wellFormed = true → decode (encode i) = .ok i

/-- 30_encoding.md R75, the decoder and the encoder in full, with the fields of a word by division: the seven rows, nothing else, and
the inverse. -/
def Obligations.DecoderAndEncoderFollowTable : Prop :=
  (∀ w : CmdWord,
    let opc := w.toNat / 4096
    let bw := w.toNat / 256 % 16
    let i := w.toNat / 32 % 8
    let s := w.toNat % 32
    if opc = 1 ∧ w.toNat / 2 % 2048 = 0 then decode w = .ok (.hdr (decide (w.toNat % 2 = 1)))
    else if opc = 2 ∧ w.toNat % 4096 = 0 then decode w = .ok .csix
    else if opc = 3 ∧ w.toNat / 32 % 128 = 0 ∧ s ≤ 29 then decode w = .ok (.decomp (BitVec.ofNat 5 s))
    else if opc = 4 ∧ s ≤ 29 ∧ i ≤ 5 then
      decode w = .ok (.quant (BitVec.ofNat 5 s) (BitVec.ofNat 3 i) (BitVec.ofNat 4 bw))
    else if opc = 5 ∧ s ≤ 29 ∧ i ≤ 5 then
      decode w = .ok (.dequant (BitVec.ofNat 5 s) (BitVec.ofNat 3 i) (BitVec.ofNat 4 bw))
    else if opc = 6 ∧ i = 0 ∧ s ≤ 29 then decode w = .ok (.pack (BitVec.ofNat 5 s) (BitVec.ofNat 4 bw))
    else if opc = 7 ∧ w.toNat / 32 % 128 = 0 ∧ s ≤ 29 then decode w = .ok (.unpack (BitVec.ofNat 5 s))
    else ∃ e, decode w = .error e) ∧
  (∀ p, (encode (.hdr p)).toNat = 0x1000 + p.toNat) ∧
  (encode .csix).toNat = 0x2000 ∧
  (∀ s, (encode (.decomp s)).toNat = 0x3000 + s.toNat) ∧
  (∀ s i bw, (encode (.quant s i bw)).toNat = 0x4000 + bw.toNat * 256 + i.toNat * 32 + s.toNat) ∧
  (∀ s i bw, (encode (.dequant s i bw)).toNat = 0x5000 + bw.toNat * 256 + i.toNat * 32 + s.toNat) ∧
  (∀ s bw, (encode (.pack s bw)).toNat = 0x6000 + bw.toNat * 256 + s.toNat) ∧
  (∀ s, (encode (.unpack s)).toNat = 0x7000 + s.toNat) ∧
  (∀ i : Instr, i.wellFormed = true → decode (encode i) = .ok i)

/-- 30_encoding.md R73, R75: a word that decodes is the word of the instruction it decodes to, which is well formed and whose row it
selects; so no two words are one command. -/
def Obligations.EncodeInvertsDecode : Prop :=
  ∀ (w : CmdWord) (i : Instr), decode w = .ok i →
    encode i = w ∧ i.wellFormed = true ∧ w &&& rowMask i = rowMatch i

/-- 30_encoding.md R74: the illegal words, exactly; issued while READY each raises `IllegalCommand` and changes no other state. -/
def Obligations.IllegalWordsRaiseIllegalCommand : Prop :=
  (∀ w : CmdWord,
    let opc := w.toNat / 4096
    let i := w.toNat / 32 % 8
    let s := w.toNat % 32
    (opc = 0 ∨ 8 ≤ opc ∨ (opc = 1 ∧ w.toNat / 2 % 2048 ≠ 0) ∨ (opc = 2 ∧ w.toNat % 4096 ≠ 0) ∨
      ((opc = 3 ∨ opc = 7) ∧ w.toNat / 32 % 128 ≠ 0) ∨ (opc = 6 ∧ i ≠ 0) ∨
      ((3 ≤ opc ∧ opc ≤ 7) ∧ 30 ≤ s) ∨ ((opc = 4 ∨ opc = 5) ∧ 6 ≤ i)) ↔
    ((∀ j, decode w ≠ .ok j) ∧ ∀ t : State, t.run = .ready →
      issue w t = .next { t with run := .faulted, err := some .illegalCommand, errinfo := w })) ∧
  (∀ j, decode 0x0000#16 ≠ .ok j) ∧ (∀ j, decode 0xFFFF#16 ≠ .ok j)

/-- Words of 95_test_vectors.md T0, one or more of each row, and illegal neighbours. -/
def Obligations.SampleWordsDecode : Prop :=
  decode 0x1001#16 = .ok (.hdr true) ∧ decode 0x2000#16 = .ok .csix ∧ decode 0x301D#16 = .ok (.decomp 29) ∧
  decode 0x43BD#16 = .ok (.quant 29 5 3) ∧ decode 0x53A0#16 = .ok (.dequant 0 5 3) ∧
  decode 0x6300#16 = .ok (.pack 0 3) ∧ decode 0x7000#16 = .ok (.unpack 0) ∧
  decode 0x43BE#16 = .error .badSubcarrier ∧ decode 0x43C0#16 = .error .badSlot ∧
  decode 0x6320#16 = .error .reservedBits ∧ decode 0x8000#16 = .error .badOpcode

/-- 30_encoding.md R76: the line written for a well-formed command is read as that command. The spacing is the model's choice (log 19). -/
def Obligations.AssemblerLineRoundTrip : Prop :=
  ∀ i : Instr, i.wellFormed = true → parseLine (asmText i) = some [i]

/-! ### The step, faults, reset -/

/-- 30_encoding.md R79: a step whose next host action issues a word that decodes performs the decoded command, on the state without
that action; the state is otherwise the one the step began in. The host action list is the model's (log 1). -/
def Obligations.StepPerformsDecodedCommand : Prop :=
  ∀ (s : State) (w : CmdWord) (rest : List HostAction) (i : Instr),
    s.host = .issue w :: rest → decode w = .ok i → step s = exec i { s with host := rest }

/-- The other host actions, each performed by a step on the state without it. An illegal word raises `IllegalCommand` in a READY block
and does nothing in a FAULTED one (30_encoding.md R74, R79); a host write is ignored while FAULTED (60_exceptions.md R196) and otherwise
stores its value, which is what the host then reads, and changes no other register (10_state.md R41), but for a `BUF_LEN` above
`BUF_CAP` (R25); a reset gives the state after reset (70_reset_and_hazards.md R210). The list of actions, the stops of accesses the
host must not make, and what a reset keeps are the model's choices (log 1, log 16, log 17, log 18). -/
def Obligations.StepPerformsOtherHostActions : Prop :=
  ∀ (s : State) (a : HostAction) (rest : List HostAction), s.host = a :: rest →
    let s1 := { s with host := rest }
    (∀ w, a = .issue w → (∀ i, decode w ≠ .ok i) →
      (s.run = .ready → step s = .next { s1 with run := .faulted, err := some .illegalCommand, errinfo := w }) ∧
      (s.run = .faulted → step s = .next s1)) ∧
    (∀ r v, a = .write r v →
      (s.run = .faulted → step s = .next s1) ∧
      (s.run = .ready →
        (r.hostWritable = false → step s = .refused .readOnlyRegister) ∧
        (∀ n, r = .buf n → Config.bufCap ≤ n → step s = .fault .bufAddress) ∧
        (r = .bufLen → Config.bufCap < v → step s = .next s1) ∧
        (r.hostWritable = true → (∀ n, r = .buf n → n < Config.bufCap) → (r = .bufLen → v ≤ Config.bufCap) →
          (2 ^ r.width ≤ v → step s = .refused .valueTooWide) ∧
          (v < 2 ^ r.width → ∃ t, step s = .next t ∧ t.host = rest ∧ t.draws = s.draws ∧ t.resets = s.resets ∧
            t.hostRead r = some v ∧ ∀ r' : Reg, r' ≠ r → t.hostRead r' = s.hostRead r')))) ∧
    (∀ r, a = .read r →
      (∀ n, r = .buf n → Config.bufCap ≤ n → step s = .fault .bufAddress) ∧
      ((∀ n, r = .buf n → n < Config.bufCap) → step s = .next s1)) ∧
    (a = .reset → step s = .next (State.afterReset (s.resets + 1) rest s.draws))

/-- 60_exceptions.md R201: a block with nothing to do waits, unchanged (log 1). -/
def Obligations.BlockWaitsWithoutAction : Prop :=
  ∀ s : State, s.host = [] → step s = .next s

/-- 60_exceptions.md R194, R198, over all words: a command issued while READY that leaves the block FAULTED has written `ERR`,
`ERRINFO` (the word) and `RUN`, and nothing else. -/
def Obligations.FaultEntryWritesOnlyStatus : Prop :=
  ∀ (w : CmdWord) (s t : State), s.run = .ready → issue w s = .next t → t.run = .faulted →
    ∃ k : ErrKind, t = { s with run := .faulted, err := some k, errinfo := w }

/-- 60_exceptions.md R191 to R193: which error each command word raises in a READY block, and when; each row of the table is the only
way its error arises; and the code of the error. That HDR raises on a bad count byte whatever other header bytes are unwritten, and
does not raise for an unwritten count byte, is the model's reading (log 15). -/
def Obligations.ErrorCausesAreExactly : Prop :=
  ∀ (w : CmdWord) (s : State) (k : ErrKind), s.run = .ready →
    let bad := fun n : Byte => ¬ (n.toNat = 1 ∨ n.toNat = 2 ∨ n.toNat = 3)
    let badBw := fun bw : BitVec 4 => bw.toNat < 1 ∨ 4 < bw.toNat
    let noTag := fun b : BitVec 2 => b = 0#2 ∨ b = 3#2
    let pre := fun p : Bool => if p then Config.prefixLongLen else 1
    (errCode (some k)).toNat =
      (match k with
        | .malformedHeader => 1
        | .truncatedCsiData => 2
        | .unsupportedDimension => 3
        | .invalidBitWidth => 4
        | .invalidAngleTag => 5
        | .illegalCommand => 6) ∧
    (issue w s = .next { s with run := .faulted, err := some k, errinfo := w } ↔
      match k with
      | .malformedHeader =>
        (∃ p, decode w = .ok (.hdr p) ∧ (s.bufLen < pre p + 19 ∨
          (∃ b, s.memRead (pre p + 7) = some b ∧ bad b) ∨ (∃ b, s.memRead (pre p + 8) = some b ∧ bad b))) ∨
        (decode w = .ok .csix ∧ (bad s.nrx ∨ bad s.ntx))
      | .truncatedCsiData =>
        decode w = .ok .csix ∧ ¬ bad s.nrx ∧ ¬ bad s.ntx ∧
          s.bufLen < s.payBase + 60 * s.nrx.toNat * s.ntx.toNat + 12
      | .unsupportedDimension =>
        (∃ sc, decode w = .ok (.decomp sc)) ∧ (s.nrx.toNat ≠ 3 ∨ s.ntx.toNat ≠ 3)
      | .invalidBitWidth =>
        ∃ sc i bw, (decode w = .ok (.quant sc i bw) ∨ decode w = .ok (.dequant sc i bw) ∨ decode w = .ok (.pack sc bw)) ∧ badBw bw
      | .invalidAngleTag =>
        ∃ (sc : BitVec 5) (bw : BitVec 4) (h : sc.toNat < 30), ¬ badBw bw ∧
          ((∃ (i : BitVec 3) (hi : i.toNat < 6), (decode w = .ok (.quant sc i bw) ∨ decode w = .ok (.dequant sc i bw)) ∧
              noTag s.tag[sc.toNat][i.toNat]) ∨
            (decode w = .ok (.pack sc bw) ∧ ∃ i : Fin 6, noTag s.tag[sc.toNat][i]))
      | .illegalCommand => ∀ i, decode w ≠ .ok i)

/-- 10_state.md R22, 60_exceptions.md R191: the number of each error kind as the host reads it in `ERR`. -/
def Obligations.ErrorNumbersAsRead : Prop :=
  ∀ s : State,
    s.hostRead .err = some
      (match s.err with
        | none => 0
        | some .malformedHeader => 1
        | some .truncatedCsiData => 2
        | some .unsupportedDimension => 3
        | some .invalidBitWidth => 4
        | some .invalidAngleTag => 5
        | some .illegalCommand => 6)

/-- 60_exceptions.md R196, R197: while FAULTED no host action but reset changes anything, whatever the actions and however many. The
reads are of cells the block has. -/
def Obligations.FaultedBlockIgnoresEverythingButReset : Prop :=
  ∀ (acts : List HostAction) (s : State), s.run = .faulted → (∀ a ∈ acts, a ≠ .reset ∧ ∀ r, a = .read r → r.outsideBuf = false) →
    performAll acts s = .next s

/-- 60_exceptions.md R197, 70_reset_and_hazards.md R210: a step from FAULTED to READY is a reset. -/
def Obligations.OnlyResetLeavesFaulted : Prop :=
  ∀ s t : State, s.run = .faulted → step s = .next t → t.run = .ready → ∃ rest, s.host = .reset :: rest

/-- 10_state.md R43: what reset leaves, after power-on and after a reset from any state, in every field the spec gives a value. -/
def Obligations.ResetLeavesSpecifiedValues : Prop :=
  ∀ s : State, s = State.reset ∨ (∃ u : State, perform .reset u = .next s) →
    s.run = .ready ∧ s.err = none ∧ s.errinfo = 0#16 ∧ s.bufLen = 0 ∧ s.payBase = 0 ∧ s.nrx = 0#8 ∧ s.ntx = 0#8 ∧
    s.cur = 0#16 ∧ ∀ (k : Fin 30) (i : Fin 6), s.tag[k][i] = 0#2

/-- 70_reset_and_hazards.md R211: each command but UNPACK, issued right after power-on or a reset with nothing loaded, faults with the error
named. -/
def Obligations.CommandsAfterResetFault : Prop :=
  ∀ s : State, s = State.reset ∨ (∃ u : State, perform .reset u = .next s) →
    (∀ p, exec (.hdr p) s = .next (s.raise .malformedHeader (encode (.hdr p)))) ∧
    exec .csix s = .next (s.raise .malformedHeader 0x2000#16) ∧
    (∀ sc, legalSubcarrier sc = true → exec (.decomp sc) s = .next (s.raise .unsupportedDimension (encode (.decomp sc)))) ∧
    ∀ sc bw, legalSubcarrier sc = true → 1 ≤ bw.toNat → bw.toNat ≤ 4 →
      (∀ i, legalSlot i = true →
        exec (.quant sc i bw) s = .next (s.raise .invalidAngleTag (encode (.quant sc i bw))) ∧
        exec (.dequant sc i bw) s = .next (s.raise .invalidAngleTag (encode (.dequant sc i bw)))) ∧
      exec (.pack sc bw) s = .next (s.raise .invalidAngleTag (encode (.pack sc bw)))

/-- The invariant holds at reset. -/
def Obligations.InvariantHoldsAtReset : Prop := State.reset.Inv

/-- Every step keeps the invariant: canonical buffer inside `BUF_CAP` (10_state.md R24), `BUF_LEN <= BUF_CAP` (R25), `PAYBASE` in its
width (R26), `ERR = 0` exactly when READY (R22), `CUR` at most 4410 (R29). -/
def Obligations.StepKeepsInvariant : Prop :=
  ∀ s t : State, s.Inv → step s = .next t → t.Inv

/-- 30_encoding.md R79: every command terminates with a next state. HDR and CSIX alone can be refused, and only for a `BUF` byte
nothing has written (10_state.md R42; log 6); no command ends in a model fault. -/
def Obligations.EveryCommandTerminates : Prop :=
  ∀ (i : Instr) (s : State),
    (∃ t, exec i s = .next t) ∨
    (exec i s = .refused .unwrittenBuffer ∧ (i = .csix ∨ ∃ p, i = .hdr p) ∧ ∃ a, a < s.bufLen ∧ s.memRead a = none)

/-! ### Frames over all commands -/

/-- 10_state.md R41, the command columns of the access matrix: no command writes a register its column does not give it; none writes
`BUF` or `BUF_LEN` (20_memory.md R57); `RUN`, `ERR` and `ERRINFO` are written by fault entry alone (60_exceptions.md R194, R198). -/
def Obligations.CommandsWriteOnlyTheirColumn : Prop :=
  ∀ (i : Instr) (s t : State), exec i s = .next t →
    ((t.run = s.run ∧ t.err = s.err ∧ t.errinfo = s.errinfo) ∨
      ∃ k : ErrKind, t = { s with run := .faulted, err := some k, errinfo := encode i }) ∧
    (t.buf = s.buf ∧ t.bufLen = s.bufLen ∧ t.host = s.host ∧ t.resets = s.resets) ∧
    ((∀ k, i ≠ .decomp k) → (∀ k j b, i ≠ .quant k j b) → t.draws = s.draws) ∧
    ((∀ p, i ≠ .hdr p) → t.payBase = s.payBase ∧ t.noise = s.noise ∧ t.fcnt = s.fcnt ∧ t.nrx = s.nrx ∧ t.ntx = s.ntx ∧
      t.rssi = s.rssi ∧ t.rnoise = s.rnoise ∧ t.agc = s.agc ∧ t.antsel = s.antsel ∧ t.flen = s.flen ∧ t.rate = s.rate ∧
      t.perm = s.perm) ∧
    (i ≠ .csix → t.csi = s.csi ∧ t.cur = s.cur) ∧
    ((∀ k, i ≠ .decomp k) → t.ang = s.ang ∧ t.tag = s.tag) ∧
    ((∀ k j b, i ≠ .quant k j b ∧ i ≠ .dequant k j b) → t.recon = s.recon) ∧
    ((∀ k j b, i ≠ .quant k j b ∧ i ≠ .unpack k) → t.code = s.code) ∧
    ((∀ k b, i ≠ .pack k b) → t.pkw = s.pkw ∧ t.pki = s.pki)

/-- 70_reset_and_hazards.md R219: a command that names a subcarrier leaves every cell of every other subcarrier unchanged. -/
def Obligations.SubcarrierCommandsKeepOtherSubcarriers : Prop :=
  ∀ (i : Instr) (sc : BitVec 5) (s t : State), subcarrierField i = some sc → exec i s = .next t →
    ∀ k : Fin 30, k.val ≠ sc.toNat →
      t.csi[k] = s.csi[k] ∧ t.ang[k] = s.ang[k] ∧ t.tag[k] = s.tag[k] ∧ t.recon[k] = s.recon[k] ∧ t.code[k] = s.code[k] ∧
      t.pkw[k] = s.pkw[k] ∧ t.pki[k] = s.pki[k]

/-- 70_reset_and_hazards.md R219: commands on different subcarriers commute, provided neither faults. That the values the spec leaves
unspecified (log 7, log 8) are the same in both orders is the model's choice: draws are counted for each subcarrier (log 9). -/
def Obligations.DistinctSubcarrierCommandsCommute : Prop :=
  ∀ (i j : Instr) (si sj : BitVec 5) (s ti tj : State),
    subcarrierField i = some si → subcarrierField j = some sj → si ≠ sj →
    exec i s = .next ti → ti.run = .ready → exec j s = .next tj → tj.run = .ready →
    ∃ t, exec j ti = .next t ∧ exec i tj = .next t

/-! ### HDR -/

/-- 40_header_parser.md R90: HDR in full. With `h k` the header byte `k` (bytes 5 and 6 are not read): the two error cases in their
order, and otherwise every write and no other. -/
def Obligations.HdrParsesHeader : Prop :=
  ∀ (p : Bool) (s : State) (h : Nat → Byte), s.run = .ready →
    let pre := if p then Config.prefixLongLen else 1
    (s.bufLen < pre + 19 → exec (.hdr p) s = .next (s.raise .malformedHeader (encode (.hdr p)))) ∧
    (pre + 19 ≤ s.bufLen → (∀ k, k < 19 → k ≠ 5 → k ≠ 6 → s.memRead (pre + k) = some (h k)) →
      if ((h 7).toNat < 1 ∨ 3 < (h 7).toNat) ∨ (h 8).toNat < 1 ∨ 3 < (h 8).toNat then
        exec (.hdr p) s = .next (s.raise .malformedHeader (encode (.hdr p)))
      else
        exec (.hdr p) s = .next
          { s with
            noise := #v[h 0, h 1, h 2]
            fcnt := BitVec.ofNat 16 ((h 3).toNat + 256 * (h 4).toNat)
            nrx := h 7, ntx := h 8
            rssi := #v[h 9, h 10, h 11]
            rnoise := h 12
            agc := h 13
            antsel := h 14
            flen := BitVec.ofNat 16 ((h 15).toNat + 256 * (h 16).toNat)
            rate := BitVec.ofNat 16 ((h 17).toNat + 256 * (h 18).toNat)
            perm := #v[BitVec.ofNat 3 ((h 14).toNat % 4 + 1), BitVec.ofNat 3 ((h 14).toNat / 4 % 4 + 1),
              BitVec.ofNat 3 ((h 14).toNat / 16 % 4 + 1)]
            payBase := pre + 19 })

/-- 00_scope.md R15, 40_header_parser.md R93: HDR completes on a header with legal counts, and `RNOISE` then holds header byte 12
reinterpreted as a signed byte: its value is the byte below 128 and the byte minus 256 from 128 on. -/
def Obligations.SignedByteReadsAsTwosComplement : Prop :=
  ∀ (p : Bool) (s : State) (h : Nat → Byte), s.run = .ready →
    let pre := if p then Config.prefixLongLen else 1
    pre + 19 ≤ s.bufLen → (∀ k, k < 19 → k ≠ 5 → k ≠ 6 → s.memRead (pre + k) = some (h k)) →
    1 ≤ (h 7).toNat → (h 7).toNat ≤ 3 → 1 ≤ (h 8).toNat → (h 8).toNat ≤ 3 →
    ∃ t, exec (.hdr p) s = .next t ∧ t.run = .ready ∧
      t.rnoise.toInt = if (h 12).toNat < 128 then ((h 12).toNat : Int) else ((h 12).toNat : Int) - 256

/-! ### CSIX -/

/-- 41_bit_extractor.md R100, R103 to R110 in the closed form of R108: with legal counts, a long enough payload and its bytes written,
CSIX completes; each cell of the frame's shape holds the two components at its cursor, every other cell and every other register is
unchanged, and `CUR` is `90 + 480 * NRX * NTX`. -/
def Obligations.CsixExtractsTensor : Prop :=
  ∀ (s : State), s.run = .ready →
    let nrx := s.nrx.toNat
    let ntx := s.ntx.toNat
    1 ≤ nrx → nrx ≤ 3 → 1 ≤ ntx → ntx ≤ 3 →
    s.payBase + 60 * (nrx * ntx) + 12 ≤ s.bufLen →
    ∀ byte : Nat → Byte, (∀ a, a < 60 * (nrx * ntx) + 12 → s.memRead (s.payBase + a) = some (byte a)) →
    ∃ csi : Vector CMatrix 30,
      exec .csix s = .next { s with csi := csi, cur := BitVec.ofNat 16 (90 + 480 * (nrx * ntx)) } ∧
      ∀ (k : Fin 30) (r c : Fin 3),
        if r.val < nrx ∧ c.val < ntx then
          let cur := 3 * (k.val + 1) + 16 * (nrx * ntx * k.val + (ntx * r.val + c.val))
          let bits := fun n : Nat => ((byte n).toNat / 2 ^ (cur % 8) + (byte (n + 1)).toNat * 2 ^ (8 - cur % 8)) % 256
          let signed := fun v : Nat => if v < 128 then (v : Int) else (v : Int) - 256
          csi[k][r][c] = ⟨i2f (signed (bits (cur / 8))), i2f (signed (bits (cur / 8 + 1)))⟩
        else csi[k][r][c] = s.csi[k][r][c]

/-- 41_bit_extractor.md R106, R107 and their order (60_exceptions.md R193): CSIX with a count out of range raises `MalformedHeader`,
else with too short a payload `TruncatedCsiData`, and writes nothing. -/
def Obligations.CsixChecksCountsThenLength : Prop :=
  ∀ s : State, s.run = .ready →
    let ok := fun n : Byte => n.toNat = 1 ∨ n.toNat = 2 ∨ n.toNat = 3
    (¬ (ok s.nrx ∧ ok s.ntx) → exec .csix s = .next (s.raise .malformedHeader 0x2000#16)) ∧
    (ok s.nrx → ok s.ntx → s.bufLen < s.payBase + 60 * s.nrx.toNat * s.ntx.toNat + 12 →
      exec .csix s = .next (s.raise .truncatedCsiData 0x2000#16))

/-- 41_bit_extractor.md R103: `Window8(k, p)` is `((BUF[PAYBASE + k] >> p) | (BUF[PAYBASE + k + 1] << (8 - p))) & 0xFF`, and its bit `n` is
bit `(p + n) mod 8` of byte `k` when `p + n < 8` and of byte `k + 1` otherwise. -/
def Obligations.WindowTakesEightBitsAtOffset : Prop :=
  ∀ (s : State) (lo hi : Byte) (k p : Nat), p < 8 → s.memRead (s.payBase + k) = some lo → s.memRead (s.payBase + k + 1) = some hi →
    ∃ v : Byte, window8 s.buf s.payBase k p = some v ∧
      v.toNat = (((lo.toNat >>> p) ||| (hi.toNat <<< (8 - p))) &&& 0xFF) ∧
      ∀ n, n < 8 → v.getLsbD n = if p + n < 8 then lo.getLsbD ((p + n) % 8) else hi.getLsbD ((p + n) % 8)

/-- 41_bit_extractor.md R104: every component is a finite `F` whose value is exactly the signed byte, an integer in -128 .. 127. -/
def Obligations.ComponentsAreExact : Prop :=
  ∀ b : Byte, fIsFinite (component b) = true ∧ fVal (component b) = b.toInt * fUnit ∧ -128 ≤ b.toInt ∧ b.toInt ≤ 127

/-! ### The number type -/

/-- 00_scope.md R18: the properties P1 to P5, of the model's `NUM`. P5 is said of operands that are no NaN (an operation with a NaN
operand returns a NaN that is not specified, R13). -/
def Obligations.NumHasPropertiesP1ToP5 : Prop :=
  (atan2 0#64 0#64 = 0#64 ∧ ∀ x, flt 0#64 x = true → atan2 0#64 x = 0#64) ∧
  acos fOne = 0#64 ∧
  (cos 0#64 = fOne ∧ sin 0#64 = 0#64) ∧
  ((∀ y x, fIsFinite y = true → fIsFinite x = true → ¬ (fIsZero y = true ∧ fIsZero x = true) →
      fle fNegPi (atan2 y x) = true ∧ fle (atan2 y x) fPi = true) ∧
    ∀ x, fle fNegOne x = true → fle x fOne = true → fle 0#64 (acos x) = true ∧ fle (acos x) fPi = true) ∧
  (∀ x, fIsNaN x = false → fmul x fOne = x) ∧
  (∀ x z, fIsFinite x = true → fIsZero z = true → fIsZero (fmul x z) = true) ∧
  (∀ x z, fIsNaN x = false → fIsZero x = false → fIsZero z = true → fadd x z = x) ∧
  (∀ x, fIsFinite x = true → fIsZero x = false → fdiv x x = fOne) ∧
  fsqrt fOne = fOne

/-- 00_scope.md R13 (binary64 is the spec's default for `NUM` and the model's choice, log 2): the sum, difference, product and quotient
of finite operands, where finite, are nearest: no finite `z` is nearer the exact result. Magnitudes are integers in units of 2^-1074.
The fifth operation, the square root, is in `SquareRootRoundsToNearest`. -/
def Obligations.BasicOperationsRoundToNearest : Prop :=
  ∀ x y z : F, fIsFinite x = true → fIsFinite y = true → fIsFinite z = true →
    (fIsFinite (fadd x y) = true → |fVal (fadd x y) - (fVal x + fVal y)| ≤ |fVal z - (fVal x + fVal y)|) ∧
    (fIsFinite (fsub x y) = true → |fVal (fsub x y) - (fVal x - fVal y)| ≤ |fVal z - (fVal x - fVal y)|) ∧
    (fIsFinite (fmul x y) = true →
      |fVal (fmul x y) * fUnit - fVal x * fVal y| ≤ |fVal z * fUnit - fVal x * fVal y|) ∧
    (fIsZero y = false → fIsFinite (fdiv x y) = true →
      |fVal (fdiv x y) * fVal y - fVal x * fUnit| ≤ |fVal z * fVal y - fVal x * fUnit|)

/-- 00_scope.md R13 (log 2), ties to even: where another finite value `z` is exactly as near the exact result as the finite value
returned, the lowest bit of the one returned is 0. A square root never lies in the middle of two values. -/
def Obligations.TiesGoToEven : Prop :=
  ∀ x y z : F, fIsFinite x = true → fIsFinite y = true → fIsFinite z = true →
    (fIsFinite (fadd x y) = true → fVal z ≠ fVal (fadd x y) →
      |fVal z - (fVal x + fVal y)| = |fVal (fadd x y) - (fVal x + fVal y)| → (fadd x y).getLsbD 0 = false) ∧
    (fIsFinite (fsub x y) = true → fVal z ≠ fVal (fsub x y) →
      |fVal z - (fVal x - fVal y)| = |fVal (fsub x y) - (fVal x - fVal y)| → (fsub x y).getLsbD 0 = false) ∧
    (fIsFinite (fmul x y) = true → fVal z ≠ fVal (fmul x y) →
      |fVal z * fUnit - fVal x * fVal y| = |fVal (fmul x y) * fUnit - fVal x * fVal y| → (fmul x y).getLsbD 0 = false) ∧
    (fIsZero y = false → fIsFinite (fdiv x y) = true → fVal z ≠ fVal (fdiv x y) →
      |fVal z * fVal y - fVal x * fUnit| = |fVal (fdiv x y) * fVal y - fVal x * fUnit| → (fdiv x y).getLsbD 0 = false)

/-- 00_scope.md R13 (log 2), overflow gives an infinity: from half a unit in the last place above the largest finite value on, the
result is the infinity with the sign of the exact result, and below that it is finite. Magnitudes are in units of 2^-1074. -/
def Obligations.OverflowGivesInfinity : Prop :=
  ∀ (x y : F) (limit : Nat), fIsFinite x = true → fIsFinite y = true → limit = (2 ^ 54 - 1) * 2 ^ 2044 →
    let infinity := fun negative : Bool => if negative then 0xFFF0000000000000#64 else 0x7FF0000000000000#64
    let sum := fVal x + fVal y
    let difference := fVal x - fVal y
    ((limit ≤ sum.natAbs → fadd x y = infinity (decide (sum < 0))) ∧ (sum.natAbs < limit → fIsFinite (fadd x y) = true)) ∧
    ((limit ≤ difference.natAbs → fsub x y = infinity (decide (difference < 0))) ∧
      (difference.natAbs < limit → fIsFinite (fsub x y) = true)) ∧
    ((limit * fUnit ≤ fMag x * fMag y → fmul x y = infinity (fSign x != fSign y)) ∧
      (fMag x * fMag y < limit * fUnit → fIsFinite (fmul x y) = true)) ∧
    (fIsZero y = false →
      (limit * fMag y ≤ fMag x * fUnit → fdiv x y = infinity (fSign x != fSign y)) ∧
      (fMag x * fUnit < limit * fMag y → fIsFinite (fdiv x y) = true))

/-- 00_scope.md R13 (log 2, log 4): a NaN comes from a NaN operand and from the invalid operations, and from nothing else, silently;
a finite value that is no zero over a zero is an infinity. -/
def Obligations.NaNExactlyWhereInvalid : Prop :=
  ∀ x y : F,
    (fIsNaN (fadd x y) = true ↔
      fIsNaN x = true ∨ fIsNaN y = true ∨ (fIsInf x = true ∧ fIsInf y = true ∧ fSign x ≠ fSign y)) ∧
    (fIsNaN (fsub x y) = true ↔
      fIsNaN x = true ∨ fIsNaN y = true ∨ (fIsInf x = true ∧ fIsInf y = true ∧ fSign x = fSign y)) ∧
    (fIsNaN (fmul x y) = true ↔
      fIsNaN x = true ∨ fIsNaN y = true ∨ (fIsInf x = true ∧ fIsZero y = true) ∨ (fIsZero x = true ∧ fIsInf y = true)) ∧
    (fIsNaN (fdiv x y) = true ↔
      fIsNaN x = true ∨ fIsNaN y = true ∨ (fIsZero x = true ∧ fIsZero y = true) ∨ (fIsInf x = true ∧ fIsInf y = true)) ∧
    (fIsNaN (fsqrt x) = true ↔ fIsNaN x = true ∨ (fSign x = true ∧ fIsZero x = false)) ∧
    (fIsFinite x = true → fIsZero x = false → fIsZero y = true → fIsInf (fdiv x y) = true ∧ fSign (fdiv x y) = (fSign x != fSign y))

/-- 00_scope.md R13, R17 (`fsqrt`; binary64 is log 2): the square root of a positive finite operand is positive and finite, and no
finite `z` is nearer the exact root: the exact root is on its side of the middle between it and `z`. Magnitudes are in units of
2^-1074. -/
def Obligations.SquareRootRoundsToNearest : Prop :=
  ∀ x z : F, fIsFinite x = true → fIsZero x = false → fSign x = false → fIsFinite z = true → fSign z = false →
    let r := fMag (fsqrt x)
    let exact := fMag x * fUnit
    fIsFinite (fsqrt x) = true ∧ fSign (fsqrt x) = false ∧
    (r < fMag z → 4 * exact ≤ (r + fMag z) * (r + fMag z)) ∧ (fMag z < r → (r + fMag z) * (r + fMag z) ≤ 4 * exact)

/-- 00_scope.md R17 (`CEIL`): the least integer not below a finite operand; nothing else has one. -/
def Obligations.CeilIsLeastIntegerNotBelow : Prop :=
  ∀ x : F,
    (fIsFinite x = true → ∃ n : Int, ceil? x = some n ∧ fVal x ≤ n * fUnit ∧ (n - 1) * fUnit < fVal x) ∧
    (fIsFinite x = false → ceil? x = none)

/-- 42_givens_decomposer.md R131: a phase below zero is shifted by `2 PI`; any other, a negative zero and a NaN among them, is stored
as it is; a phase of exactly `-PI` becomes `PI`. -/
def Obligations.NegativePhasesAreShifted : Prop :=
  ∀ x : F, (flt x 0#64 = true → norm2pi x = fadd x (fmul fTwo fPi)) ∧ (flt x 0#64 = false → norm2pi x = x) ∧
    (fIsZero x = true ∨ fIsNaN x = true → norm2pi x = x) ∧ norm2pi fNegPi = fPi

/-! ### DECOMP -/

/-- 42_givens_decomposer.md R120 to R132: with `NRX = NTX = 3`, DECOMP completes; where no `CalcPsi` has two zero arguments the six angles
are those of the six steps, the tags are the fixed pattern, and nothing else changes. That the steps are evaluated also where the norm
of arguments that are not both zero underflows to zero is the model's choice (log 23). -/
def Obligations.DecompComputesSixAngles : Prop :=
  ∀ (sc : BitVec 5) (s : State) (hs : sc.toNat < 30), s.run = .ready → s.nrx = 3#8 → s.ntx = 3#8 →
    let v := fun r c : Fin 3 => s.csi[sc.toNat][r][c]
    let psi := fun x1 x2 : F => acos (fdiv x1 (fsqrt (fadd (fmul x1 x1) (fmul x2 x2))))
    let defined := fun x1 x2 : F => ¬ (fIsZero x1 = true ∧ fIsZero x2 = true)
    let v1 := fun r c : Fin 3 => cmul (v r c) (cisn (carg (v 2 c)))
    let phi11 := norm2pi (carg (v1 0 0))
    let phi21 := norm2pi (carg (v1 1 0))
    let v2 := fun r c : Fin 3 =>
      if r = 0 then cmul (cisn phi11) (v1 0 c) else if r = 1 then cmul (cisn phi21) (v1 1 c) else v1 2 c
    let psi21 := psi (v2 0 0).re (v2 1 0).re
    let v3 := fun r c : Fin 3 =>
      if r = 0 then cadd (smul (cos psi21) (v2 0 c)) (smul (sin psi21) (v2 1 c))
      else if r = 1 then cadd (smul (fneg (sin psi21)) (v2 0 c)) (smul (cos psi21) (v2 1 c)) else v2 2 c
    let psi31 := psi (v3 0 0).re (v3 2 0).re
    let v4 := fun r c : Fin 3 =>
      if r = 0 then cadd (smul (cos psi31) (v3 0 c)) (smul (sin psi31) (v3 2 c))
      else if r = 1 then v3 1 c else cadd (smul (fneg (sin psi31)) (v3 0 c)) (smul (cos psi31) (v3 2 c))
    let phi22 := norm2pi (carg (v4 1 1))
    let v5 := fun r c : Fin 3 => if r = 1 then cmul (cisn phi22) (v4 1 c) else v4 r c
    let psi32 := psi (v5 1 1).re (v5 2 1).re
    defined (v2 0 0).re (v2 1 0).re → defined (v3 0 0).re (v3 2 0).re → defined (v5 1 1).re (v5 2 1).re →
    exec (.decomp sc) s = .next
      { s with
        ang := s.ang.set sc.toNat #v[phi11, phi21, psi21, psi31, phi22, psi32]
        tag := s.tag.set sc.toNat #v[1#2, 1#2, 2#2, 2#2, 1#2, 2#2] }

/-- 42_givens_decomposer.md R135: DECOMP completes for every 3 x 3 matrix, also where a `CalcPsi` has two zero arguments: only that psi
and the angles computed after it are unspecified. `phi11` and `phi21` are always those of the six steps, and each further angle is
where the `CalcPsi` up to it have arguments that are not both zero; the tags are the fixed pattern; nothing else of the spec's state
changes. The unspecified angles are draws, which the subcarrier's counter counts (log 7, log 9); a norm that underflows to zero is
log 23. -/
def Obligations.DecompCompletesOnEveryMatrix : Prop :=
  ∀ (sc : BitVec 5) (s : State) (hs : sc.toNat < 30), s.run = .ready → s.nrx = 3#8 → s.ntx = 3#8 →
    let v := fun r c : Fin 3 => s.csi[sc.toNat][r][c]
    let psi := fun x1 x2 : F => acos (fdiv x1 (fsqrt (fadd (fmul x1 x1) (fmul x2 x2))))
    let defined := fun x1 x2 : F => ¬ (fIsZero x1 = true ∧ fIsZero x2 = true)
    let v1 := fun r c : Fin 3 => cmul (v r c) (cisn (carg (v 2 c)))
    let phi11 := norm2pi (carg (v1 0 0))
    let phi21 := norm2pi (carg (v1 1 0))
    let v2 := fun r c : Fin 3 =>
      if r = 0 then cmul (cisn phi11) (v1 0 c) else if r = 1 then cmul (cisn phi21) (v1 1 c) else v1 2 c
    let psi21 := psi (v2 0 0).re (v2 1 0).re
    let v3 := fun r c : Fin 3 =>
      if r = 0 then cadd (smul (cos psi21) (v2 0 c)) (smul (sin psi21) (v2 1 c))
      else if r = 1 then cadd (smul (fneg (sin psi21)) (v2 0 c)) (smul (cos psi21) (v2 1 c)) else v2 2 c
    let psi31 := psi (v3 0 0).re (v3 2 0).re
    let v4 := fun r c : Fin 3 =>
      if r = 0 then cadd (smul (cos psi31) (v3 0 c)) (smul (sin psi31) (v3 2 c))
      else if r = 1 then v3 1 c else cadd (smul (fneg (sin psi31)) (v3 0 c)) (smul (cos psi31) (v3 2 c))
    let phi22 := norm2pi (carg (v4 1 1))
    let v5 := fun r c : Fin 3 => if r = 1 then cmul (cisn phi22) (v4 1 c) else v4 r c
    let psi32 := psi (v5 1 1).re (v5 2 1).re
    ∃ (a : Vector F 6) (n : Nat),
      exec (.decomp sc) s = .next
        { s with
          ang := s.ang.set sc.toNat a
          tag := s.tag.set sc.toNat #v[1#2, 1#2, 2#2, 2#2, 1#2, 2#2]
          draws := s.draws.set sc.toNat n } ∧
      a[0] = phi11 ∧ a[1] = phi21 ∧
      (defined (v2 0 0).re (v2 1 0).re → a[2] = psi21 ∧
        (defined (v3 0 0).re (v3 2 0).re → a[3] = psi31 ∧ a[4] = phi22 ∧
          (defined (v5 1 1).re (v5 2 1).re → a[5] = psi32 ∧ n = s.draws[sc.toNat])))

/-- 42_givens_decomposer.md R121: DECOMP on a tensor that is not 3 x 3 raises `UnsupportedDimension` and produces no angle. -/
def Obligations.DecompRejectsOtherDimensions : Prop :=
  ∀ (sc : BitVec 5) (s : State), s.run = .ready → legalSubcarrier sc = true → ¬ (s.nrx.toNat = 3 ∧ s.ntx.toNat = 3) →
    exec (.decomp sc) s = .next { s with run := .faulted, err := some .unsupportedDimension, errinfo := encode (.decomp sc) }

/-- 42_givens_decomposer.md R134: the identity matrix gives six angles equal to `+0`. -/
def Obligations.DecompOfIdentityIsZero : Prop :=
  ∀ (sc : BitVec 5) (s : State) (hs : sc.toNat < 30), s.run = .ready → s.nrx = 3#8 → s.ntx = 3#8 →
    (∀ r c : Fin 3, s.csi[sc.toNat][r][c] = if r = c then ⟨fOne, 0#64⟩ else ⟨0#64, 0#64⟩) →
    ∃ t, exec (.decomp sc) s = .next t ∧ ∀ i : Fin 6, t.ang[sc.toNat][i] = 0#64

/-- 42_givens_decomposer.md R136: column 2 of the matrix influences no output: states that differ only there differ only there
after. Of the angles R135 leaves unspecified this is the model's choice: a draw depends on the subcarrier and the count of draws alone
(log 7, log 9). -/
def Obligations.DecompIgnoresColumnTwo : Prop :=
  ∀ (sc : BitVec 5) (s : State) (hs : sc.toNat < 30) (m : CMatrix),
    (∀ (r c : Fin 3), c ≠ 2 → m[r][c] = s.csi[sc.toNat][r][c]) →
    ∀ t, exec (.decomp sc) s = .next t →
      exec (.decomp sc) { s with csi := s.csi.set sc.toNat m } = .next { t with csi := s.csi.set sc.toNat m }

/-! ### QUANT and DEQUANT -/

/-- 43_angle_quantizer.md R150, R153 to R158: on an angle that is no NaN, QUANT completes and writes the code and its reconstruction:
0 at or below the minimum threshold, `KMax` at or above the maximum, else the ceiling of the affine transform (at least 0: log 14). -/
def Obligations.QuantWritesCodeAndReconstruction : Prop :=
  ∀ (sc : BitVec 5) (i : BitVec 3) (bw : BitVec 4) (s : State) (hs : sc.toNat < 30) (hi : i.toNat < 6) (t : Tag),
    s.run = .ready → 1 ≤ bw.toNat → bw.toNat ≤ 4 → s.tag[sc.toNat][i.toNat] = t.bits → fIsNaN s.ang[sc.toNat][i.toNat] = false →
    let b := bw.toNat
    let x := s.ang[sc.toNat][i.toNat]
    let rebuilt := fun k : Nat => fadd (fdiv (fmul (i2f k) fPi) (i2f (2 ^ (b + 1) : Nat))) (fdiv fPi (i2f (2 ^ (b + 2) : Nat)))
    let top : Nat := match t with
      | .psi => 2 ^ (b - 1)
      | .phi => 2 ^ (b + 2) - 1
    let written := fun k : Nat => Host.Outcome.next (φ := Fault) (ρ := Refusal)
      { s with
        code := s.code.set sc.toNat (s.code[sc.toNat].set i.toNat (BitVec.ofNat 6 k))
        recon := s.recon.set sc.toNat (s.recon[sc.toNat].set i.toNat (rebuilt k)) }
    if fle x (fdiv fPi (i2f (b ^ 2 ^ (b + 2) : Nat))) = true then exec (.quant sc i bw) s = written 0
    else if fle (rebuilt top) x = true then exec (.quant sc i bw) s = written top
    else ∃ z : Int, ceil? (fsub (fdiv (fmul x (i2f (2 ^ (b + 1) : Nat))) fPi) fOne) = some z ∧
      exec (.quant sc i bw) s = written z.toNat

/-- 43_angle_quantizer.md R159 (g): the code of every angle that is no NaN is in 0 .. `KMax` of its tag and bit width. That a ceiling of
-1, which binary64 can give (log 2), is code 0 is the model's reading (log 14). -/
def Obligations.CodesNeverExceedKMax : Prop :=
  ∀ (x : F) (bw : Nat), fIsNaN x = false → 1 ≤ bw → bw ≤ 4 →
    (∃ k, quantize? x .psi bw = some k ∧ k ≤ 2 ^ (bw - 1)) ∧ ∃ k, quantize? x .phi bw = some k ∧ k ≤ 2 ^ (bw + 2) - 1

/-- 43_angle_quantizer.md R159 (a) to (e), with R156: zeros, negative angles, the minimum threshold and minus infinity have code 0; plus
infinity and the maximum threshold have code `KMax`, but for tag PSI at bit width 1, where the minimum threshold decides first. -/
def Obligations.QuantCornerCases : Prop :=
  ∀ (t : Tag) (bw : Nat), 1 ≤ bw → bw ≤ 4 →
    let top : Nat := match t with
      | .psi => 2 ^ (bw - 1)
      | .phi => 2 ^ (bw + 2) - 1
    (∀ x : F, fIsZero x = true → quantize? x t bw = some 0) ∧
    (∀ x : F, fIsNaN x = false → fSign x = true → quantize? x t bw = some 0) ∧
    quantize? (thrMin bw) t bw = some 0 ∧
    (¬ (t = .psi ∧ bw = 1) → quantize? (thrMax t bw) t bw = some top) ∧
    quantize? 0x7FF0000000000000#64 t bw = some top ∧ quantize? 0xFFF0000000000000#64 t bw = some 0

/-- 43_angle_quantizer.md R159 (g): what QUANT reconstructs is never below the reconstruction of code 0 nor above that of `KMax`. -/
def Obligations.ReconstructionStaysWithinBounds : Prop :=
  ∀ (x : F) (t : Tag) (bw k : Nat), 1 ≤ bw → bw ≤ 4 → fIsNaN x = false → quantize? x t bw = some k →
    fle (inv 0 bw) (inv k bw) = true ∧ fle (inv k bw) (inv (kMax t bw) bw) = true

/-- 43_angle_quantizer.md R159 (f): QUANT of a NaN completes; the code and the reconstruction may be any values, nothing else of the
spec's state changes, and the subcarrier's draw counter advances. -/
def Obligations.QuantOfNaNCompletes : Prop :=
  ∀ (sc : BitVec 5) (i : BitVec 3) (bw : BitVec 4) (s : State) (hs : sc.toNat < 30) (hi : i.toNat < 6) (t : Tag),
    s.run = .ready → 1 ≤ bw.toNat → bw.toNat ≤ 4 → s.tag[sc.toNat][i.toNat] = t.bits → fIsNaN s.ang[sc.toNat][i.toNat] = true →
    ∃ (k : BitVec 6) (x : F), exec (.quant sc i bw) s = .next
      { s with
        code := s.code.set sc.toNat (s.code[sc.toNat].set i.toNat k)
        recon := s.recon.set sc.toNat (s.recon[sc.toNat].set i.toNat x)
        draws := s.draws.set sc.toNat (s.draws[sc.toNat] + 1) }

/-- 43_angle_quantizer.md R151, R152 and their order (60_exceptions.md R193), for QUANT and DEQUANT. -/
def Obligations.QuantChecksWidthThenTag : Prop :=
  ∀ (sc : BitVec 5) (i : BitVec 3) (bw : BitVec 4) (s : State) (hs : sc.toNat < 30) (hi : i.toNat < 6), s.run = .ready →
    ∀ j : Instr, (j = .quant sc i bw ∨ j = .dequant sc i bw) →
      (bw.toNat < 1 ∨ 4 < bw.toNat → exec j s = .next (s.raise .invalidBitWidth (encode j))) ∧
      (1 ≤ bw.toNat → bw.toNat ≤ 4 → (s.tag[sc.toNat][i.toNat] = 0#2 ∨ s.tag[sc.toNat][i.toNat] = 3#2) →
        exec j s = .next (s.raise .invalidAngleTag (encode j)))

/-- 43_angle_quantizer.md R154, R155: the thresholds, as the tables give their binary64 values. -/
def Obligations.ThresholdTables : Prop :=
  thrMin 1 = 0x400921FB54442D18#64 ∧ thrMin 2 = 0x3F0921FB54442D18#64 ∧ thrMin 3 = 0x3CDE8A9BB592302F#64 ∧
  thrMin 4 = 0x380921FB54442D18#64 ∧
  thrMax .psi 1 = 0x3FF2D97C7F3321D2#64 ∧ thrMax .psi 2 = 0x3FEF6A7A2955385E#64 ∧ thrMax .psi 3 = 0x3FEC463ABECCB2BB#64 ∧
  thrMax .psi 4 = 0x3FEAB41B09886FEA#64 ∧
  thrMax .phi 1 = 0x40178FDB9EFFEA46#64 ∧ thrMax .phi 2 = 0x401858EB79A20BAF#64 ∧ thrMax .phi 3 = 0x4018BD7366F31C63#64 ∧
  thrMax .phi 4 = 0x4018EFB75D9BA4BE#64

/-- 43_angle_quantizer.md R156: at bit width 1 and tag PSI the thresholds cross: every angle up to `PI` gives 0 and every angle above gives 1. -/
def Obligations.WidthOnePsiHasTwoCodes : Prop :=
  ∀ x : F, fIsNaN x = false →
    (fle x fPi = true → quantize? x .psi 1 = some 0) ∧ (fle x fPi = false → quantize? x .psi 1 = some 1)

/-- 43_angle_quantizer.md R160: DEQUANT completes on every code, also one above `KMax`, and writes `REC[s][i]` alone. -/
def Obligations.DequantReconstructsAnyCode : Prop :=
  ∀ (sc : BitVec 5) (i : BitVec 3) (bw : BitVec 4) (s : State) (hs : sc.toNat < 30) (hi : i.toNat < 6) (t : Tag),
    s.run = .ready → 1 ≤ bw.toNat → bw.toNat ≤ 4 → s.tag[sc.toNat][i.toNat] = t.bits →
    let k := (s.code[sc.toNat][i.toNat]).toNat
    exec (.dequant sc i bw) s = .next
      { s with
        recon := s.recon.set sc.toNat (s.recon[sc.toNat].set i.toNat
          (fadd (fdiv (fmul (i2f k) fPi) (i2f (2 ^ (bw.toNat + 1) : Nat))) (fdiv fPi (i2f (2 ^ (bw.toNat + 2) : Nat))))) }

/-- 43_angle_quantizer.md R158: the reconstruction is a function of the code and the bit width, so DEQUANT after QUANT with the same
operands, on an angle that is no NaN, changes nothing. -/
def Obligations.DequantAfterQuantChangesNothing : Prop :=
  ∀ (sc : BitVec 5) (i : BitVec 3) (bw : BitVec 4) (s t : State) (hs : sc.toNat < 30) (hi : i.toNat < 6),
    fIsNaN s.ang[sc.toNat][i.toNat] = false → exec (.quant sc i bw) s = .next t → t.run = .ready →
    exec (.dequant sc i bw) t = .next t

/-! ### PACK and UNPACK -/

/-- 44_bit_codec.md R171 to R173, R175: with a legal bit width and six tags PACK completes: the integer is exactly the sum of each code
at the offset of its slot, whatever the codes, and the widths list is in the reverse of slot order; nothing else changes. -/
def Obligations.PackJoinsCodes : Prop :=
  ∀ (sc : BitVec 5) (bw : BitVec 4) (s : State) (hs : sc.toNat < 30) (tags : Fin 6 → Tag),
    s.run = .ready → 1 ≤ bw.toNat → bw.toNat ≤ 4 → (∀ i : Fin 6, s.tag[sc.toNat][i] = (tags i).bits) →
    let wd := fun i : Fin 6 => match tags i with
      | .psi => bw.toNat
      | .phi => bw.toNat + 2
    let c := fun i : Fin 6 => (s.code[sc.toNat][i]).toNat
    ∃ n : BitVec 36,
      n.toNat = c 0 + c 1 * 2 ^ wd 0 + c 2 * 2 ^ (wd 0 + wd 1) + c 3 * 2 ^ (wd 0 + wd 1 + wd 2) +
        c 4 * 2 ^ (wd 0 + wd 1 + wd 2 + wd 3) + c 5 * 2 ^ (wd 0 + wd 1 + wd 2 + wd 3 + wd 4) ∧
      exec (.pack sc bw) s = .next
        { s with
          pkw := s.pkw.set sc.toNat #v[BitVec.ofNat 3 (wd 5), BitVec.ofNat 3 (wd 4), BitVec.ofNat 3 (wd 3),
            BitVec.ofNat 3 (wd 2), BitVec.ofNat 3 (wd 1), BitVec.ofNat 3 (wd 0)]
          pki := s.pki.set sc.toNat n }

/-- 44_bit_codec.md R174: PACK checks the bit width, then the six tags. -/
def Obligations.PackChecksWidthThenTags : Prop :=
  ∀ (sc : BitVec 5) (bw : BitVec 4) (s : State) (hs : sc.toNat < 30), s.run = .ready →
    (bw.toNat < 1 ∨ 4 < bw.toNat → exec (.pack sc bw) s = .next (s.raise .invalidBitWidth (encode (.pack sc bw)))) ∧
    (1 ≤ bw.toNat → bw.toNat ≤ 4 → (∃ i : Fin 6, s.tag[sc.toNat][i] = 0#2 ∨ s.tag[sc.toNat][i] = 3#2) →
      exec (.pack sc bw) s = .next (s.raise .invalidAngleTag (encode (.pack sc bw))))

/-- 44_bit_codec.md R180 to R182, R184: UNPACK completes on every content of `PKW` and `PKI`: slot `i` gets the bits of the integer above
the widths of the lower slots, as many as its own width, of which the cell keeps six; nothing else changes. -/
def Obligations.UnpackSplitsInteger : Prop :=
  ∀ (sc : BitVec 5) (s : State) (hs : sc.toNat < 30), s.run = .ready →
    let wv := fun i : Fin 6 => (s.pkw[sc.toNat][i.rev]).toNat
    let field := fun (off : Nat) (i : Fin 6) => BitVec.ofNat 6 ((s.pki[sc.toNat]).toNat / 2 ^ off % 2 ^ wv i)
    exec (.unpack sc) s = .next
      { s with
        code := s.code.set sc.toNat
          #v[field 0 0, field (wv 0) 1, field (wv 0 + wv 1) 2, field (wv 0 + wv 1 + wv 2) 3,
            field (wv 0 + wv 1 + wv 2 + wv 3) 4, field (wv 0 + wv 1 + wv 2 + wv 3 + wv 4) 5] }

/-- 44_bit_codec.md R183: PACK and UNPACK are mutual inverses given the same widths list, in both directions, and neither faults. In
between, anything may change but what the second command reads: after PACK, `PKW[s]` and `PKI[s]`, so that UNPACK recovers the codes
whatever `CODE` holds by then; after UNPACK, `CODE[s]` and `TAG[s]`. -/
def Obligations.PackAndUnpackAreInverse : Prop :=
  ∀ (sc : BitVec 5) (bw : BitVec 4) (s : State) (hs : sc.toNat < 30) (tags : Fin 6 → Tag),
    s.run = .ready → 1 ≤ bw.toNat → bw.toNat ≤ 4 → (∀ i : Fin 6, s.tag[sc.toNat][i] = (tags i).bits) →
    let wd := fun i : Fin 6 => match tags i with
      | .psi => bw.toNat
      | .phi => bw.toNat + 2
    ((∀ i : Fin 6, (s.code[sc.toNat][i]).toNat < 2 ^ wd i) →
      ∃ t, exec (.pack sc bw) s = .next t ∧ t.run = .ready ∧
        ∀ t' : State, t'.run = .ready → t'.pkw[sc.toNat] = t.pkw[sc.toNat] → t'.pki[sc.toNat] = t.pki[sc.toNat] →
          ∃ u, exec (.unpack sc) t' = .next u ∧ u.run = .ready ∧ u.code[sc.toNat] = s.code[sc.toNat]) ∧
    ((∀ j : Fin 6, (s.pkw[sc.toNat][j]).toNat = wd j.rev) →
      (s.pki[sc.toNat]).toNat < 2 ^ (wd 0 + wd 1 + wd 2 + wd 3 + wd 4 + wd 5) →
      ∃ t, exec (.unpack sc) s = .next t ∧ t.run = .ready ∧ t.tag[sc.toNat] = s.tag[sc.toNat] ∧
        ∀ t' : State, t'.run = .ready → t'.code[sc.toNat] = t.code[sc.toNat] → t'.tag[sc.toNat] = s.tag[sc.toNat] →
          ∃ u, exec (.pack sc bw) t' = .next u ∧ u.run = .ready ∧
            u.pki[sc.toNat] = s.pki[sc.toNat] ∧ u.pkw[sc.toNat] = s.pkw[sc.toNat])

/-! ### The host -/

/-- 10_state.md R41, 70_reset_and_hazards.md R222: a READY block stores what the host writes to a register it may write, in the
register's width, and every other register reads as before. A write is a bit pattern (log 16). -/
def Obligations.HostWriteIsReadBack : Prop :=
  ∀ (r : Reg) (v : Nat) (s : State), s.run = .ready → r.hostWritable = true → v < 2 ^ r.width →
    (∀ a, r = .buf a → a < Config.bufCap) → (r = .bufLen → v ≤ Config.bufCap) →
    ∃ t, perform (.write r v) s = .next t ∧ t.hostRead r = some v ∧ ∀ r' : Reg, r' ≠ r → t.hostRead r' = s.hostRead r'

/-- 10_state.md R25: a host write of a `BUF_LEN` above `BUF_CAP` changes nothing. -/
def Obligations.TooLargeBufLenIsRefused : Prop :=
  ∀ (v : Nat) (s : State), Config.bufCap < v → perform (.write .bufLen v) s = .next s

/-- 10_state.md R41, 60_exceptions.md R196: a host read of a cell the block has changes nothing, in any state. -/
def Obligations.HostReadChangesNothing : Prop :=
  ∀ (s : State) (r : Reg) (rest : List HostAction), r.outsideBuf = false → s.host = .read r :: rest → step s = .next { s with host := rest }
end

