-- ==== Sys2Proof/Laws/Ops.lean ====
section
/-! SUPPORT. What each shared operation can do, said once: the frame of a command, the operand forms, fault entry. -/

namespace Sys2Proof.Machine

/-! ### The frame of a command -/

@[simp] theorem issueEffect_faulted {s : State} (h : s.run = .faulted) (w : CmdWord) (e : Effect) :
    issueEffect w s e = .next s := by simp [issueEffect, h]

@[simp] theorem issueEffect_done {s : State} (h : s.run = .ready) (w : CmdWord) (t : State) :
    issueEffect w s (.done t) = .next t := by simp [issueEffect, h]

@[simp] theorem issueEffect_raise {s : State} (h : s.run = .ready) (w : CmdWord) (k : ErrKind) :
    issueEffect w s (.raise k) = .next (s.raise k w) := by simp [issueEffect, h]

@[simp] theorem issueEffect_unwritten {s : State} (h : s.run = .ready) (w : CmdWord) :
    issueEffect w s .unwritten = .refused .unwrittenBuffer := by simp [issueEffect, h]

/-- If a command answers a next state, then the block was FAULTED and nothing happened, or the body made its writes, or the body
raised an error on the state it began in. -/
theorem issueEffect_next {w : CmdWord} {s t : State} {e : Effect} (h : issueEffect w s e = .next t) :
    (s.run = .faulted ∧ t = s) ∨ (s.run = .ready ∧ e = .done t) ∨ (s.run = .ready ∧ ∃ k, e = .raise k ∧ t = s.raise k w) := by
  unfold issueEffect at h
  cases hr : s.run <;> rw [hr] at h
  · cases e <;> simp at h
    · exact Or.inr (Or.inl ⟨rfl, by rw [h]⟩)
    · exact Or.inr (Or.inr ⟨rfl, _, rfl, h.symm⟩)
  · simp at h
    exact Or.inl ⟨rfl, h.symm⟩

/-! ### Operand forms -/

theorem subcarrier?_of_lt {s : BitVec 5} (h : s.toNat < 30) : subcarrier? s = some ⟨s.toNat, h⟩ := by simp [subcarrier?, h]

theorem subcarrier?_eq_some {s : BitVec 5} {k : Fin 30} : subcarrier? s = some k ↔ s.toNat = k.val := by
  unfold subcarrier?
  split
  · simp [Fin.ext_iff]
  · next h =>
    simp
    have := k.isLt
    omega

theorem legalSubcarrier_iff {s : BitVec 5} : legalSubcarrier s = true ↔ s.toNat < 30 := by
  unfold legalSubcarrier
  rw [decide_eq_true_iff]
  omega

theorem legalSlot_iff {i : BitVec 3} : legalSlot i = true ↔ i.toNat < 6 := by
  unfold legalSlot
  rw [decide_eq_true_iff]
  omega

theorem slot?_of_lt {i : BitVec 3} (h : i.toNat < 6) : slot? i = some ⟨i.toNat, h⟩ := by simp [slot?, h]

@[simp] theorem withSubcarrier_of_lt {s : BitVec 5} (h : s.toNat < 30) (f : Fin 30 → Effect) :
    withSubcarrier s f = f ⟨s.toNat, h⟩ := by simp [withSubcarrier, subcarrier?_of_lt h]

@[simp] theorem withCell_of_lt {s : BitVec 5} {i : BitVec 3} (h : s.toNat < 30) (hi : i.toNat < 6) (f : Fin 30 → Fin 6 → Effect) :
    withCell s i f = f ⟨s.toNat, h⟩ ⟨i.toNat, hi⟩ := by simp [withCell, h, slot?_of_lt hi]

/-- A body that needs a subcarrier has one, or raises `IllegalCommand`. -/
theorem withSubcarrier_cases (s : BitVec 5) (f : Fin 30 → Effect) :
    (∃ k : Fin 30, s.toNat = k.val ∧ withSubcarrier s f = f k) ∨ withSubcarrier s f = .raise .illegalCommand := by
  unfold withSubcarrier
  cases h : subcarrier? s with
  | none => exact Or.inr rfl
  | some k => exact Or.inl ⟨k, subcarrier?_eq_some.mp h, rfl⟩

/-- A body that needs a cell has one, or raises `IllegalCommand`. -/
theorem withCell_cases (s : BitVec 5) (i : BitVec 3) (f : Fin 30 → Fin 6 → Effect) :
    (∃ (k : Fin 30) (j : Fin 6), s.toNat = k.val ∧ withCell s i f = f k j) ∨ withCell s i f = .raise .illegalCommand := by
  unfold withCell
  rcases withSubcarrier_cases s _ with ⟨k, hk, h⟩ | h
  · rw [h]
    cases slot? i with
    | none => exact Or.inr rfl
    | some j => exact Or.inl ⟨k, j, hk, rfl⟩
  · exact Or.inr h

theorem bitWidth?_of_legal {bw : BitVec 4} (h1 : 1 ≤ bw.toNat) (h4 : bw.toNat ≤ 4) : bitWidth? bw = some bw.toNat := by
  simp [bitWidth?, h1, h4]

theorem bitWidth?_of_illegal {bw : BitVec 4} (h : bw.toNat < 1 ∨ 4 < bw.toNat) : bitWidth? bw = none := by
  unfold bitWidth?
  rw [if_neg (by omega)]

@[simp] theorem withBitWidth_of_legal {bw : BitVec 4} (h1 : 1 ≤ bw.toNat) (h4 : bw.toNat ≤ 4) (f : Nat → Effect) :
    withBitWidth bw f = f bw.toNat := by simp [withBitWidth, bitWidth?_of_legal h1 h4]

@[simp] theorem withBitWidth_of_illegal {bw : BitVec 4} (h : bw.toNat < 1 ∨ 4 < bw.toNat) (f : Nat → Effect) :
    withBitWidth bw f = .raise .invalidBitWidth := by simp [withBitWidth, bitWidth?_of_illegal h]

@[simp] theorem tagOf?_bits (t : Tag) : tagOf? t.bits = some t := by cases t <;> rfl

theorem tagOf?_eq_some {b : BitVec 2} {t : Tag} : tagOf? b = some t ↔ b = t.bits := by
  constructor
  · intro h
    unfold tagOf? at h
    split at h
    · next hb => cases h; exact hb
    · split at h
      · next hb => cases h; exact hb
      · cases h
  · rintro rfl
    exact tagOf?_bits t

theorem tagOf?_eq_none {b : BitVec 2} : tagOf? b = none ↔ b = 0#2 ∨ b = 3#2 := by revert b; decide

@[simp] theorem withTag_bits (t : Tag) (f : Tag → Effect) : withTag t.bits f = f t := by simp [withTag]

/-- Six cells that hold tags give the six tags. -/
theorem tagsOf?_of_bits {row : Vector (BitVec 2) 6} {tags : Fin 6 → Tag} (h : ∀ i : Fin 6, row[i] = (tags i).bits) :
    tagsOf? row = some #v[tags 0, tags 1, tags 2, tags 3, tags 4, tags 5] := by
  have h0 := h 0
  have h1 := h 1
  have h2 := h 2
  have h3 := h 3
  have h4 := h 4
  have h5 := h 5
  simp at h0 h1 h2 h3 h4 h5
  simp [tagsOf?, h0, h1, h2, h3, h4, h5]

/-- One cell without a tag is enough for there to be no six tags. -/
theorem tagsOf?_eq_none {row : Vector (BitVec 2) 6} (i : Fin 6) (h : tagOf? row[i] = none) : tagsOf? row = none := by
  unfold tagsOf?
  have hi : i = 0 ∨ i = 1 ∨ i = 2 ∨ i = 3 ∨ i = 4 ∨ i = 5 := by
    clear h
    revert i
    decide
  simp only [Option.bind_eq_bind, Option.bind_eq_none_iff]
  rcases hi with rfl | rfl | rfl | rfl | rfl | rfl <;> simp at h <;> simp [h]

theorem isCount_iff {n : Byte} : isCount n = true ↔ n.toNat = 1 ∨ n.toNat = 2 ∨ n.toNat = 3 := by
  unfold isCount
  simp only [Bool.or_eq_true, decide_eq_true_iff, or_assoc]
  constructor
  · rintro (rfl | rfl | rfl) <;> decide
  · rintro (h | h | h)
    · exact Or.inl (BitVec.eq_of_toNat_eq h)
    · exact Or.inr (Or.inl (BitVec.eq_of_toNat_eq h))
    · exact Or.inr (Or.inr (BitVec.eq_of_toNat_eq h))

/-! ### Cells of the arrays -/

@[simp] theorem setCell_same_row {α : Type} (t : Vector (Vector α 6) 30) (k : Fin 30) (i : Fin 6) (v : α) :
    (setCell t k i v)[k] = t[k].set i v := by simp [setCell]

theorem setCell_other_row {α : Type} (t : Vector (Vector α 6) 30) {k k' : Fin 30} (h : k' ≠ k) (i : Fin 6) (v : α) :
    (setCell t k i v)[k'] = t[k'] := by
  have : ¬ k.val = k'.val := fun e => h (Fin.ext e.symm)
  simp [setCell, this]

@[simp] theorem cell_setCell_same {α : Type} (t : Vector (Vector α 6) 30) (k : Fin 30) (i : Fin 6) (v : α) :
    cell (setCell t k i v) k i = v := by simp [cell, setCell]

theorem cell_setCell_other {α : Type} (t : Vector (Vector α 6) 30) {k k' : Fin 30} {i i' : Fin 6} (h : k' ≠ k ∨ i' ≠ i) (v : α) :
    cell (setCell t k i v) k' i' = cell t k' i' := by
  unfold cell
  rcases eq_or_ne k' k with rfl | hk
  · have hi : ¬ i.val = i'.val := fun e => h.elim (fun h => h rfl) (fun h => h (Fin.ext e.symm))
    simp [setCell, hi]
  · rw [setCell_other_row t hk]

theorem cell_eq {α : Type} (t : Vector (Vector α 6) 30) (k : Fin 30) (i : Fin 6) : cell t k i = t[k.val][i.val] := rfl

theorem setCell_eq {α : Type} (t : Vector (Vector α 6) 30) (k : Fin 30) (i : Fin 6) (v : α) :
    setCell t k i v = t.set k.val (t[k.val].set i.val v) := rfl

end Sys2Proof.Machine
end

