-- ==== Sys2Proof/Laws/State.lean ====
section
/-! SUPPORT. One lemma per field for each named update of the state, true by unfolding: no later proof unfolds a record update. -/

namespace Sys2Proof.Machine

/-! ### raise -/

@[simp] theorem State.raise_run (k : ErrKind) (w : CmdWord) (s : State) : (s.raise k w).run = .faulted := rfl
@[simp] theorem State.raise_err (k : ErrKind) (w : CmdWord) (s : State) : (s.raise k w).err = some k := rfl
@[simp] theorem State.raise_errinfo (k : ErrKind) (w : CmdWord) (s : State) : (s.raise k w).errinfo = w := rfl
@[simp] theorem State.raise_buf (k : ErrKind) (w : CmdWord) (s : State) : (s.raise k w).buf = s.buf := rfl
@[simp] theorem State.raise_bufLen (k : ErrKind) (w : CmdWord) (s : State) : (s.raise k w).bufLen = s.bufLen := rfl
@[simp] theorem State.raise_payBase (k : ErrKind) (w : CmdWord) (s : State) : (s.raise k w).payBase = s.payBase := rfl
@[simp] theorem State.raise_noise (k : ErrKind) (w : CmdWord) (s : State) : (s.raise k w).noise = s.noise := rfl
@[simp] theorem State.raise_fcnt (k : ErrKind) (w : CmdWord) (s : State) : (s.raise k w).fcnt = s.fcnt := rfl
@[simp] theorem State.raise_nrx (k : ErrKind) (w : CmdWord) (s : State) : (s.raise k w).nrx = s.nrx := rfl
@[simp] theorem State.raise_ntx (k : ErrKind) (w : CmdWord) (s : State) : (s.raise k w).ntx = s.ntx := rfl
@[simp] theorem State.raise_rssi (k : ErrKind) (w : CmdWord) (s : State) : (s.raise k w).rssi = s.rssi := rfl
@[simp] theorem State.raise_rnoise (k : ErrKind) (w : CmdWord) (s : State) : (s.raise k w).rnoise = s.rnoise := rfl
@[simp] theorem State.raise_agc (k : ErrKind) (w : CmdWord) (s : State) : (s.raise k w).agc = s.agc := rfl
@[simp] theorem State.raise_antsel (k : ErrKind) (w : CmdWord) (s : State) : (s.raise k w).antsel = s.antsel := rfl
@[simp] theorem State.raise_flen (k : ErrKind) (w : CmdWord) (s : State) : (s.raise k w).flen = s.flen := rfl
@[simp] theorem State.raise_rate (k : ErrKind) (w : CmdWord) (s : State) : (s.raise k w).rate = s.rate := rfl
@[simp] theorem State.raise_perm (k : ErrKind) (w : CmdWord) (s : State) : (s.raise k w).perm = s.perm := rfl
@[simp] theorem State.raise_cur (k : ErrKind) (w : CmdWord) (s : State) : (s.raise k w).cur = s.cur := rfl
@[simp] theorem State.raise_csi (k : ErrKind) (w : CmdWord) (s : State) : (s.raise k w).csi = s.csi := rfl
@[simp] theorem State.raise_ang (k : ErrKind) (w : CmdWord) (s : State) : (s.raise k w).ang = s.ang := rfl
@[simp] theorem State.raise_tag (k : ErrKind) (w : CmdWord) (s : State) : (s.raise k w).tag = s.tag := rfl
@[simp] theorem State.raise_recon (k : ErrKind) (w : CmdWord) (s : State) : (s.raise k w).recon = s.recon := rfl
@[simp] theorem State.raise_code (k : ErrKind) (w : CmdWord) (s : State) : (s.raise k w).code = s.code := rfl
@[simp] theorem State.raise_pkw (k : ErrKind) (w : CmdWord) (s : State) : (s.raise k w).pkw = s.pkw := rfl
@[simp] theorem State.raise_pki (k : ErrKind) (w : CmdWord) (s : State) : (s.raise k w).pki = s.pki := rfl
@[simp] theorem State.raise_host (k : ErrKind) (w : CmdWord) (s : State) : (s.raise k w).host = s.host := rfl
@[simp] theorem State.raise_draws (k : ErrKind) (w : CmdWord) (s : State) : (s.raise k w).draws = s.draws := rfl
@[simp] theorem State.raise_resets (k : ErrKind) (w : CmdWord) (s : State) : (s.raise k w).resets = s.resets := rfl

/-! ### writeHeader -/

@[simp] theorem State.writeHeader_run (h : FrameHeader) (pre : Nat) (s : State) : (s.writeHeader h pre).run = s.run := rfl
@[simp] theorem State.writeHeader_err (h : FrameHeader) (pre : Nat) (s : State) : (s.writeHeader h pre).err = s.err := rfl
@[simp] theorem State.writeHeader_errinfo (h : FrameHeader) (pre : Nat) (s : State) : (s.writeHeader h pre).errinfo = s.errinfo := rfl
@[simp] theorem State.writeHeader_buf (h : FrameHeader) (pre : Nat) (s : State) : (s.writeHeader h pre).buf = s.buf := rfl
@[simp] theorem State.writeHeader_bufLen (h : FrameHeader) (pre : Nat) (s : State) : (s.writeHeader h pre).bufLen = s.bufLen := rfl
@[simp] theorem State.writeHeader_payBase (h : FrameHeader) (pre : Nat) (s : State) : (s.writeHeader h pre).payBase = pre + Config.hdrLen := rfl
@[simp] theorem State.writeHeader_noise (h : FrameHeader) (pre : Nat) (s : State) : (s.writeHeader h pre).noise = h.noise := rfl
@[simp] theorem State.writeHeader_fcnt (h : FrameHeader) (pre : Nat) (s : State) : (s.writeHeader h pre).fcnt = h.fcnt := rfl
@[simp] theorem State.writeHeader_nrx (h : FrameHeader) (pre : Nat) (s : State) : (s.writeHeader h pre).nrx = h.nrx := rfl
@[simp] theorem State.writeHeader_ntx (h : FrameHeader) (pre : Nat) (s : State) : (s.writeHeader h pre).ntx = h.ntx := rfl
@[simp] theorem State.writeHeader_rssi (h : FrameHeader) (pre : Nat) (s : State) : (s.writeHeader h pre).rssi = h.rssi := rfl
@[simp] theorem State.writeHeader_rnoise (h : FrameHeader) (pre : Nat) (s : State) : (s.writeHeader h pre).rnoise = h.rnoise := rfl
@[simp] theorem State.writeHeader_agc (h : FrameHeader) (pre : Nat) (s : State) : (s.writeHeader h pre).agc = h.agc := rfl
@[simp] theorem State.writeHeader_antsel (h : FrameHeader) (pre : Nat) (s : State) : (s.writeHeader h pre).antsel = h.antsel := rfl
@[simp] theorem State.writeHeader_flen (h : FrameHeader) (pre : Nat) (s : State) : (s.writeHeader h pre).flen = h.flen := rfl
@[simp] theorem State.writeHeader_rate (h : FrameHeader) (pre : Nat) (s : State) : (s.writeHeader h pre).rate = h.rate := rfl
@[simp] theorem State.writeHeader_perm (h : FrameHeader) (pre : Nat) (s : State) : (s.writeHeader h pre).perm = permOf h.antsel := rfl
@[simp] theorem State.writeHeader_cur (h : FrameHeader) (pre : Nat) (s : State) : (s.writeHeader h pre).cur = s.cur := rfl
@[simp] theorem State.writeHeader_csi (h : FrameHeader) (pre : Nat) (s : State) : (s.writeHeader h pre).csi = s.csi := rfl
@[simp] theorem State.writeHeader_ang (h : FrameHeader) (pre : Nat) (s : State) : (s.writeHeader h pre).ang = s.ang := rfl
@[simp] theorem State.writeHeader_tag (h : FrameHeader) (pre : Nat) (s : State) : (s.writeHeader h pre).tag = s.tag := rfl
@[simp] theorem State.writeHeader_recon (h : FrameHeader) (pre : Nat) (s : State) : (s.writeHeader h pre).recon = s.recon := rfl
@[simp] theorem State.writeHeader_code (h : FrameHeader) (pre : Nat) (s : State) : (s.writeHeader h pre).code = s.code := rfl
@[simp] theorem State.writeHeader_pkw (h : FrameHeader) (pre : Nat) (s : State) : (s.writeHeader h pre).pkw = s.pkw := rfl
@[simp] theorem State.writeHeader_pki (h : FrameHeader) (pre : Nat) (s : State) : (s.writeHeader h pre).pki = s.pki := rfl
@[simp] theorem State.writeHeader_host (h : FrameHeader) (pre : Nat) (s : State) : (s.writeHeader h pre).host = s.host := rfl
@[simp] theorem State.writeHeader_draws (h : FrameHeader) (pre : Nat) (s : State) : (s.writeHeader h pre).draws = s.draws := rfl
@[simp] theorem State.writeHeader_resets (h : FrameHeader) (pre : Nat) (s : State) : (s.writeHeader h pre).resets = s.resets := rfl

/-! ### writeAngles -/

@[simp] theorem State.writeAngles_run (k : Fin 30) (a : Vector (Option F) 6) (s : State) : (s.writeAngles k a).run = s.run := rfl
@[simp] theorem State.writeAngles_err (k : Fin 30) (a : Vector (Option F) 6) (s : State) : (s.writeAngles k a).err = s.err := rfl
@[simp] theorem State.writeAngles_errinfo (k : Fin 30) (a : Vector (Option F) 6) (s : State) : (s.writeAngles k a).errinfo = s.errinfo := rfl
@[simp] theorem State.writeAngles_buf (k : Fin 30) (a : Vector (Option F) 6) (s : State) : (s.writeAngles k a).buf = s.buf := rfl
@[simp] theorem State.writeAngles_bufLen (k : Fin 30) (a : Vector (Option F) 6) (s : State) : (s.writeAngles k a).bufLen = s.bufLen := rfl
@[simp] theorem State.writeAngles_payBase (k : Fin 30) (a : Vector (Option F) 6) (s : State) : (s.writeAngles k a).payBase = s.payBase := rfl
@[simp] theorem State.writeAngles_noise (k : Fin 30) (a : Vector (Option F) 6) (s : State) : (s.writeAngles k a).noise = s.noise := rfl
@[simp] theorem State.writeAngles_fcnt (k : Fin 30) (a : Vector (Option F) 6) (s : State) : (s.writeAngles k a).fcnt = s.fcnt := rfl
@[simp] theorem State.writeAngles_nrx (k : Fin 30) (a : Vector (Option F) 6) (s : State) : (s.writeAngles k a).nrx = s.nrx := rfl
@[simp] theorem State.writeAngles_ntx (k : Fin 30) (a : Vector (Option F) 6) (s : State) : (s.writeAngles k a).ntx = s.ntx := rfl
@[simp] theorem State.writeAngles_rssi (k : Fin 30) (a : Vector (Option F) 6) (s : State) : (s.writeAngles k a).rssi = s.rssi := rfl
@[simp] theorem State.writeAngles_rnoise (k : Fin 30) (a : Vector (Option F) 6) (s : State) : (s.writeAngles k a).rnoise = s.rnoise := rfl
@[simp] theorem State.writeAngles_agc (k : Fin 30) (a : Vector (Option F) 6) (s : State) : (s.writeAngles k a).agc = s.agc := rfl
@[simp] theorem State.writeAngles_antsel (k : Fin 30) (a : Vector (Option F) 6) (s : State) : (s.writeAngles k a).antsel = s.antsel := rfl
@[simp] theorem State.writeAngles_flen (k : Fin 30) (a : Vector (Option F) 6) (s : State) : (s.writeAngles k a).flen = s.flen := rfl
@[simp] theorem State.writeAngles_rate (k : Fin 30) (a : Vector (Option F) 6) (s : State) : (s.writeAngles k a).rate = s.rate := rfl
@[simp] theorem State.writeAngles_perm (k : Fin 30) (a : Vector (Option F) 6) (s : State) : (s.writeAngles k a).perm = s.perm := rfl
@[simp] theorem State.writeAngles_cur (k : Fin 30) (a : Vector (Option F) 6) (s : State) : (s.writeAngles k a).cur = s.cur := rfl
@[simp] theorem State.writeAngles_csi (k : Fin 30) (a : Vector (Option F) 6) (s : State) : (s.writeAngles k a).csi = s.csi := rfl
@[simp] theorem State.writeAngles_ang (k : Fin 30) (a : Vector (Option F) 6) (s : State) : (s.writeAngles k a).ang = s.ang.set k (fillAngles k s.draws[k] a) := rfl
@[simp] theorem State.writeAngles_tag (k : Fin 30) (a : Vector (Option F) 6) (s : State) : (s.writeAngles k a).tag = s.tag.set k fixedTags := rfl
@[simp] theorem State.writeAngles_recon (k : Fin 30) (a : Vector (Option F) 6) (s : State) : (s.writeAngles k a).recon = s.recon := rfl
@[simp] theorem State.writeAngles_code (k : Fin 30) (a : Vector (Option F) 6) (s : State) : (s.writeAngles k a).code = s.code := rfl
@[simp] theorem State.writeAngles_pkw (k : Fin 30) (a : Vector (Option F) 6) (s : State) : (s.writeAngles k a).pkw = s.pkw := rfl
@[simp] theorem State.writeAngles_pki (k : Fin 30) (a : Vector (Option F) 6) (s : State) : (s.writeAngles k a).pki = s.pki := rfl
@[simp] theorem State.writeAngles_host (k : Fin 30) (a : Vector (Option F) 6) (s : State) : (s.writeAngles k a).host = s.host := rfl
@[simp] theorem State.writeAngles_draws (k : Fin 30) (a : Vector (Option F) 6) (s : State) : (s.writeAngles k a).draws = s.draws.set k (s.draws[k] + drawsOf a) := rfl
@[simp] theorem State.writeAngles_resets (k : Fin 30) (a : Vector (Option F) 6) (s : State) : (s.writeAngles k a).resets = s.resets := rfl

/-! ### writeQuantized -/

@[simp] theorem State.writeQuantized_run (k : Fin 30) (i : Fin 6) (c bw : Nat) (s : State) : (s.writeQuantized k i c bw).run = s.run := rfl
@[simp] theorem State.writeQuantized_err (k : Fin 30) (i : Fin 6) (c bw : Nat) (s : State) : (s.writeQuantized k i c bw).err = s.err := rfl
@[simp] theorem State.writeQuantized_errinfo (k : Fin 30) (i : Fin 6) (c bw : Nat) (s : State) : (s.writeQuantized k i c bw).errinfo = s.errinfo := rfl
@[simp] theorem State.writeQuantized_buf (k : Fin 30) (i : Fin 6) (c bw : Nat) (s : State) : (s.writeQuantized k i c bw).buf = s.buf := rfl
@[simp] theorem State.writeQuantized_bufLen (k : Fin 30) (i : Fin 6) (c bw : Nat) (s : State) : (s.writeQuantized k i c bw).bufLen = s.bufLen := rfl
@[simp] theorem State.writeQuantized_payBase (k : Fin 30) (i : Fin 6) (c bw : Nat) (s : State) : (s.writeQuantized k i c bw).payBase = s.payBase := rfl
@[simp] theorem State.writeQuantized_noise (k : Fin 30) (i : Fin 6) (c bw : Nat) (s : State) : (s.writeQuantized k i c bw).noise = s.noise := rfl
@[simp] theorem State.writeQuantized_fcnt (k : Fin 30) (i : Fin 6) (c bw : Nat) (s : State) : (s.writeQuantized k i c bw).fcnt = s.fcnt := rfl
@[simp] theorem State.writeQuantized_nrx (k : Fin 30) (i : Fin 6) (c bw : Nat) (s : State) : (s.writeQuantized k i c bw).nrx = s.nrx := rfl
@[simp] theorem State.writeQuantized_ntx (k : Fin 30) (i : Fin 6) (c bw : Nat) (s : State) : (s.writeQuantized k i c bw).ntx = s.ntx := rfl
@[simp] theorem State.writeQuantized_rssi (k : Fin 30) (i : Fin 6) (c bw : Nat) (s : State) : (s.writeQuantized k i c bw).rssi = s.rssi := rfl
@[simp] theorem State.writeQuantized_rnoise (k : Fin 30) (i : Fin 6) (c bw : Nat) (s : State) : (s.writeQuantized k i c bw).rnoise = s.rnoise := rfl
@[simp] theorem State.writeQuantized_agc (k : Fin 30) (i : Fin 6) (c bw : Nat) (s : State) : (s.writeQuantized k i c bw).agc = s.agc := rfl
@[simp] theorem State.writeQuantized_antsel (k : Fin 30) (i : Fin 6) (c bw : Nat) (s : State) : (s.writeQuantized k i c bw).antsel = s.antsel := rfl
@[simp] theorem State.writeQuantized_flen (k : Fin 30) (i : Fin 6) (c bw : Nat) (s : State) : (s.writeQuantized k i c bw).flen = s.flen := rfl
@[simp] theorem State.writeQuantized_rate (k : Fin 30) (i : Fin 6) (c bw : Nat) (s : State) : (s.writeQuantized k i c bw).rate = s.rate := rfl
@[simp] theorem State.writeQuantized_perm (k : Fin 30) (i : Fin 6) (c bw : Nat) (s : State) : (s.writeQuantized k i c bw).perm = s.perm := rfl
@[simp] theorem State.writeQuantized_cur (k : Fin 30) (i : Fin 6) (c bw : Nat) (s : State) : (s.writeQuantized k i c bw).cur = s.cur := rfl
@[simp] theorem State.writeQuantized_csi (k : Fin 30) (i : Fin 6) (c bw : Nat) (s : State) : (s.writeQuantized k i c bw).csi = s.csi := rfl
@[simp] theorem State.writeQuantized_ang (k : Fin 30) (i : Fin 6) (c bw : Nat) (s : State) : (s.writeQuantized k i c bw).ang = s.ang := rfl
@[simp] theorem State.writeQuantized_tag (k : Fin 30) (i : Fin 6) (c bw : Nat) (s : State) : (s.writeQuantized k i c bw).tag = s.tag := rfl
@[simp] theorem State.writeQuantized_recon (k : Fin 30) (i : Fin 6) (c bw : Nat) (s : State) : (s.writeQuantized k i c bw).recon = setCell s.recon k i (inv c bw) := rfl
@[simp] theorem State.writeQuantized_code (k : Fin 30) (i : Fin 6) (c bw : Nat) (s : State) : (s.writeQuantized k i c bw).code = setCell s.code k i (BitVec.ofNat 6 c) := rfl
@[simp] theorem State.writeQuantized_pkw (k : Fin 30) (i : Fin 6) (c bw : Nat) (s : State) : (s.writeQuantized k i c bw).pkw = s.pkw := rfl
@[simp] theorem State.writeQuantized_pki (k : Fin 30) (i : Fin 6) (c bw : Nat) (s : State) : (s.writeQuantized k i c bw).pki = s.pki := rfl
@[simp] theorem State.writeQuantized_host (k : Fin 30) (i : Fin 6) (c bw : Nat) (s : State) : (s.writeQuantized k i c bw).host = s.host := rfl
@[simp] theorem State.writeQuantized_draws (k : Fin 30) (i : Fin 6) (c bw : Nat) (s : State) : (s.writeQuantized k i c bw).draws = s.draws := rfl
@[simp] theorem State.writeQuantized_resets (k : Fin 30) (i : Fin 6) (c bw : Nat) (s : State) : (s.writeQuantized k i c bw).resets = s.resets := rfl

/-! ### writeUnquantized -/

@[simp] theorem State.writeUnquantized_run (k : Fin 30) (i : Fin 6) (s : State) : (s.writeUnquantized k i).run = s.run := rfl
@[simp] theorem State.writeUnquantized_err (k : Fin 30) (i : Fin 6) (s : State) : (s.writeUnquantized k i).err = s.err := rfl
@[simp] theorem State.writeUnquantized_errinfo (k : Fin 30) (i : Fin 6) (s : State) : (s.writeUnquantized k i).errinfo = s.errinfo := rfl
@[simp] theorem State.writeUnquantized_buf (k : Fin 30) (i : Fin 6) (s : State) : (s.writeUnquantized k i).buf = s.buf := rfl
@[simp] theorem State.writeUnquantized_bufLen (k : Fin 30) (i : Fin 6) (s : State) : (s.writeUnquantized k i).bufLen = s.bufLen := rfl
@[simp] theorem State.writeUnquantized_payBase (k : Fin 30) (i : Fin 6) (s : State) : (s.writeUnquantized k i).payBase = s.payBase := rfl
@[simp] theorem State.writeUnquantized_noise (k : Fin 30) (i : Fin 6) (s : State) : (s.writeUnquantized k i).noise = s.noise := rfl
@[simp] theorem State.writeUnquantized_fcnt (k : Fin 30) (i : Fin 6) (s : State) : (s.writeUnquantized k i).fcnt = s.fcnt := rfl
@[simp] theorem State.writeUnquantized_nrx (k : Fin 30) (i : Fin 6) (s : State) : (s.writeUnquantized k i).nrx = s.nrx := rfl
@[simp] theorem State.writeUnquantized_ntx (k : Fin 30) (i : Fin 6) (s : State) : (s.writeUnquantized k i).ntx = s.ntx := rfl
@[simp] theorem State.writeUnquantized_rssi (k : Fin 30) (i : Fin 6) (s : State) : (s.writeUnquantized k i).rssi = s.rssi := rfl
@[simp] theorem State.writeUnquantized_rnoise (k : Fin 30) (i : Fin 6) (s : State) : (s.writeUnquantized k i).rnoise = s.rnoise := rfl
@[simp] theorem State.writeUnquantized_agc (k : Fin 30) (i : Fin 6) (s : State) : (s.writeUnquantized k i).agc = s.agc := rfl
@[simp] theorem State.writeUnquantized_antsel (k : Fin 30) (i : Fin 6) (s : State) : (s.writeUnquantized k i).antsel = s.antsel := rfl
@[simp] theorem State.writeUnquantized_flen (k : Fin 30) (i : Fin 6) (s : State) : (s.writeUnquantized k i).flen = s.flen := rfl
@[simp] theorem State.writeUnquantized_rate (k : Fin 30) (i : Fin 6) (s : State) : (s.writeUnquantized k i).rate = s.rate := rfl
@[simp] theorem State.writeUnquantized_perm (k : Fin 30) (i : Fin 6) (s : State) : (s.writeUnquantized k i).perm = s.perm := rfl
@[simp] theorem State.writeUnquantized_cur (k : Fin 30) (i : Fin 6) (s : State) : (s.writeUnquantized k i).cur = s.cur := rfl
@[simp] theorem State.writeUnquantized_csi (k : Fin 30) (i : Fin 6) (s : State) : (s.writeUnquantized k i).csi = s.csi := rfl
@[simp] theorem State.writeUnquantized_ang (k : Fin 30) (i : Fin 6) (s : State) : (s.writeUnquantized k i).ang = s.ang := rfl
@[simp] theorem State.writeUnquantized_tag (k : Fin 30) (i : Fin 6) (s : State) : (s.writeUnquantized k i).tag = s.tag := rfl
@[simp] theorem State.writeUnquantized_recon (k : Fin 30) (i : Fin 6) (s : State) : (s.writeUnquantized k i).recon = setCell s.recon k i (Config.drawF k s.draws[k]) := rfl
@[simp] theorem State.writeUnquantized_code (k : Fin 30) (i : Fin 6) (s : State) : (s.writeUnquantized k i).code = setCell s.code k i (Config.drawCode k s.draws[k]) := rfl
@[simp] theorem State.writeUnquantized_pkw (k : Fin 30) (i : Fin 6) (s : State) : (s.writeUnquantized k i).pkw = s.pkw := rfl
@[simp] theorem State.writeUnquantized_pki (k : Fin 30) (i : Fin 6) (s : State) : (s.writeUnquantized k i).pki = s.pki := rfl
@[simp] theorem State.writeUnquantized_host (k : Fin 30) (i : Fin 6) (s : State) : (s.writeUnquantized k i).host = s.host := rfl
@[simp] theorem State.writeUnquantized_draws (k : Fin 30) (i : Fin 6) (s : State) : (s.writeUnquantized k i).draws = s.draws.set k (s.draws[k] + 1) := rfl
@[simp] theorem State.writeUnquantized_resets (k : Fin 30) (i : Fin 6) (s : State) : (s.writeUnquantized k i).resets = s.resets := rfl

/-! ### afterReset: the fields the spec gives a reset value -/

@[simp] theorem State.afterReset_run (n : Nat) (h : List HostAction) (d : Vector Nat 30) : (State.afterReset n h d).run = .ready := rfl
@[simp] theorem State.afterReset_err (n : Nat) (h : List HostAction) (d : Vector Nat 30) : (State.afterReset n h d).err = none := rfl
@[simp] theorem State.afterReset_errinfo (n : Nat) (h : List HostAction) (d : Vector Nat 30) : (State.afterReset n h d).errinfo = 0#16 := rfl
@[simp] theorem State.afterReset_buf (n : Nat) (h : List HostAction) (d : Vector Nat 30) : (State.afterReset n h d).buf = [] := rfl
@[simp] theorem State.afterReset_bufLen (n : Nat) (h : List HostAction) (d : Vector Nat 30) : (State.afterReset n h d).bufLen = 0 := rfl
@[simp] theorem State.afterReset_payBase (n : Nat) (h : List HostAction) (d : Vector Nat 30) : (State.afterReset n h d).payBase = 0 := rfl
@[simp] theorem State.afterReset_nrx (n : Nat) (h : List HostAction) (d : Vector Nat 30) : (State.afterReset n h d).nrx = 0#8 := rfl
@[simp] theorem State.afterReset_ntx (n : Nat) (h : List HostAction) (d : Vector Nat 30) : (State.afterReset n h d).ntx = 0#8 := rfl
@[simp] theorem State.afterReset_cur (n : Nat) (h : List HostAction) (d : Vector Nat 30) : (State.afterReset n h d).cur = 0#16 := rfl
@[simp] theorem State.afterReset_host (n : Nat) (h : List HostAction) (d : Vector Nat 30) : (State.afterReset n h d).host = h := rfl
@[simp] theorem State.afterReset_draws (n : Nat) (h : List HostAction) (d : Vector Nat 30) : (State.afterReset n h d).draws = d := rfl
@[simp] theorem State.afterReset_resets (n : Nat) (h : List HostAction) (d : Vector Nat 30) : (State.afterReset n h d).resets = n := rfl

@[simp] theorem State.afterReset_tag (n : Nat) (h : List HostAction) (d : Vector Nat 30) (k : Fin 30) (i : Fin 6) :
    cell (State.afterReset n h d).tag k i = 0#2 := by
  simp [State.afterReset, cell]

end Sys2Proof.Machine
end

