-- ==== Sys2Proof/Laws/Exec.lean ====
section
/-! SUPPORT. What each command can do when it completes, said once: one lemma for each body, and one inversion lemma for `exec`. -/

namespace Sys2Proof.Machine

/-- What HDR writes: a header read from the buffer, whose counts are legal. -/
theorem hdrEffect_done {p : Bool} {s t : State} (h : hdrEffect p s = .done t) :
    ∃ hd, readHeader s.buf (prefixLen p) = some hd ∧ prefixLen p + Config.hdrLen ≤ s.bufLen ∧ t = s.writeHeader hd (prefixLen p) := by
  unfold hdrEffect at h
  simp only at h
  split at h
  · cases h
  · next h1 =>
    split at h
    · cases h
    · split at h
      · next hd hr =>
        cases h
        exact ⟨hd, hr, by omega, rfl⟩
      · cases h

/-- What CSIX writes: the tensor and the cursor of its loop. -/
theorem csixEffect_done {s t : State} (h : csixEffect s = .done t) :
    ∃ cur csi, extractTensor s.buf s.payBase s.nrx.toNat s.ntx.toNat s.csi = some (cur, csi) ∧
      isCount s.nrx = true ∧ isCount s.ntx = true ∧ t = { s with csi := csi, cur := BitVec.ofNat 16 cur } := by
  unfold csixEffect at h
  split at h
  · cases h
  · next h1 =>
    split at h
    · cases h
    · split at h
      · next cur csi hr =>
        cases h
        simp at h1
        exact ⟨cur, csi, hr, h1.1, h1.2, rfl⟩
      · cases h

theorem decompEffect_done {k : Fin 30} {s t : State} (h : decompEffect k s = .done t) :
    s.nrx = 3#8 ∧ s.ntx = 3#8 ∧ t = s.writeAngles k (decompose s.csi[k]) := by
  unfold decompEffect at h
  split at h
  · cases h
  · next h1 =>
    cases h
    simp at h1
    exact ⟨h1.1, h1.2, rfl⟩

/-- What QUANT writes: a code and its reconstruction, or free values for both. -/
theorem quantEffect_done {k : Fin 30} {i : Fin 6} {bw : BitVec 4} {s t : State} (h : quantEffect k i bw s = .done t) :
    ∃ tag, 1 ≤ bw.toNat ∧ bw.toNat ≤ 4 ∧ cell s.tag k i = Tag.bits tag ∧
      ((∃ c, quantize? (cell s.ang k i) tag bw.toNat = some c ∧ t = s.writeQuantized k i c bw.toNat) ∨
        (quantize? (cell s.ang k i) tag bw.toNat = none ∧ t = s.writeUnquantized k i)) := by
  unfold quantEffect withBitWidth withTag at h
  cases hb : bitWidth? bw with
  | none => simp [hb] at h
  | some n =>
    have hn : 1 ≤ bw.toNat ∧ bw.toNat ≤ 4 ∧ n = bw.toNat := by
      unfold bitWidth? at hb
      split at hb
      · next hc =>
        cases hb
        exact ⟨hc.1, hc.2, rfl⟩
      · cases hb
    obtain ⟨h1, h4, rfl⟩ := hn
    cases ht : tagOf? (cell s.tag k i) with
    | none => simp [hb, ht] at h
    | some tag =>
      refine ⟨tag, h1, h4, tagOf?_eq_some.mp ht, ?_⟩
      cases hq : quantize? (cell s.ang k i) tag bw.toNat with
      | none =>
        simp [hb, ht, hq] at h
        exact Or.inr ⟨rfl, h.symm⟩
      | some c =>
        simp [hb, ht, hq] at h
        exact Or.inl ⟨c, rfl, h.symm⟩

theorem dequantEffect_done {k : Fin 30} {i : Fin 6} {bw : BitVec 4} {s t : State} (h : dequantEffect k i bw s = .done t) :
    t = { s with recon := setCell s.recon k i (inv (cell s.code k i).toNat bw.toNat) } := by
  unfold dequantEffect withBitWidth withTag at h
  cases hb : bitWidth? bw with
  | none => simp [hb] at h
  | some n =>
    have hn : n = bw.toNat := by
      unfold bitWidth? at hb
      split at hb <;> simp_all
    subst hn
    cases ht : tagOf? (cell s.tag k i) with
    | none => simp [hb, ht] at h
    | some tag =>
      simp [hb, ht] at h
      exact h.symm

theorem packEffect_done {k : Fin 30} {bw : BitVec 4} {s t : State} (h : packEffect k bw s = .done t) :
    ∃ tags, tagsOf? s.tag[k] = some tags ∧ t = { s with
      pkw := s.pkw.set k (widthsList (slotWidths tags bw.toNat))
      pki := s.pki.set k (BitVec.ofNat 36 (packLoop (slotWidths tags bw.toNat) s.code[k])) } := by
  unfold packEffect withBitWidth at h
  cases hb : bitWidth? bw with
  | none => simp [hb] at h
  | some n =>
    have hn : n = bw.toNat := by
      unfold bitWidth? at hb
      split at hb <;> simp_all
    subst hn
    cases ht : tagsOf? s.tag[k] with
    | none =>
      simp only [hb, ht] at h
      cases h
    | some tags =>
      simp only [hb, ht] at h
      exact ⟨tags, rfl, (Effect.done.inj h).symm⟩

/-- The writes of a command that runs to its end, in state `s` to state `t`. -/
def Wrote (i : Instr) (s t : State) : Prop :=
  match i with
  | .hdr p => ∃ hd, readHeader s.buf (prefixLen p) = some hd ∧ prefixLen p + Config.hdrLen ≤ s.bufLen ∧
      t = s.writeHeader hd (prefixLen p)
  | .csix => ∃ cur csi, extractTensor s.buf s.payBase s.nrx.toNat s.ntx.toNat s.csi = some (cur, csi) ∧
      isCount s.nrx = true ∧ isCount s.ntx = true ∧ t = { s with csi := csi, cur := BitVec.ofNat 16 cur }
  | .decomp sc => ∃ k : Fin 30, sc.toNat = k.val ∧ t = s.writeAngles k (decompose s.csi[k])
  | .quant sc _ bw => ∃ (k : Fin 30) (i : Fin 6), sc.toNat = k.val ∧
      ((∃ c, t = s.writeQuantized k i c bw.toNat) ∨ t = s.writeUnquantized k i)
  | .dequant sc _ _ => ∃ (k : Fin 30) (i : Fin 6) (x : F), sc.toNat = k.val ∧ t = { s with recon := setCell s.recon k i x }
  | .pack sc _ => ∃ (k : Fin 30) (w : Vector (BitVec 3) 6) (n : BitVec 36), sc.toNat = k.val ∧
      t = { s with pkw := s.pkw.set k w, pki := s.pki.set k n }
  | .unpack sc => ∃ (k : Fin 30) (c : Vector (BitVec 6) 6), sc.toNat = k.val ∧ t = { s with code := s.code.set k c }

/-- If a command answers a next state, then the block was FAULTED and nothing happened, or it was READY and the command either made
its writes or raised one error. -/
theorem exec_next {i : Instr} {s t : State} (h : exec i s = .next t) :
    (s.run = .faulted ∧ t = s) ∨ (s.run = .ready ∧ Wrote i s t) ∨ (s.run = .ready ∧ ∃ k, t = s.raise k (encode i)) := by
  cases i with
  | hdr p =>
    rcases issueEffect_next h with h | ⟨hr, h⟩ | ⟨hr, k, -, h⟩
    · exact Or.inl h
    · exact Or.inr (Or.inl ⟨hr, hdrEffect_done h⟩)
    · exact Or.inr (Or.inr ⟨hr, k, h⟩)
  | csix =>
    rcases issueEffect_next h with h | ⟨hr, h⟩ | ⟨hr, k, -, h⟩
    · exact Or.inl h
    · exact Or.inr (Or.inl ⟨hr, csixEffect_done h⟩)
    · exact Or.inr (Or.inr ⟨hr, k, h⟩)
  | decomp sc =>
    rcases issueEffect_next h with h | ⟨hr, h⟩ | ⟨hr, k, -, h⟩
    · exact Or.inl h
    · refine Or.inr (Or.inl ⟨hr, ?_⟩)
      rcases withSubcarrier_cases sc (fun k => decompEffect k s) with ⟨k, hk, e⟩ | e
      · exact ⟨k, hk, (decompEffect_done (e ▸ h)).2.2⟩
      · simp [e] at h
    · exact Or.inr (Or.inr ⟨hr, k, h⟩)
  | quant sc j bw =>
    rcases issueEffect_next h with h | ⟨hr, h⟩ | ⟨hr, k, -, h⟩
    · exact Or.inl h
    · refine Or.inr (Or.inl ⟨hr, ?_⟩)
      rcases withCell_cases sc j (fun k i => quantEffect k i bw s) with ⟨k, i, hk, e⟩ | e
      · obtain ⟨tag, -, -, -, ⟨c, -, hc⟩ | ⟨-, hc⟩⟩ := quantEffect_done (e ▸ h)
        · exact ⟨k, i, hk, Or.inl ⟨c, hc⟩⟩
        · exact ⟨k, i, hk, Or.inr hc⟩
      · simp [e] at h
    · exact Or.inr (Or.inr ⟨hr, k, h⟩)
  | dequant sc j bw =>
    rcases issueEffect_next h with h | ⟨hr, h⟩ | ⟨hr, k, -, h⟩
    · exact Or.inl h
    · refine Or.inr (Or.inl ⟨hr, ?_⟩)
      rcases withCell_cases sc j (fun k i => dequantEffect k i bw s) with ⟨k, i, hk, e⟩ | e
      · exact ⟨k, i, _, hk, dequantEffect_done (e ▸ h)⟩
      · simp [e] at h
    · exact Or.inr (Or.inr ⟨hr, k, h⟩)
  | pack sc bw =>
    rcases issueEffect_next h with h | ⟨hr, h⟩ | ⟨hr, k, -, h⟩
    · exact Or.inl h
    · refine Or.inr (Or.inl ⟨hr, ?_⟩)
      rcases withSubcarrier_cases sc (fun k => packEffect k bw s) with ⟨k, hk, e⟩ | e
      · obtain ⟨tags, -, ht⟩ := packEffect_done (e ▸ h)
        exact ⟨k, _, _, hk, ht⟩
      · simp [e] at h
    · exact Or.inr (Or.inr ⟨hr, k, h⟩)
  | unpack sc =>
    rcases issueEffect_next h with h | ⟨hr, h⟩ | ⟨hr, k, -, h⟩
    · exact Or.inl h
    · refine Or.inr (Or.inl ⟨hr, ?_⟩)
      rcases withSubcarrier_cases sc (fun k => unpackEffect k s) with ⟨k, hk, e⟩ | e
      · rw [e] at h
        exact ⟨k, _, hk, (Effect.done.inj h).symm⟩
      · simp [e] at h
    · exact Or.inr (Or.inr ⟨hr, k, h⟩)

/-- A command that runs to its end leaves the status registers and the model's own `host` and `resets` as they were. -/
theorem Wrote.status {i : Instr} {s t : State} (h : Wrote i s t) :
    t.run = s.run ∧ t.err = s.err ∧ t.errinfo = s.errinfo ∧ t.host = s.host ∧ t.resets = s.resets ∧ t.buf = s.buf ∧ t.bufLen = s.bufLen := by
  cases i with
  | hdr p => obtain ⟨hd, -, -, rfl⟩ := h; simp
  | csix => obtain ⟨cur, csi, -, -, -, rfl⟩ := h; simp
  | decomp sc => obtain ⟨k, -, rfl⟩ := h; simp
  | quant sc j bw => obtain ⟨k, i, -, ⟨c, rfl⟩ | rfl⟩ := h <;> simp
  | dequant sc j bw => obtain ⟨k, i, x, -, rfl⟩ := h; simp
  | pack sc bw => obtain ⟨k, w, n, -, rfl⟩ := h; simp
  | unpack sc => obtain ⟨k, c, -, rfl⟩ := h; simp

/-- A host write stores the value, changes nothing, or stops. -/
theorem hostWrite_next {r : Reg} {v : Nat} {s t : State} (h : hostWrite r v s = .next t) :
    t = s ∨ (s.run = .ready ∧ r.hostWritable = true ∧ r.outsideBuf = false ∧ (r = .bufLen → v ≤ Config.bufCap) ∧
      v < 2 ^ r.width ∧ t = s.setReg r v) := by
  unfold hostWrite at h
  cases hr : s.run <;> rw [hr] at h <;> simp only at h
  · split at h
    · cases h
    · next h1 =>
      split at h
      · cases h
      · next h2 =>
        split at h
        · exact Or.inl (Host.Outcome.next.inj h).symm
        · next h3 =>
          split at h
          · cases h
          · next h4 =>
            refine Or.inr ⟨rfl, by simpa using h1, by simpa using h2, fun e => ?_, by omega, (Host.Outcome.next.inj h).symm⟩
            by_contra hc
            exact h3 ⟨e, by omega⟩
  · exact Or.inl (Host.Outcome.next.inj h).symm

end Sys2Proof.Machine
end

