-- ==== Sys2Proof/Laws/Codec.lean ====
section
/-! SUPPORT. The loops of PACK and UNPACK in closed form, and the two commands on a READY block. -/

namespace Sys2Proof.Machine

/-- The packed integer is the sum of the codes, each at the offset of its slot (R172). -/
theorem packLoop_eq (wd : Vector Nat 6) (cd : Vector (BitVec 6) 6) :
    packLoop wd cd = cd[0].toNat + cd[1].toNat * 2 ^ wd[0] + cd[2].toNat * 2 ^ (wd[0] + wd[1]) +
      cd[3].toNat * 2 ^ (wd[0] + wd[1] + wd[2]) + cd[4].toNat * 2 ^ (wd[0] + wd[1] + wd[2] + wd[3]) +
      cd[5].toNat * 2 ^ (wd[0] + wd[1] + wd[2] + wd[3] + wd[4]) := by
  simp only [packLoop, List.foldl, Nat.shiftLeft_eq, Nat.zero_mul, Nat.zero_add, pow_add, Fin.getElem_fin]
  norm_num
  ring

/-- Six codes of six bits at offsets of at most six bits each fit 36 bits, whatever the codes (R175). -/
theorem packLoop_lt (wd : Vector Nat 6) (cd : Vector (BitVec 6) 6) (h : ∀ i : Fin 6, wd[i] ≤ 6) : packLoop wd cd < 2 ^ 36 := by
  have step : ∀ {a w b n : Nat}, a < 2 ^ n → w ≤ 6 → b < 64 → a <<< w + b < 2 ^ (n + 6) := by
    intro a w b n ha hw hb
    rw [Nat.shiftLeft_eq]
    have h1 : a * 2 ^ w ≤ (2 ^ n - 1) * 64 :=
      Nat.mul_le_mul (by omega) (le_trans (Nat.pow_le_pow_right (by norm_num) hw) (by norm_num))
    rw [pow_add]
    omega
  have lt : ∀ i : Fin 6, (cd[i]).toNat < 64 := fun i => (cd[i]).isLt
  unfold packLoop
  simp only [List.foldl]
  have h5 : 0 <<< wd[(5 : Fin 6)] + (cd[(5 : Fin 6)]).toNat < 2 ^ 6 := by simpa using lt 5
  exact step (step (step (step (step h5 (h 4) (lt 4)) (h 3) (lt 3)) (h 2) (lt 2)) (h 1) (lt 1)) (h 0) (lt 0)

/-- The unpacked codes: slot `i` takes the bits above the widths of the lower slots (R180, R182). -/
theorem unpackLoop_eq (w : Vector (BitVec 3) 6) (v : Nat) (cd : Vector (BitVec 6) 6) :
    unpackLoop w v cd = #v[BitVec.ofNat 6 (v % 2 ^ w[5].toNat),
      BitVec.ofNat 6 (v / 2 ^ w[5].toNat % 2 ^ w[4].toNat),
      BitVec.ofNat 6 (v / 2 ^ (w[5].toNat + w[4].toNat) % 2 ^ w[3].toNat),
      BitVec.ofNat 6 (v / 2 ^ (w[5].toNat + w[4].toNat + w[3].toNat) % 2 ^ w[2].toNat),
      BitVec.ofNat 6 (v / 2 ^ (w[5].toNat + w[4].toNat + w[3].toNat + w[2].toNat) % 2 ^ w[1].toNat),
      BitVec.ofNat 6 (v / 2 ^ (w[5].toNat + w[4].toNat + w[3].toNat + w[2].toNat + w[1].toNat) % 2 ^ w[0].toNat)] := by
  have e : ∀ i : Fin 6, i.rev.val = 5 - i.val := fun i => by rw [Fin.val_rev]; omega
  apply Vector.ext
  intro i hi
  simp only [unpackLoop, List.foldl, unpackStep, Nat.shiftRight_eq_div_pow, Nat.div_div_eq_div_mul, ← pow_add, Fin.getElem_fin, e]
  interval_cases i <;> simp

/-- PACK with a legal bit width and six tags on a READY block completes. -/
theorem exec_pack {sc : BitVec 5} {bw : BitVec 4} {s : State} {tags : Fin 6 → Tag} (hs : sc.toNat < 30) (hr : s.run = .ready)
    (h1 : 1 ≤ bw.toNat) (h4 : bw.toNat ≤ 4) (ht : ∀ i : Fin 6, s.tag[sc.toNat][i] = (tags i).bits) :
    exec (.pack sc bw) s = .next { s with
      pkw := s.pkw.set sc.toNat (widthsList (Vector.ofFn fun i => fieldWidth (tags i) bw.toNat))
      pki := s.pki.set sc.toNat (BitVec.ofNat 36 (packLoop (Vector.ofFn fun i => fieldWidth (tags i) bw.toNat) s.code[sc.toNat])) } := by
  have hw : slotWidths #v[tags 0, tags 1, tags 2, tags 3, tags 4, tags 5] bw.toNat = Vector.ofFn fun i => fieldWidth (tags i) bw.toNat := by
    apply Vector.ext
    intro i hi
    simp only [slotWidths, Vector.getElem_ofFn]
    interval_cases i <;> rfl
  show issueEffect _ _ _ = _
  rw [withSubcarrier_of_lt hs]
  unfold packEffect
  rw [withBitWidth_of_legal h1 h4, tagsOf?_of_bits (row := s.tag[(⟨sc.toNat, hs⟩ : Fin 30)]) ht]
  simp only [hw]
  rw [issueEffect_done hr]
  rfl

/-- UNPACK on a READY block completes. -/
theorem exec_unpack {sc : BitVec 5} {s : State} (hs : sc.toNat < 30) (hr : s.run = .ready) :
    exec (.unpack sc) s = .next { s with
      code := s.code.set sc.toNat (unpackLoop s.pkw[sc.toNat] (s.pki[sc.toNat]).toNat s.code[sc.toNat]) } := by
  show issueEffect _ _ _ = _
  rw [withSubcarrier_of_lt hs, unpackEffect, issueEffect_done hr]
  rfl

end Sys2Proof.Machine
end

