-- ==== Sys2Proof/Laws/Decomposer.lean ====
section
/-! SUPPORT. DECOMP: the entries of the matrix after each step, and its outputs, by which of its `CalcPsi` are specified. -/

namespace Sys2Proof.Machine

theorem applyColumnPhases_get (v : CMatrix) (r c : Fin 3) : (applyColumnPhases v)[r][c] = cmul v[r][c] (cisn (carg v[2][c])) := by
  simp [applyColumnPhases, columnPhase]

theorem phaseRow_get (phi : F) (a : CRow) (c : Fin 3) : (phaseRow phi a)[c] = cmul (cisn phi) a[c] := by simp [phaseRow]

theorem rotateUpper_get (psi : F) (a b : CRow) (c : Fin 3) :
    (rotateUpper psi a b)[c] = cadd (smul (cos psi) a[c]) (smul (sin psi) b[c]) := by simp [rotateUpper]

theorem rotateLower_get (psi : F) (a b : CRow) (c : Fin 3) :
    (rotateLower psi a b)[c] = cadd (smul (fneg (sin psi)) a[c]) (smul (cos psi) b[c]) := by simp [rotateLower]

theorem correctRows_get (p q : F) (v : CMatrix) (r c : Fin 3) :
    (correctRows p q v)[r][c] = if r = 0 then cmul (cisn p) v[0][c] else if r = 1 then cmul (cisn q) v[1][c] else v[2][c] := by
  match r with
  | 0 => exact phaseRow_get p v[0] c
  | 1 => exact phaseRow_get q v[1] c
  | 2 => rfl

theorem rotate01_get (psi : F) (v : CMatrix) (r c : Fin 3) :
    (rotate01 psi v)[r][c] =
      if r = 0 then cadd (smul (cos psi) v[0][c]) (smul (sin psi) v[1][c])
      else if r = 1 then cadd (smul (fneg (sin psi)) v[0][c]) (smul (cos psi) v[1][c]) else v[2][c] := by
  match r with
  | 0 => exact rotateUpper_get psi v[0] v[1] c
  | 1 => exact rotateLower_get psi v[0] v[1] c
  | 2 => rfl

theorem rotate02_get (psi : F) (v : CMatrix) (r c : Fin 3) :
    (rotate02 psi v)[r][c] =
      if r = 0 then cadd (smul (cos psi) v[0][c]) (smul (sin psi) v[2][c])
      else if r = 1 then v[1][c] else cadd (smul (fneg (sin psi)) v[0][c]) (smul (cos psi) v[2][c]) := by
  match r with
  | 0 => exact rotateUpper_get psi v[0] v[2] c
  | 1 => rfl
  | 2 => exact rotateLower_get psi v[0] v[2] c

theorem correctRow1_get (phi : F) (v : CMatrix) (r c : Fin 3) :
    (correctRow1 phi v)[r][c] = if r = 1 then cmul (cisn phi) v[1][c] else v[r][c] := by
  match r with
  | 0 => rfl
  | 1 => exact phaseRow_get phi v[1] c
  | 2 => rfl

/-- `CalcPsi` of two arguments that are not both zero (R125). -/
theorem calcPsi?_of_not_zero {x1 x2 : F} (h : ¬ (fIsZero x1 = true ∧ fIsZero x2 = true)) :
    calcPsi? x1 x2 = some (acos (fdiv x1 (fsqrt (fadd (fmul x1 x1) (fmul x2 x2))))) := by
  unfold calcPsi?
  rw [if_neg (by simpa using h)]

/-- `V2` (R124) of a matrix. -/
abbrev stageV2 (v : CMatrix) : CMatrix :=
  correctRows (norm2pi (carg (applyColumnPhases v)[0][0])) (norm2pi (carg (applyColumnPhases v)[1][0])) (applyColumnPhases v)

/-- The six angles where the three `CalcPsi` are specified. -/
theorem decompose_of_some {v : CMatrix} {psi21 psi31 psi32 : F}
    (h21 : calcPsi? (stageV2 v)[0][0].re (stageV2 v)[1][0].re = some psi21)
    (h31 : calcPsi? (rotate01 psi21 (stageV2 v))[0][0].re (rotate01 psi21 (stageV2 v))[2][0].re = some psi31)
    (h32 : (finalAngles (rotate02 psi31 (rotate01 psi21 (stageV2 v))))[1] = some psi32) :
    decompose v = #v[some (norm2pi (carg (applyColumnPhases v)[0][0])), some (norm2pi (carg (applyColumnPhases v)[1][0])),
      some psi21, some psi31, some (norm2pi (carg (rotate02 psi31 (rotate01 psi21 (stageV2 v)))[1][1])), some psi32] := by
  unfold decompose
  simp only [h21, h31, h32]
  rfl

/-- Where the first `CalcPsi` has two zero arguments, only the two phases before it are specified. -/
theorem decompose_of_none {v : CMatrix} (h21 : calcPsi? (stageV2 v)[0][0].re (stageV2 v)[1][0].re = none) :
    decompose v = #v[some (norm2pi (carg (applyColumnPhases v)[0][0])), some (norm2pi (carg (applyColumnPhases v)[1][0])),
      none, none, none, none] := by
  unfold decompose
  simp only [h21]

/-- Where the second `CalcPsi` is the first with two zero arguments, the three angles before it are specified. -/
theorem decompose_of_some_none {v : CMatrix} {psi21 : F} (h21 : calcPsi? (stageV2 v)[0][0].re (stageV2 v)[1][0].re = some psi21)
    (h31 : calcPsi? (rotate01 psi21 (stageV2 v))[0][0].re (rotate01 psi21 (stageV2 v))[2][0].re = none) :
    decompose v = #v[some (norm2pi (carg (applyColumnPhases v)[0][0])), some (norm2pi (carg (applyColumnPhases v)[1][0])),
      some psi21, none, none, none] := by
  unfold decompose
  simp only [h21, h31]

/-- Where the first two `CalcPsi` are specified, all but the last angle are, and the last is what its `CalcPsi` gives. -/
theorem decompose_of_some_some {v : CMatrix} {psi21 psi31 : F}
    (h21 : calcPsi? (stageV2 v)[0][0].re (stageV2 v)[1][0].re = some psi21)
    (h31 : calcPsi? (rotate01 psi21 (stageV2 v))[0][0].re (rotate01 psi21 (stageV2 v))[2][0].re = some psi31) :
    decompose v = #v[some (norm2pi (carg (applyColumnPhases v)[0][0])), some (norm2pi (carg (applyColumnPhases v)[1][0])),
      some psi21, some psi31, some (norm2pi (carg (rotate02 psi31 (rotate01 psi21 (stageV2 v)))[1][1])),
      (finalAngles (rotate02 psi31 (rotate01 psi21 (stageV2 v))))[1]] := by
  unfold decompose
  simp only [h21, h31]
  rfl

/-- A specified output is stored as it is. -/
theorem fillAngles_of_some {k : Fin 30} {n : Nat} {a : Vector (Option F) 6} {i : Fin 6} {x : F} (h : a[i] = some x) :
    (fillAngles k n a)[i] = x := by
  simp only [fillAngles, Fin.getElem_fin, Vector.getElem_ofFn] at h ⊢
  rw [h]
  rfl

/-- Six specified angles are stored as they are and use up no free value. -/
theorem writeAngles_some (k : Fin 30) (a : Vector F 6) (s : State) :
    s.writeAngles k (a.map some) = { s with ang := s.ang.set k a, tag := s.tag.set k fixedTags } := by
  have h1 : fillAngles k s.draws[k] (a.map some) = a := by
    apply Vector.ext
    intro i hi
    simp [fillAngles]
  have h2 : drawsOf (a.map some) = 0 := by simp [drawsOf]
  unfold State.writeAngles
  rw [h1, h2]
  simp

/-- DECOMP of a 3 x 3 matrix on a READY block completes. -/
theorem exec_decomp {sc : BitVec 5} {s : State} (hs : sc.toNat < 30) (hr : s.run = .ready) (h1 : s.nrx = 3#8) (h2 : s.ntx = 3#8) :
    exec (.decomp sc) s = .next (s.writeAngles ⟨sc.toNat, hs⟩ (decompose s.csi[sc.toNat])) := by
  show issueEffect _ _ _ = _
  rw [withSubcarrier_of_lt hs]
  unfold decompEffect
  rw [if_neg (by simp [h1, h2]), issueEffect_done hr]
  rfl

end Sys2Proof.Machine
end

