-- ==== Sys2Proof/Laws/Extractor.lean ====
section
/-! SUPPORT. The loops of CSIX: where each pass reads, what it writes, and where the cursor ends. -/

namespace Sys2Proof.Machine

@[simp] theorem CMatrix.write_same (v : CMatrix) (r c : Fin 3) (z : CPair) : (CMatrix.write v r c z)[r][c] = z := by
  simp [CMatrix.write]

theorem CMatrix.write_other (v : CMatrix) {r c r' c' : Fin 3} (h : (r', c') ≠ (r, c)) (z : CPair) :
    (CMatrix.write v r c z)[r'][c'] = v[r'][c'] := by
  unfold CMatrix.write
  rcases eq_or_ne r' r with rfl | hr
  · have hc : ¬ c.val = c'.val := fun e => h (by rw [Fin.ext e])
    simp [hc]
  · have : ¬ r.val = r'.val := fun e => hr (Fin.ext e.symm)
    simp [this]

/-! ### The inner loop -/

theorem extractPair_some {m : Memory} {base rem : Nat} {acc : Nat × CMatrix} {rc : Fin 3 × Fin 3} {z : CPair}
    (h : readPair m base rem acc.1 = some z) :
    extractPair m base rem acc rc = some (acc.1 + 16, CMatrix.write acc.2 rc.1 rc.2 z) := by
  simp [extractPair, h, Config.pairBits]

theorem extractPair_none {m : Memory} {base rem : Nat} {acc : Nat × CMatrix} {rc : Fin 3 × Fin 3}
    (h : readPair m base rem acc.1 = none) : extractPair m base rem acc rc = none := by simp [extractPair, h]

/-- When the inner loop ends, the cursor has moved 16 bits a pair, and the cell of the pair in place `j` of the list holds what was
read `16 * j` bits after the start; every other cell is unchanged. -/
theorem extractPairs_some {m : Memory} {base rem : Nat} {l : List (Fin 3 × Fin 3)} {cur cur' : Nat} {v v' : CMatrix}
    (h : l.foldlM (extractPair m base rem) (cur, v) = some (cur', v')) (hl : l.Nodup) :
    cur' = cur + 16 * l.length ∧
    (∀ r c : Fin 3, (r, c) ∈ l → readPair m base rem (cur + 16 * l.idxOf (r, c)) = some v'[r][c]) ∧
    ∀ r c : Fin 3, (r, c) ∉ l → v'[r][c] = v[r][c] := by
  induction l generalizing cur v with
  | nil =>
    simp at h
    obtain ⟨rfl, rfl⟩ := h
    simp
  | cons p l ih =>
    obtain ⟨hp, hl⟩ := List.nodup_cons.mp hl
    rw [List.foldlM_cons] at h
    cases hz : readPair m base rem cur with
    | none =>
      rw [extractPair_none (acc := (cur, v)) hz] at h
      simp at h
    | some z =>
      rw [extractPair_some (acc := (cur, v)) hz] at h
      obtain ⟨h1, h2, h3⟩ := ih h hl
      refine ⟨by rw [h1, List.length_cons]; omega, fun r c hrc => ?_, fun r c hrc => ?_⟩
      · rcases eq_or_ne (r, c) p with e | hne
        · have e1 : (p :: l).idxOf (r, c) = 0 := by rw [e, List.idxOf_cons_self]
          have e2 : v'[r][c] = z := by
            rw [h3 r c (by rw [e]; exact hp)]
            obtain ⟨r', c'⟩ := p
            cases e
            exact CMatrix.write_same _ _ _ _
          rw [e1, e2]
          exact hz
        · have hmem : (r, c) ∈ l := by
            rcases List.mem_cons.mp hrc with e | e
            · exact absurd e hne
            · exact e
          have e1 : (p :: l).idxOf (r, c) = l.idxOf (r, c) + 1 := List.idxOf_cons_ne l (Ne.symm hne)
          rw [e1, ← h2 r c hmem]
          congr 1
          simp only
          ring
      · have hne : (r, c) ≠ p := fun e => hrc (by rw [e]; exact List.mem_cons_self)
        rw [h3 r c (fun e => hrc (List.mem_cons_of_mem _ e))]
        exact CMatrix.write_other _ hne _

/-- The inner loop ends when every pair it reaches can be read. -/
theorem extractPairs_isSome {m : Memory} {base rem : Nat} {l : List (Fin 3 × Fin 3)} {cur : Nat} {v : CMatrix}
    (h : ∀ j, j < l.length → (readPair m base rem (cur + 16 * j)).isSome) :
    (l.foldlM (extractPair m base rem) (cur, v)).isSome := by
  induction l generalizing cur v with
  | nil => simp
  | cons p l ih =>
    rw [List.foldlM_cons]
    obtain ⟨z, hz⟩ := Option.isSome_iff_exists.mp (h 0 (by simp))
    rw [extractPair_some (acc := (cur, v)) (by simpa using hz)]
    apply ih
    intro j hj
    have := h (j + 1) (by simpa using hj)
    rwa [show cur + 16 * (j + 1) = cur + 16 + 16 * j by ring] at this

/-! ### The antenna pairs -/

/-- The pairs of a legal shape: as many as the product of the counts, all different, the `j`-th being `r = j div ntx`, `c = j mod ntx` (R105). -/
theorem antennaPairs_spec {nrx ntx : Nat} (h1 : 1 ≤ nrx) (h2 : nrx ≤ 3) (h3 : 1 ≤ ntx) (h4 : ntx ≤ 3) :
    (antennaPairs nrx ntx).length = nrx * ntx ∧ (antennaPairs nrx ntx).Nodup ∧
    ∀ r c : Fin 3, ((r, c) ∈ antennaPairs nrx ntx ↔ r.val < nrx ∧ c.val < ntx) ∧
      (r.val < nrx ∧ c.val < ntx → (antennaPairs nrx ntx).idxOf (r, c) = ntx * r.val + c.val) := by
  interval_cases nrx <;> interval_cases ntx <;> decide

/-! ### The outer loop -/

/-- One pass of the outer loop that ends. -/
theorem extractSubcarrier_some {m : Memory} {base nrx ntx : Nat} {acc acc' : Nat × Vector CMatrix 30} {k : Fin 30}
    (h : extractSubcarrier m base nrx ntx acc k = some acc') :
    ∃ v, (antennaPairs nrx ntx).foldlM (extractPair m base ((acc.1 + 3) % 8)) (acc.1 + 3, acc.2[k]) = some (acc'.1, v) ∧
      acc'.2 = acc.2.set k v := by
  unfold extractSubcarrier at h
  simp only [Config.padBits, Option.bind_eq_bind] at h
  cases hf : (antennaPairs nrx ntx).foldlM (extractPair m base ((acc.1 + 3) % 8)) (acc.1 + 3, acc.2[k]) with
  | none =>
    rw [hf] at h
    simp at h
  | some q =>
    rw [hf] at h
    obtain ⟨cur', v⟩ := q
    simp at h
    subst h
    exact ⟨v, rfl, rfl⟩

/-- When the outer loop ends over the subcarriers of `l`, each of them has had one inner loop, started at its place in the list. -/
theorem extractSubcarriers_some {m : Memory} {base nrx ntx : Nat} (h1 : 1 ≤ nrx) (h2 : nrx ≤ 3) (h3 : 1 ≤ ntx) (h4 : ntx ≤ 3)
    {l : List (Fin 30)} {cur cur' : Nat} {t t' : Vector CMatrix 30}
    (h : l.foldlM (extractSubcarrier m base nrx ntx) (cur, t) = some (cur', t')) (hl : l.Nodup) :
    cur' = cur + (3 + 16 * (nrx * ntx)) * l.length ∧
    (∀ k ∈ l, ∃ c', (antennaPairs nrx ntx).foldlM
        (extractPair m base ((cur + (3 + 16 * (nrx * ntx)) * l.idxOf k + 3) % 8))
        (cur + (3 + 16 * (nrx * ntx)) * l.idxOf k + 3, t[k]) = some (c', t'[k])) ∧
    ∀ k : Fin 30, k ∉ l → t'[k] = t[k] := by
  obtain ⟨hlen, hnd, -⟩ := antennaPairs_spec h1 h2 h3 h4
  induction l generalizing cur t with
  | nil =>
    simp at h
    obtain ⟨rfl, rfl⟩ := h
    simp
  | cons p l ih =>
    obtain ⟨hp, hl⟩ := List.nodup_cons.mp hl
    rw [List.foldlM_cons] at h
    cases hz : extractSubcarrier m base nrx ntx (cur, t) p with
    | none =>
      rw [hz] at h
      simp at h
    | some acc =>
      rw [hz] at h
      obtain ⟨c1, t1⟩ := acc
      obtain ⟨v, hv, ht⟩ := extractSubcarrier_some hz
      simp only at hv ht
      subst ht
      have hc := (extractPairs_some hv hnd).1
      rw [hlen] at hc
      obtain ⟨i1, i2, i3⟩ := ih h hl
      have same : ∀ k : Fin 30, k ≠ p → (t.set p v)[k] = t[k] := by
        intro k hk
        have : ¬ p.val = k.val := fun e => hk (Fin.ext e.symm)
        simp [this]
      refine ⟨by rw [i1, hc, List.length_cons]; ring, fun k hk => ?_, fun k hk => ?_⟩
      · rcases eq_or_ne k p with rfl | hne
        · rw [List.idxOf_cons_self, i3 k hp]
          refine ⟨c1, ?_⟩
          simpa using hv
        · have hmem : k ∈ l := by
            rcases List.mem_cons.mp hk with e | e
            · exact absurd e hne
            · exact e
          obtain ⟨c', hc'⟩ := i2 k hmem
          refine ⟨c', ?_⟩
          rw [List.idxOf_cons_ne l (Ne.symm hne)]
          rw [same k hne, hc] at hc'
          rw [show cur + (3 + 16 * (nrx * ntx)) * (l.idxOf k + 1) + 3 =
            cur + 3 + 16 * (nrx * ntx) + (3 + 16 * (nrx * ntx)) * l.idxOf k + 3 by ring]
          exact hc'
      · rw [i3 k fun e => hk (List.mem_cons_of_mem _ e)]
        exact same k fun e => hk (by rw [e]; exact List.mem_cons_self)

/-- The outer loop ends when every pair of every subcarrier it reaches can be read. -/
theorem extractSubcarriers_isSome {m : Memory} {base nrx ntx : Nat} (h1 : 1 ≤ nrx) (h2 : nrx ≤ 3) (h3 : 1 ≤ ntx) (h4 : ntx ≤ 3)
    {l : List (Fin 30)} {cur : Nat} {t : Vector CMatrix 30}
    (h : ∀ a j, a < l.length → j < nrx * ntx →
      (readPair m base ((cur + (3 + 16 * (nrx * ntx)) * a + 3) % 8) (cur + (3 + 16 * (nrx * ntx)) * a + 3 + 16 * j)).isSome) :
    (l.foldlM (extractSubcarrier m base nrx ntx) (cur, t)).isSome := by
  obtain ⟨hlen, hnd, -⟩ := antennaPairs_spec h1 h2 h3 h4
  induction l generalizing cur t with
  | nil => simp
  | cons p l ih =>
    rw [List.foldlM_cons]
    have hin : ((antennaPairs nrx ntx).foldlM (extractPair m base ((cur + 3) % 8)) (cur + 3, t[p])).isSome := by
      apply extractPairs_isSome
      intro j hj
      have := h 0 j (by simp) (by omega)
      simpa using this
    obtain ⟨⟨c1, v⟩, hv⟩ := Option.isSome_iff_exists.mp hin
    have hc := (extractPairs_some hv hnd).1
    rw [hlen] at hc
    have hstep : extractSubcarrier m base nrx ntx (cur, t) p = some (c1, t.set p v) := by
      simp only [extractSubcarrier, Config.padBits]
      rw [hv]
      rfl
    rw [hstep]
    apply ih
    intro a j ha hj
    have := h (a + 1) j (by simpa using ha) hj
    rw [hc]
    rwa [show cur + (3 + 16 * (nrx * ntx)) * (a + 1) + 3 =
      cur + 3 + 16 * (nrx * ntx) + (3 + 16 * (nrx * ntx)) * a + 3 by ring] at this

/-- The final cursor (R110). -/
theorem extractTensor_cursor {m : Memory} {base nrx ntx : Nat} (h1 : 1 ≤ nrx) (h2 : nrx ≤ 3) (h3 : 1 ≤ ntx) (h4 : ntx ≤ 3)
    {cur : Nat} {t t' : Vector CMatrix 30} (h : extractTensor m base nrx ntx t = some (cur, t')) : cur = 90 + 480 * (nrx * ntx) := by
  have := (extractSubcarriers_some h1 h2 h3 h4 h (List.nodup_finRange 30)).1
  rw [List.length_finRange] at this
  omega

/-! ### The window -/

/-- The window by division: the part of the first byte above the offset, then the second byte above that (R103). -/
theorem window_toNat (lo hi : Byte) {p : Nat} (hp : p < 8) :
    (window lo hi p).toNat = (lo.toNat / 2 ^ p + hi.toNat * 2 ^ (8 - p)) % 256 := by
  have hlo := lo.isLt
  have hb : lo.toNat >>> p < 2 ^ (8 - p) := by
    rw [Nat.shiftRight_eq_div_pow, Nat.div_lt_iff_lt_mul (by positivity), ← pow_add]
    rwa [show 8 - p + p = 8 by omega]
  unfold window
  rw [Nat.or_comm, ← Nat.shiftLeft_add_eq_or_of_lt hb, Nat.shiftLeft_eq, Nat.shiftRight_eq_div_pow]
  rw [show (0xFF : Nat) = 2 ^ 8 - 1 by norm_num, Nat.and_two_pow_sub_one_eq_mod]
  simp [Nat.add_comm]

/-- What a pair holds when its three bytes can be read. -/
theorem readPair_some {m : Memory} {base rem cur : Nat} {b0 b1 b2 : Byte} (h0 : m.read (base + cur / 8) = some b0)
    (h1 : m.read (base + (cur / 8 + 1)) = some b1) (h2 : m.read (base + (cur / 8 + 2)) = some b2) :
    readPair m base rem cur = some ⟨component (window b0 b1 rem), component (window b1 b2 rem)⟩ := by
  have h1' : m.read (base + cur / 8 + 1) = some b1 := by rw [Nat.add_assoc]; exact h1
  have h2' : m.read (base + (cur / 8 + 1) + 1) = some b2 := by rw [Nat.add_assoc]; exact h2
  simp [readPair, window8, h0, h1, h1', h2']

end Sys2Proof.Machine
end

