-- ==== Sys2Proof/Laws/Header.lean ====
section
/-! SUPPORT. HDR: the fields read from the bytes of a header, and the command on a READY block. -/

namespace Sys2Proof.Machine

/-- `LE16` as a number (20_memory.md R52). -/
theorem le16_eq (lo hi : Byte) : le16 lo hi = BitVec.ofNat 16 (lo.toNat + 256 * hi.toNat) := by
  apply BitVec.eq_of_toNat_eq
  have := lo.isLt
  have := hi.isLt
  simp [le16, Nat.shiftLeft_eq]
  omega

/-- The permutation as numbers (40_header_parser.md R94). -/
theorem permOf_eq (b : Byte) :
    permOf b = #v[BitVec.ofNat 3 (b.toNat % 4 + 1), BitVec.ofNat 3 (b.toNat / 4 % 4 + 1), BitVec.ofNat 3 (b.toNat / 16 % 4 + 1)] := by
  revert b
  decide +kernel

theorem badCount_some {b : Byte} : badCount (some b) = true ↔ b.toNat < 1 ∨ 3 < b.toNat := by
  simp only [badCount, Bool.not_eq_true', ← Bool.not_eq_true, isCount_iff]
  omega

/-- The header in the bytes `h 0` to `h 18`. -/
def headerOf (h : Nat → Byte) : FrameHeader where
  noise := #v[h 0, h 1, h 2]
  fcnt := le16 (h 3) (h 4)
  nrx := h 7
  ntx := h 8
  rssi := #v[h 9, h 10, h 11]
  rnoise := h 12
  agc := h 13
  antsel := h 14
  flen := le16 (h 15) (h 16)
  rate := le16 (h 17) (h 18)

/-- The header is read from its 17 bytes; bytes 5 and 6 may have no value (R58). -/
theorem readHeader_of_bytes {m : Memory} {pre : Nat} {h : Nat → Byte}
    (g : ∀ k, k < 19 → k ≠ 5 → k ≠ 6 → Memory.read (pre + k) m = some (h k)) : readHeader m pre = some (headerOf h) := by
  have e0 := g 0 (by omega) (by omega) (by omega)
  have e1 := g 1 (by omega) (by omega) (by omega)
  have e2 := g 2 (by omega) (by omega) (by omega)
  have e3 := g 3 (by omega) (by omega) (by omega)
  have e4 := g 4 (by omega) (by omega) (by omega)
  have e7 := g 7 (by omega) (by omega) (by omega)
  have e8 := g 8 (by omega) (by omega) (by omega)
  have e9 := g 9 (by omega) (by omega) (by omega)
  have e10 := g 10 (by omega) (by omega) (by omega)
  have e11 := g 11 (by omega) (by omega) (by omega)
  have e12 := g 12 (by omega) (by omega) (by omega)
  have e13 := g 13 (by omega) (by omega) (by omega)
  have e14 := g 14 (by omega) (by omega) (by omega)
  have e15 := g 15 (by omega) (by omega) (by omega)
  have e16 := g 16 (by omega) (by omega) (by omega)
  have e17 := g 17 (by omega) (by omega) (by omega)
  have e18 := g 18 (by omega) (by omega) (by omega)
  simp only [readHeader, read3, readLE16, Nat.add_assoc, Nat.add_zero] at e0 ⊢
  norm_num
  simp [e0, e1, e2, e3, e4, e7, e8, e9, e10, e11, e12, e13, e14, e15, e16, e17, e18, headerOf]

/-- HDR of a long enough buffer whose 17 bytes are written. -/
theorem hdrEffect_of_bytes {p : Bool} {s : State} {h : Nat → Byte} (hl : prefixLen p + 19 ≤ s.bufLen)
    (g : ∀ k, k < 19 → k ≠ 5 → k ≠ 6 → s.memRead (prefixLen p + k) = some (h k)) :
    hdrEffect p s =
      if ((h 7).toNat < 1 ∨ 3 < (h 7).toNat) ∨ (h 8).toNat < 1 ∨ 3 < (h 8).toNat then .raise .malformedHeader
      else .done (s.writeHeader (headerOf h) (prefixLen p)) := by
  have hn : ¬ s.bufLen < prefixLen p + Config.hdrLen := Nat.not_lt.mpr hl
  have e7 := g 7 (by omega) (by omega) (by omega)
  have e8 := g 8 (by omega) (by omega) (by omega)
  unfold hdrEffect
  rw [if_neg hn, e7, e8, readHeader_of_bytes g]
  simp only [Bool.or_eq_true, badCount_some]

/-- HDR of a buffer that is too short. -/
theorem hdrEffect_of_short {p : Bool} {s : State} (hl : s.bufLen < prefixLen p + 19) : hdrEffect p s = .raise .malformedHeader := by
  unfold hdrEffect
  exact if_pos hl

end Sys2Proof.Machine
end

