-- ==== Sys2Proof/Laws/Memory.lean ====
section
/-! SUPPORT. Laws of the capture buffer: read after write, a write leaves every other address alone, and the canonical form is kept. -/

namespace Sys2Proof.Machine

@[simp] theorem Memory.read_nil (a : Nat) : Memory.read a [] = none := rfl

@[simp] theorem Memory.read_write_same (a : Nat) (v : Byte) (m : Memory) : Memory.read a (Memory.write a v m) = some v := by
  induction m with
  | nil => simp [Memory.write, Memory.read]
  | cons c m ih =>
    obtain ⟨b, u⟩ := c
    unfold Memory.write
    split
    · simp [Memory.read]
    · split
      · simp [Memory.read]
      · next h => simp [Memory.read, h, ih]

theorem Memory.read_write_other {a a' : Nat} (h : a' ≠ a) (v : Byte) (m : Memory) :
    Memory.read a' (Memory.write a v m) = Memory.read a' m := by
  induction m with
  | nil => simp [Memory.write, Memory.read, h, Memory.unlisted]
  | cons c m ih =>
    obtain ⟨b, u⟩ := c
    unfold Memory.write
    split
    · simp [Memory.read, h]
    · split
      · next hab =>
        subst hab
        simp [Memory.read, h]
      · simp [Memory.read, ih]

/-- Every address listed after a write was listed before or is the one written. -/
theorem Memory.mem_write {a : Nat} {v : Byte} {m : Memory} {c : Host.Cell} (h : c ∈ Memory.write a v m) :
    c = (a, v) ∨ c ∈ m := by
  induction m with
  | nil => simpa [Memory.write] using h
  | cons d m ih =>
    obtain ⟨b, u⟩ := d
    unfold Memory.write at h
    split at h
    · simpa using h
    · split at h
      · rcases List.mem_cons.mp h with h | h
        · exact Or.inl h
        · exact Or.inr (List.mem_cons_of_mem _ h)
      · rcases List.mem_cons.mp h with h | h
        · exact Or.inr (by simp [h])
        · rcases ih h with h | h
          · exact Or.inl h
          · exact Or.inr (List.mem_cons_of_mem _ h)

theorem Memory.wf_nil : Memory.wf [] := ⟨List.Pairwise.nil, by simp⟩

/-- A write keeps the canonical form. -/
theorem Memory.wf_write (a : Nat) (v : Byte) {m : Memory} (h : Memory.wf m) : Memory.wf (Memory.write a v m) := by
  refine ⟨?_, by simp [Memory.unlisted]⟩
  obtain ⟨h, -⟩ := h
  induction m with
  | nil => simp [Memory.write]
  | cons c m ih =>
    obtain ⟨b, u⟩ := c
    obtain ⟨hb, hm⟩ := List.pairwise_cons.mp h
    unfold Memory.write
    split
    · next hab =>
      refine List.pairwise_cons.mpr ⟨fun d hd => ?_, h⟩
      rcases List.mem_cons.mp hd with rfl | hd
      · exact hab
      · exact lt_trans hab (hb d hd)
    · split
      · next hab =>
        subst hab
        exact List.pairwise_cons.mpr ⟨hb, hm⟩
      · refine List.pairwise_cons.mpr ⟨fun d hd => ?_, ih hm⟩
        rcases Memory.mem_write hd with rfl | hd
        · show b < a
          omega
        · exact hb d hd

/-- Two canonical buffers that read the same are the same list. -/
theorem Memory.ext_of_read {m m' : Memory} (h : Memory.wf m) (h' : Memory.wf m')
    (hr : ∀ a, Memory.read a m = Memory.read a m') : m = m' := by
  have gone : ∀ (n : Memory) (b : Nat), (∀ c ∈ n, b < c.1) → Memory.read b n = none := by
    intro n b hb
    induction n with
    | nil => rfl
    | cons c n ih =>
      obtain ⟨e, u⟩ := c
      have : b < e := hb (e, u) (by simp)
      unfold Memory.read
      rw [if_neg (by omega)]
      exact ih fun d hd => hb d (List.mem_cons_of_mem _ hd)
  have head : ∀ (b : Nat) (u : Byte) (n : Memory), Memory.read b ((b, u) :: n) = some u := by simp [Memory.read]
  obtain ⟨h, -⟩ := h
  obtain ⟨h', -⟩ := h'
  induction m generalizing m' with
  | nil =>
    cases m' with
    | nil => rfl
    | cons c n =>
      have := hr c.1
      rw [head] at this
      simp at this
  | cons c n ih =>
    obtain ⟨b, u⟩ := c
    obtain ⟨hb, hn⟩ := List.pairwise_cons.mp h
    cases m' with
    | nil =>
      have := hr b
      rw [head] at this
      simp at this
    | cons c' n' =>
      obtain ⟨b', u'⟩ := c'
      obtain ⟨hb', hn'⟩ := List.pairwise_cons.mp h'
      have hbb : b = b' := by
        rcases lt_trichotomy b b' with hlt | rfl | hlt
        · have e := hr b
          rw [head, gone _ b fun d hd => ?_] at e
          · cases e
          · rcases List.mem_cons.mp hd with rfl | hd
            · exact hlt
            · exact lt_trans hlt (hb' d hd)
        · rfl
        · have e := hr b'
          rw [head, gone _ b' fun d hd => ?_] at e
          · cases e
          · rcases List.mem_cons.mp hd with rfl | hd
            · exact hlt
            · exact lt_trans hlt (hb d hd)
      subst hbb
      have huu : u = u' := by
        have e := hr b
        rw [head, head] at e
        exact Option.some.inj e
      subst huu
      congr 1
      refine ih (fun a => ?_) hn hn'
      rcases eq_or_ne a b with rfl | hne
      · rw [gone n a hb, gone n' a hb']
      · have e := hr a
        simpa [Memory.read, hne] using e

end Sys2Proof.Machine
end

