-- ==== Sys2Proof/Laws/Round.lean ====
section
/-! SUPPORT. Rounding: `roundDiv` and `roundBits` are exact on representable values, monotone, and nearest. -/

namespace Sys2Proof.Machine

/-! ### `roundDiv` -/

theorem roundDiv_cases (n d : Nat) (hd : 0 < d) :
    (2 * n < (2 * roundDiv n d + 1) * d ∨ (2 * n = (2 * roundDiv n d + 1) * d ∧ roundDiv n d % 2 = 0)) ∧
    (2 * roundDiv n d * d < 2 * n + d ∨ (2 * roundDiv n d * d = 2 * n + d ∧ roundDiv n d % 2 = 0)) := by
  have hn : d * (n / d) + n % d = n := Nat.div_add_mod n d
  have hr : n % d < d := Nat.mod_lt n hd
  unfold roundDiv
  generalize n / d = q at *
  generalize n % d = r at *
  subst hn
  simp only
  split
  · next h =>
    constructor
    · left; nlinarith
    · left; nlinarith
  · split
    · next h =>
      rcases Nat.mod_two_eq_zero_or_one q with hq | hq
      · rw [hq]
        constructor
        · right; constructor
          · nlinarith
          · omega
        · left; nlinarith
      · rw [hq]
        constructor
        · left; nlinarith
        · right; constructor
          · nlinarith
          · omega
    · have : 2 * r < d := by omega
      constructor
      · left; nlinarith
      · left; nlinarith

theorem roundDiv_mono {n₁ d₁ n₂ d₂ : Nat} (h₁ : 0 < d₁) (h₂ : 0 < d₂) (h : n₁ * d₂ ≤ n₂ * d₁) :
    roundDiv n₁ d₁ ≤ roundDiv n₂ d₂ := by
  by_contra hlt
  obtain ⟨-, lo⟩ := roundDiv_cases n₁ d₁ h₁
  obtain ⟨hi, -⟩ := roundDiv_cases n₂ d₂ h₂
  generalize roundDiv n₁ d₁ = a at *
  generalize roundDiv n₂ d₂ = b at *
  have hab : b + 1 ≤ a := by omega
  have hdd : 0 < d₁ * d₂ := Nat.mul_pos h₁ h₂
  have key : (2 * b + 1) * (d₁ * d₂) ≤ (2 * a - 1) * (d₁ * d₂) := Nat.mul_le_mul_right _ (by omega)
  have ha : 2 * a * (d₁ * d₂) = (2 * a - 1) * (d₁ * d₂) + d₁ * d₂ := by
    obtain ⟨c, rfl⟩ : ∃ c, a = c + 1 := ⟨a - 1, by omega⟩
    have : 2 * (c + 1) - 1 = 2 * c + 1 := by omega
    rw [this]; ring
  rcases lo with lo | ⟨lo, ea⟩
  · rcases hi with hi | ⟨hi, eb⟩
    · nlinarith
    · nlinarith
  · rcases hi with hi | ⟨hi, eb⟩
    · nlinarith
    · have : (2 * a - 1) * (d₁ * d₂) ≤ (2 * b + 1) * (d₁ * d₂) := by nlinarith
      have := Nat.le_of_mul_le_mul_right this hdd
      omega

theorem roundDiv_mul_right (a d : Nat) (hd : 0 < d) : roundDiv (a * d) d = a := by
  unfold roundDiv
  simp [Nat.mul_div_cancel a hd]
  omega

theorem roundDiv_one (a : Nat) : roundDiv a 1 = a := by simpa using roundDiv_mul_right a 1 Nat.one_pos

theorem roundDiv_scale (n d c : Nat) (hd : 0 < d) (hc : 0 < c) : roundDiv (n * c) (d * c) = roundDiv n d :=
  le_antisymm (roundDiv_mono (by positivity) hd (by rw [Nat.mul_right_comm, Nat.mul_assoc]))
    (roundDiv_mono hd (by positivity) (by rw [Nat.mul_right_comm, Nat.mul_assoc]))

/-- A fraction between two integers rounds between them. -/
theorem le_roundDiv {a n d : Nat} (hd : 0 < d) (h : a * d ≤ n) : a ≤ roundDiv n d := by
  have := roundDiv_mono (n₁ := a) (d₁ := 1) (n₂ := n) (d₂ := d) Nat.one_pos hd (by omega)
  rwa [roundDiv_one] at this

theorem roundDiv_le {a n d : Nat} (hd : 0 < d) (h : n ≤ a * d) : roundDiv n d ≤ a := by
  have := roundDiv_mono (n₁ := n) (d₁ := d) (n₂ := a) (d₂ := 1) hd Nat.one_pos (by omega)
  rwa [roundDiv_one] at this

/-! ### `roundBits` -/

theorem ulpShift_lt (q : Nat) : q < 2 ^ (ulpShift q + 53) := by
  rcases Nat.eq_zero_or_pos q with rfl | h
  · positivity
  · have h1 : q < 2 ^ (q.log2 + 1) := Nat.lt_log2_self
    exact lt_of_lt_of_le h1 (Nat.pow_le_pow_right (by norm_num) (by unfold ulpShift; omega))

theorem le_of_ulpShift_pos {q : Nat} (h : 0 < ulpShift q) : 2 ^ (ulpShift q + 52) ≤ q := by
  have hq : q ≠ 0 := by
    rintro rfl
    simp [ulpShift] at h
  have h1 : 2 ^ q.log2 ≤ q := Nat.log2_self_le hq
  have : ulpShift q + 52 = q.log2 := by unfold ulpShift at *; omega
  rwa [this]

theorem ulpShift_mono {a b : Nat} (h : a ≤ b) : ulpShift a ≤ ulpShift b := by
  by_contra hlt
  have hpos : 0 < ulpShift a := by omega
  have h1 := le_of_ulpShift_pos hpos
  have h2 := ulpShift_lt b
  have h3 : 2 ^ (ulpShift b + 53) ≤ 2 ^ (ulpShift a + 52) := Nat.pow_le_pow_right (by norm_num) (by omega)
  omega

/-- The magnitude bits before the largest is cut off at infinity. -/
def roundRaw (n d : Nat) : Nat := ulpShift (n / d) * 2 ^ 52 + roundDiv n (d * 2 ^ ulpShift (n / d))

theorem roundBits_eq_min (n d : Nat) : roundBits n d = min (roundRaw n d) fInfBits := rfl

theorem roundRaw_mono {n₁ d₁ n₂ d₂ : Nat} (h₁ : 0 < d₁) (h₂ : 0 < d₂) (h : n₁ * d₂ ≤ n₂ * d₁) :
    roundRaw n₁ d₁ ≤ roundRaw n₂ d₂ := by
  have hq : n₁ / d₁ ≤ n₂ / d₂ := by
    rw [Nat.le_div_iff_mul_le h₂]
    have h3 : n₁ / d₁ * d₁ ≤ n₁ := Nat.div_mul_le_self _ _
    have : n₁ / d₁ * d₂ * d₁ ≤ n₂ * d₁ := by nlinarith
    exact Nat.le_of_mul_le_mul_right this h₁
  have ht := ulpShift_mono hq
  have l₁ := ulpShift_lt (n₁ / d₁)
  unfold roundRaw
  generalize ht₁ : ulpShift (n₁ / d₁) = t₁ at *
  generalize ht₂ : ulpShift (n₂ / d₂) = t₂ at *
  rcases Nat.eq_or_lt_of_le ht with rfl | hlt
  · have : roundDiv n₁ (d₁ * 2 ^ t₁) ≤ roundDiv n₂ (d₂ * 2 ^ t₁) :=
      roundDiv_mono (by positivity) (by positivity) (by nlinarith [Nat.two_pow_pos t₁])
    omega
  · have up : roundDiv n₁ (d₁ * 2 ^ t₁) ≤ 2 ^ 53 := by
      apply roundDiv_le (by positivity)
      have : n₁ < d₁ * 2 ^ (t₁ + 53) := by
        have := (Nat.div_lt_iff_lt_mul h₁).mp l₁
        linarith
      rw [pow_add] at this
      nlinarith
    have low : 2 ^ 52 ≤ roundDiv n₂ (d₂ * 2 ^ t₂) := by
      apply le_roundDiv (by positivity)
      have hp : 0 < ulpShift (n₂ / d₂) := by omega
      have h4 := le_of_ulpShift_pos hp
      rw [ht₂] at h4
      have : 2 ^ (t₂ + 52) * d₂ ≤ n₂ := (Nat.le_div_iff_mul_le h₂).mp h4
      rw [pow_add] at this
      nlinarith
    have : (t₁ + 1) * 2 ^ 52 ≤ t₂ * 2 ^ 52 := Nat.mul_le_mul_right _ hlt
    omega

/-- Rounding is monotone. -/
theorem roundBits_mono {n₁ d₁ n₂ d₂ : Nat} (h₁ : 0 < d₁) (h₂ : 0 < d₂) (h : n₁ * d₂ ≤ n₂ * d₁) :
    roundBits n₁ d₁ ≤ roundBits n₂ d₂ :=
  min_le_min_right _ (roundRaw_mono h₁ h₂ h)

theorem roundBits_scale (n d c : Nat) (hd : 0 < d) (hc : 0 < c) : roundBits (n * c) (d * c) = roundBits n d :=
  le_antisymm (roundBits_mono (by positivity) hd (by rw [Nat.mul_right_comm, Nat.mul_assoc]))
    (roundBits_mono hd (by positivity) (by rw [Nat.mul_right_comm, Nat.mul_assoc]))

theorem roundBits_le_inf (n d : Nat) : roundBits n d ≤ fInfBits := min_le_right _ _

end Sys2Proof.Machine
end

