-- ==== Sys2Proof/Laws/Num.lean ====
section
/-! SUPPORT. The parts of an `F` pattern, the magnitude a pattern stands for, how rounding goes (nearest, ties, overflow), and what the basic operations do on finite operands. -/

namespace Sys2Proof.Machine

/-! ### Parts of a pattern -/

/-- The 63 bits below the sign. -/
def fBits (x : F) : Nat := x.toNat % 2 ^ 63

theorem fBits_lt (x : F) : fBits x < 2 ^ 63 := Nat.mod_lt _ (by norm_num)

theorem fExp_eq (x : F) : fExp x = fBits x / 2 ^ 52 := by
  unfold fExp fBits
  simp [BitVec.extractLsb'_toNat, Nat.shiftRight_eq_div_pow]
  omega

theorem fFrac_eq (x : F) : fFrac x = fBits x % 2 ^ 52 := by
  unfold fFrac fBits
  simp [BitVec.extractLsb'_toNat]

theorem fSign_eq (x : F) : fSign x = decide (2 ^ 63 ≤ x.toNat) := by
  have := x.isLt
  unfold fSign BitVec.getLsbD
  rw [Nat.testBit_eq_decide_div_mod_eq]
  have : x.toNat / 2 ^ 63 % 2 = x.toNat / 2 ^ 63 := by omega
  rw [this]
  apply decide_eq_decide.mpr
  omega

theorem toNat_eq (x : F) : x.toNat = (if fSign x then 2 ^ 63 else 0) + fBits x := by
  have := x.isLt
  rw [fSign_eq]
  unfold fBits
  by_cases h : 2 ^ 63 ≤ x.toNat <;> simp only [h, decide_true, decide_false, if_true, Bool.false_eq_true, if_false] <;> omega

/-- A pattern is its sign and its bits. -/
theorem f_ext {x y : F} (hs : fSign x = fSign y) (hb : fBits x = fBits y) : x = y := by
  apply BitVec.eq_of_toNat_eq
  rw [toNat_eq x, toNat_eq y, hs, hb]

theorem fPack_toNat (neg : Bool) (b : Nat) (h : b < 2 ^ 63) : (fPack neg b).toNat = (if neg then 2 ^ 63 else 0) + b := by
  unfold fPack
  rw [BitVec.toNat_append]
  simp only [BitVec.toNat_ofNat, Nat.mod_eq_of_lt h]
  rw [← Nat.shiftLeft_add_eq_or_of_lt (by simpa using h)]
  cases neg <;> simp [Nat.shiftLeft_eq]

theorem fBits_fPack (neg : Bool) {b : Nat} (h : b < 2 ^ 63) : fBits (fPack neg b) = b := by
  unfold fBits
  rw [fPack_toNat neg b h]
  cases neg <;> simp <;> omega

theorem fSign_fPack (neg : Bool) {b : Nat} (h : b < 2 ^ 63) : fSign (fPack neg b) = neg := by
  rw [fSign_eq, fPack_toNat neg b h]
  cases neg <;> simp
  omega

theorem fPack_parts (x : F) : fPack (fSign x) (fBits x) = x :=
  f_ext (fSign_fPack _ (fBits_lt x)) (fBits_fPack _ (fBits_lt x))

/-! ### Magnitudes -/

/-- The magnitude that 63 bits stand for, in units of 2^-1074. -/
def magOf (b : Nat) : Nat := if b / 2 ^ 52 = 0 then b % 2 ^ 52 else (2 ^ 52 + b % 2 ^ 52) * 2 ^ (b / 2 ^ 52 - 1)

theorem fMag_eq (x : F) : fMag x = magOf (fBits x) := by simp only [fMag, magOf, fExp_eq, fFrac_eq]

/-- A normal or subnormal magnitude from its shift and its significand. -/
theorem magOf_shift (t q : Nat) (hq : q ≤ 2 ^ 53) (h : t = 0 ∨ 2 ^ 52 ≤ q) : magOf (t * 2 ^ 52 + q) = q * 2 ^ t := by
  unfold magOf
  rcases Nat.lt_or_ge q (2 ^ 52) with hlt | hge
  · obtain rfl : t = 0 := by omega
    have e1 : (0 * 2 ^ 52 + q) / 2 ^ 52 = 0 := by omega
    rw [if_pos e1]
    simp
    omega
  · rcases Nat.eq_or_lt_of_le hq with rfl | hlt
    · have e1 : (t * 2 ^ 52 + 2 ^ 53) / 2 ^ 52 = t + 2 := by omega
      have e2 : (t * 2 ^ 52 + 2 ^ 53) % 2 ^ 52 = 0 := by omega
      rw [e1, e2, if_neg (by omega)]
      have : t + 2 - 1 = t + 1 := by omega
      rw [this, pow_succ]
      ring
    · have e1 : (t * 2 ^ 52 + q) / 2 ^ 52 = t + 1 := by omega
      have e2 : (t * 2 ^ 52 + q) % 2 ^ 52 = q - 2 ^ 52 := by omega
      rw [e1, e2, if_neg (by omega)]
      have : 2 ^ 52 + (q - 2 ^ 52) = q := by omega
      rw [this, Nat.add_sub_cancel]

/-- Every pattern is a shift and a significand. -/
theorem exists_shift (b : Nat) : ∃ t q, b = t * 2 ^ 52 + q ∧ q < 2 ^ 53 ∧ (t = 0 ∨ 2 ^ 52 ≤ q) := by
  rcases Nat.lt_or_ge b (2 ^ 52) with h | h
  · exact ⟨0, b, by omega, by omega, Or.inl rfl⟩
  · exact ⟨b / 2 ^ 52 - 1, 2 ^ 52 + b % 2 ^ 52, by omega, by omega, Or.inr (by omega)⟩

theorem ulpShift_of_shift (t q : Nat) (hq : q < 2 ^ 53) (h : t = 0 ∨ 2 ^ 52 ≤ q) : ulpShift (q * 2 ^ t) = t := by
  unfold ulpShift
  rcases h with rfl | h
  · rcases Nat.eq_zero_or_pos q with rfl | hp
    · simp
    · have : q.log2 < 53 := (Nat.log2_lt (by omega)).mpr hq
      simp
      omega
  · have h1 : (q * 2 ^ t).log2 = 52 + t := by
      have hne : q * 2 ^ t ≠ 0 := by positivity
      rw [Nat.log2_eq_iff hne, pow_add, show 52 + t + 1 = 53 + t by omega, pow_add]
      exact ⟨Nat.mul_le_mul_right _ h, Nat.mul_lt_mul_of_pos_right hq (by positivity)⟩
    omega

/-- Rounding a magnitude some pattern stands for gives that pattern back. -/
theorem roundRaw_magOf (b : Nat) : roundRaw (magOf b) 1 = b := by
  obtain ⟨t, q, rfl, hq, h⟩ := exists_shift b
  rw [magOf_shift t q hq.le h]
  unfold roundRaw
  rw [Nat.div_one, ulpShift_of_shift t q hq h, Nat.one_mul, roundDiv_mul_right _ _ (by positivity)]

theorem roundBits_magOf {b : Nat} (h : b ≤ fInfBits) : roundBits (magOf b) 1 = b := by
  rw [roundBits_eq_min, roundRaw_magOf]
  omega

theorem roundBits_magOf_mul {b : Nat} (h : b ≤ fInfBits) (d : Nat) (hd : 0 < d) : roundBits (magOf b * d) d = b := by
  have := roundBits_scale (magOf b) 1 d Nat.one_pos hd
  rwa [Nat.one_mul, roundBits_magOf h] at this

/-- Magnitudes grow with their bits. -/
theorem magOf_mono {a b : Nat} (h : a ≤ b) : magOf a ≤ magOf b := by
  by_contra hlt
  have := roundRaw_mono (n₁ := magOf b) (d₁ := 1) (n₂ := magOf a) (d₂ := 1) Nat.one_pos Nat.one_pos (by omega)
  rw [roundRaw_magOf, roundRaw_magOf] at this
  have : a = b := by omega
  subst this
  omega

theorem magOf_le_iff {a b : Nat} : magOf a ≤ magOf b ↔ a ≤ b := by
  constructor
  · intro h
    have := roundRaw_mono (n₁ := magOf a) (d₁ := 1) (n₂ := magOf b) (d₂ := 1) Nat.one_pos Nat.one_pos (by omega)
    rwa [roundRaw_magOf, roundRaw_magOf] at this
  · exact magOf_mono

theorem magOf_eq_zero_iff {b : Nat} : magOf b = 0 ↔ b = 0 := by
  constructor
  · intro h
    have := (magOf_le_iff (a := b) (b := 0)).mp (by simp [h])
    omega
  · rintro rfl
    simp [magOf]

/-! ### The nearest magnitude -/

/-- What a rounded pattern stands for: the rounded multiple of the unit in the last place. -/
theorem magOf_roundRaw (n d : Nat) (hd : 0 < d) :
    magOf (roundRaw n d) = roundDiv n (d * 2 ^ ulpShift (n / d)) * 2 ^ ulpShift (n / d) := by
  unfold roundRaw
  generalize ht : ulpShift (n / d) = t
  apply magOf_shift
  · apply roundDiv_le (by positivity)
    have l := ulpShift_lt (n / d)
    rw [ht, Nat.div_lt_iff_lt_mul hd, pow_add] at l
    nlinarith
  · rcases Nat.eq_zero_or_pos t with h0 | hp
    · exact Or.inl h0
    · right
      apply le_roundDiv (by positivity)
      have l := le_of_ulpShift_pos (q := n / d) (by omega)
      rw [ht, Nat.le_div_iff_mul_le hd, pow_add] at l
      nlinarith

/-- The rounded integer is nearest. -/
theorem roundDiv_nearest (n d a : Nat) (hd : 0 < d) : |(roundDiv n d * d : Int) - n| ≤ |(a * d : Int) - n| := by
  obtain ⟨hi, lo⟩ := roundDiv_cases n d hd
  generalize roundDiv n d = r at *
  have hi' : (2 * n : Int) ≤ (2 * r + 1) * d := by
    have : 2 * n ≤ (2 * r + 1) * d := by rcases hi with h | h <;> omega
    exact_mod_cast this
  have lo' : (2 * r * d : Int) ≤ 2 * n + d := by
    have : 2 * r * d ≤ 2 * n + d := by rcases lo with h | h <;> omega
    exact_mod_cast this
  have hd' : (0 : Int) < d := by exact_mod_cast hd
  have hr : |(r * d : Int) - n| ≤ |(a * d : Int) - n| := by
    rcases lt_trichotomy a r with h | h | h
    · have h1 : (a : Int) + 1 ≤ r := by exact_mod_cast h
      have h2 : (a : Int) * d + d ≤ r * d := by nlinarith
      rw [abs_le]
      have h3 := neg_abs_le ((a : Int) * d - n)
      have h4 := le_abs_self ((a : Int) * d - n)
      constructor
      · by_cases hc : (r : Int) * d ≤ n
        · have : (a : Int) * d - n ≤ r * d - n := by nlinarith
          nlinarith
        · have := abs_nonneg ((a : Int) * d - n)
          nlinarith
      · have := neg_abs_le ((a : Int) * d - n)
        nlinarith
    · subst h
      exact le_refl _
    · have h1 : (r : Int) + 1 ≤ a := by exact_mod_cast h
      have h2 : (r : Int) * d + d ≤ a * d := by nlinarith
      rw [abs_le]
      have h3 := le_abs_self ((a : Int) * d - n)
      constructor
      · nlinarith
      · by_cases hc : (n : Int) ≤ r * d
        · nlinarith
        · have := abs_nonneg ((a : Int) * d - n)
          nlinarith
  exact hr

/-- A magnitude with a finer unit than the result of rounding `n / d` lies below the binade of `n / d`. -/
theorem finer_unit_below {n d t' q : Nat} (hd : 0 < d) (hq : q < 2 ^ 53) (hlt : t' < ulpShift (n / d)) :
    q * 2 ^ t' ≤ 2 ^ 52 * 2 ^ ulpShift (n / d) ∧ 2 ^ 52 * 2 ^ ulpShift (n / d) * d ≤ n := by
  have l := le_of_ulpShift_pos (q := n / d) (by omega)
  rw [Nat.le_div_iff_mul_le hd] at l
  constructor
  · have h1 : q * 2 ^ t' ≤ 2 ^ 53 * 2 ^ t' := Nat.mul_le_mul_right _ hq.le
    have h2 : 2 ^ 53 * 2 ^ t' ≤ 2 ^ 52 * 2 ^ ulpShift (n / d) := by
      rw [← pow_add, ← pow_add]
      exact Nat.pow_le_pow_right (by norm_num) (by omega)
    omega
  · rw [← pow_add, Nat.add_comm]
    exact l

/-- No magnitude that a pattern stands for is nearer `n / d` than the rounded one. -/
theorem magOf_roundRaw_nearest (n d b : Nat) (hd : 0 < d) :
    |(magOf (roundRaw n d) * d : Int) - n| ≤ |(magOf b * d : Int) - n| := by
  rw [magOf_roundRaw n d hd]
  generalize ht : ulpShift (n / d) = t
  have near : ∀ a : Nat, |(((roundDiv n (d * 2 ^ t) * 2 ^ t : Nat)) * d : Int) - n| ≤ |((a * 2 ^ t : Nat) * d : Int) - n| := by
    intro a
    have := roundDiv_nearest n (d * 2 ^ t) a (by positivity)
    push_cast at this ⊢
    convert this using 3 <;> ring
  obtain ⟨t', q, rfl, hq, h⟩ := exists_shift b
  rw [magOf_shift t' q hq.le h]
  rcases Nat.lt_or_ge t' t with hlt | hge
  · obtain ⟨hb, l⟩ := finer_unit_below hd hq (ht ▸ hlt)
    rw [ht] at hb l
    have hn := near (2 ^ 52)
    have l' : ((2 ^ 52 * 2 ^ t : Nat) * d : Int) ≤ n := by exact_mod_cast l
    have hb' : ((q * 2 ^ t' : Nat) * d : Int) ≤ (2 ^ 52 * 2 ^ t : Nat) * d := by
      have : q * 2 ^ t' * d ≤ 2 ^ 52 * 2 ^ t * d := Nat.mul_le_mul_right _ hb
      exact_mod_cast this
    have e1 : |((2 ^ 52 * 2 ^ t : Nat) * d : Int) - n| = n - (2 ^ 52 * 2 ^ t : Nat) * d := by
      rw [abs_of_nonpos (by linarith)]; ring
    have e2 : |((q * 2 ^ t' : Nat) * d : Int) - n| = n - (q * 2 ^ t' : Nat) * d := by
      rw [abs_of_nonpos (by linarith)]; ring
    rw [e2]
    rw [e1] at hn
    linarith
  · have : q * 2 ^ t' = (q * 2 ^ (t' - t)) * 2 ^ t := by
      rw [Nat.mul_assoc, ← pow_add, Nat.sub_add_cancel hge]
    rw [this]
    exact near _

/-- Where another integer is as near as the rounded one, the rounded one is even. -/
theorem roundDiv_tie (n d a : Nat) (hd : 0 < d) (hne : a ≠ roundDiv n d)
    (h : |(a * d : Int) - n| = |(roundDiv n d * d : Int) - n|) : roundDiv n d % 2 = 0 := by
  obtain ⟨hi, lo⟩ := roundDiv_cases n d hd
  generalize roundDiv n d = r at *
  by_contra hodd
  have hi' : (2 * n : Int) < (2 * r + 1) * d := by
    have : 2 * n < (2 * r + 1) * d := by rcases hi with h | h <;> omega
    exact_mod_cast this
  have lo' : (2 * r * d : Int) < 2 * n + d := by
    have : 2 * r * d < 2 * n + d := by rcases lo with h | h <;> omega
    exact_mod_cast this
  have hd' : (0 : Int) < d := by exact_mod_cast hd
  have ca := abs_cases ((a * d : Int) - n)
  have cr := abs_cases ((r * d : Int) - n)
  rcases lt_or_gt_of_ne hne with hlt | hlt
  · have h1 : (a : Int) + 1 ≤ r := by exact_mod_cast hlt
    have h2 : (a : Int) * d + d ≤ r * d := by nlinarith
    rcases ca with ⟨e1, _⟩ | ⟨e1, _⟩ <;> rcases cr with ⟨e2, _⟩ | ⟨e2, _⟩ <;> nlinarith
  · have h1 : (r : Int) + 1 ≤ a := by exact_mod_cast hlt
    have h2 : (r : Int) * d + d ≤ a * d := by nlinarith
    rcases ca with ⟨e1, _⟩ | ⟨e1, _⟩ <;> rcases cr with ⟨e2, _⟩ | ⟨e2, _⟩ <;> nlinarith

/-- Where another magnitude is as near `n / d` as the rounded one, the lowest bit of the rounded pattern is 0. -/
theorem roundRaw_tie (n d b : Nat) (hd : 0 < d) (hne : magOf b ≠ magOf (roundRaw n d))
    (h : |(magOf b * d : Int) - n| = |(magOf (roundRaw n d) * d : Int) - n|) : roundRaw n d % 2 = 0 := by
  have hmr := magOf_roundRaw n d hd
  rw [hmr] at h hne
  unfold roundRaw
  generalize ht : ulpShift (n / d) = t at *
  have key : ∀ a : Nat, a * 2 ^ t ≠ roundDiv n (d * 2 ^ t) * 2 ^ t →
      |((a * 2 ^ t : Nat) * d : Int) - n| = |((roundDiv n (d * 2 ^ t) * 2 ^ t : Nat) * d : Int) - n| → roundDiv n (d * 2 ^ t) % 2 = 0 := by
    intro a hne h
    apply roundDiv_tie n (d * 2 ^ t) a (by positivity) (by rintro rfl; exact hne rfl)
    push_cast at h ⊢
    convert h using 2 <;> ring
  have fin : roundDiv n (d * 2 ^ t) % 2 = 0 := by
    obtain ⟨t', q, rfl, hq, hh⟩ := exists_shift b
    rw [magOf_shift t' q hq.le hh] at h hne
    rcases Nat.lt_or_ge t' t with hlt | hge
    · obtain ⟨hb, l⟩ := finer_unit_below hd hq (ht ▸ hlt)
      rw [ht] at hb l
      have hn := magOf_roundRaw_nearest n d (t * 2 ^ 52 + 2 ^ 52) hd
      rw [magOf_shift t (2^52) (by norm_num) (Or.inr le_rfl), hmr] at hn
      rcases Nat.eq_or_lt_of_le hb with e | e
      · rw [e] at h hne
        exact key _ hne h
      · exfalso
        have l' : ((2 ^ 52 * 2 ^ t : Nat) * d : Int) ≤ n := by exact_mod_cast l
        have hb' : ((q * 2 ^ t' : Nat) * d : Int) < (2 ^ 52 * 2 ^ t : Nat) * d := by
          have : q * 2 ^ t' * d < 2 ^ 52 * 2 ^ t * d := Nat.mul_lt_mul_of_pos_right e hd
          exact_mod_cast this
        rw [← h] at hn
        rw [abs_of_nonpos (by linarith), abs_of_nonpos (by linarith)] at hn
        linarith
    · have e : q * 2 ^ t' = (q * 2 ^ (t' - t)) * 2 ^ t := by
        rw [Nat.mul_assoc, ← pow_add, Nat.sub_add_cancel hge]
      rw [e] at h hne
      exact key _ hne h
  omega

/-- A fraction rounds to infinity from half a unit in the last place above the largest finite magnitude on. -/
theorem roundBits_eq_inf_iff (n d : Nat) (hd : 0 < d) : roundBits n d = fInfBits ↔ (2 ^ 54 - 1) * 2 ^ 2044 * d ≤ n := by
  have h1 : roundRaw ((2 ^ 54 - 1) * 2 ^ 2044) 1 = fInfBits := by decide +kernel
  have h2 : magOf fInfBits = 2 ^ 54 * 2 ^ 2044 := by decide +kernel
  have h3 : magOf (fInfBits - 1) = (2 ^ 54 - 2) * 2 ^ 2044 := by decide +kernel
  rw [roundBits_eq_min]
  have hX : 0 < 2 ^ 2044 := by positivity
  generalize 2 ^ 2044 = X at *
  constructor
  · intro h
    have hge : fInfBits ≤ roundRaw n d := by omega
    have hm := magOf_roundRaw_nearest n d (fInfBits - 1) hd
    have hmono := magOf_mono hge
    rw [h2] at hmono
    rw [h3] at hm
    have hm1 : ((2 ^ 54 * X : Nat) * d : Int) ≤ magOf (roundRaw n d) * d := by exact_mod_cast Nat.mul_le_mul_right d hmono
    by_contra hc
    have hc' : (n : Int) < ((2 ^ 54 - 1) * X : Nat) * d := by exact_mod_cast (Nat.lt_of_not_le hc)
    have hXd : (0:Int) < X * d := by exact_mod_cast Nat.mul_pos hX hd
    push_cast at *
    rw [abs_of_nonneg (a := (magOf (roundRaw n d) * d : Int) - n) (by nlinarith)] at hm
    norm_num at *
    rcases abs_cases ((18014398509481982 : Int) * X * d - n) with ⟨e, _⟩ | ⟨e, _⟩ <;>
    · rw [e] at hm
      nlinarith
  · intro h
    have := roundRaw_mono (n₁ := (2 ^ 54 - 1) * X) (d₁ := 1) (n₂ := n) (d₂ := d) Nat.one_pos hd (by simpa using h)
    omega

/-! ### Classes -/

theorem fIsFinite_iff {x : F} : fIsFinite x = true ↔ fBits x < fInfBits := by
  have := fBits_lt x
  unfold fIsFinite
  rw [fExp_eq, decide_eq_true_iff]
  simp only [fInfBits]
  omega

theorem fIsInf_iff {x : F} : fIsInf x = true ↔ fBits x = fInfBits := by
  have := fBits_lt x
  unfold fIsInf
  rw [fExp_eq, fFrac_eq, Bool.and_eq_true, decide_eq_true_iff, decide_eq_true_iff]
  simp only [fInfBits]
  omega

theorem fIsNaN_iff {x : F} : fIsNaN x = true ↔ fInfBits < fBits x := by
  have := fBits_lt x
  unfold fIsNaN
  rw [fExp_eq, fFrac_eq, Bool.and_eq_true, decide_eq_true_iff, decide_eq_true_iff]
  simp only [fInfBits]
  omega

theorem fIsZero_iff {x : F} : fIsZero x = true ↔ fBits x = 0 := by
  unfold fIsZero
  rw [fExp_eq, fFrac_eq, Bool.and_eq_true, decide_eq_true_iff, decide_eq_true_iff]
  omega

theorem fIsZero_iff_mag {x : F} : fIsZero x = true ↔ fMag x = 0 := by
  rw [fIsZero_iff, fMag_eq, magOf_eq_zero_iff]

theorem fIsNaN_of_finite {x : F} (h : fIsFinite x = true) : fIsNaN x = false := by
  rw [fIsFinite_iff] at h
  rw [← Bool.not_eq_true, fIsNaN_iff]
  omega

theorem fIsInf_of_finite {x : F} (h : fIsFinite x = true) : fIsInf x = false := by
  rw [fIsFinite_iff] at h
  rw [← Bool.not_eq_true, fIsInf_iff]
  omega

theorem fIsInf_of_not_finite {x : F} (h : fIsFinite x = false) (hn : fIsNaN x = false) : fIsInf x = true := by
  rw [← Bool.not_eq_true, fIsFinite_iff] at h
  rw [← Bool.not_eq_true, fIsNaN_iff] at hn
  rw [fIsInf_iff]
  omega

/-! ### Rounded results -/

theorem fInfBits_lt : fInfBits < 2 ^ 63 := by norm_num

@[simp] theorem fBits_fRound (neg : Bool) (n d : Nat) : fBits (fRound neg n d) = roundBits n d :=
  fBits_fPack _ (lt_of_le_of_lt (roundBits_le_inf n d) fInfBits_lt)

@[simp] theorem fSign_fRound (neg : Bool) (n d : Nat) : fSign (fRound neg n d) = neg :=
  fSign_fPack _ (lt_of_le_of_lt (roundBits_le_inf n d) fInfBits_lt)

@[simp] theorem fBits_fZero (neg : Bool) : fBits (fZero neg) = 0 := fBits_fPack _ (by norm_num)

@[simp] theorem fSign_fZero (neg : Bool) : fSign (fZero neg) = neg := fSign_fPack _ (by norm_num)

@[simp] theorem fBits_fInf (neg : Bool) : fBits (fInf neg) = fInfBits := fBits_fPack _ fInfBits_lt

@[simp] theorem fSign_fInf (neg : Bool) : fSign (fInf neg) = neg := fSign_fPack _ fInfBits_lt

theorem fMag_fRound (neg : Bool) (n d : Nat) : fMag (fRound neg n d) = magOf (roundBits n d) := by
  rw [fMag_eq, fBits_fRound]

/-- A rounded result is never a NaN. -/
theorem fIsNaN_fRound (neg : Bool) (n d : Nat) : fIsNaN (fRound neg n d) = false := by
  rw [← Bool.not_eq_true, fIsNaN_iff, fBits_fRound]
  have := roundBits_le_inf n d
  omega

theorem fIsNaN_fRoundInt (z : Bool) (v : Int) : fIsNaN (fRoundInt z v) = false := by
  unfold fRoundInt
  split
  · rw [← Bool.not_eq_true, fIsNaN_iff, fBits_fZero]
    norm_num
  · exact fIsNaN_fRound _ _ _

/-- An operation that returns a NaN does return one. -/
theorem fIsNaN_fNaN (op : Config.FOp) (x y : F) : fIsNaN (fNaN op x y) = true := by
  unfold fNaN
  simp only
  split
  · assumption
  · decide

/-! ### The operations on finite operands -/

theorem fBits_fneg {x : F} (h : fIsNaN x = false) : fBits (fneg x) = fBits x := by
  unfold fneg fBits
  rw [if_neg (by simp [h]), BitVec.toNat_xor]
  show (x.toNat ^^^ 2 ^ 63) % 2 ^ 63 = _
  rw [Nat.xor_mod_two_pow]
  simp

theorem fSign_fneg {x : F} (h : fIsNaN x = false) : fSign (fneg x) = !fSign x := by
  unfold fneg fSign
  rw [if_neg (by simp [h]), BitVec.getLsbD_xor]
  have : (0x8000000000000000#64).getLsbD 63 = true := by decide
  rw [this]
  simp

theorem fIsFinite_fneg {x : F} (h : fIsFinite x = true) : fIsFinite (fneg x) = true := by
  rw [fIsFinite_iff] at *
  rwa [fBits_fneg (fIsNaN_of_finite (fIsFinite_iff.mpr h))]

theorem fVal_fneg {x : F} (h : fIsNaN x = false) : fVal (fneg x) = -fVal x := by
  unfold fVal
  rw [fSign_fneg h, fMag_eq, fBits_fneg h, ← fMag_eq]
  cases fSign x <;> simp

theorem fadd_finite {x y : F} (hx : fIsFinite x = true) (hy : fIsFinite y = true) :
    fadd x y = fRoundInt (fSign x && fSign y) (fVal x + fVal y) := by
  simp [fadd, fsum, fIsNaN_of_finite hx, fIsNaN_of_finite hy, fIsInf_of_finite hx, fIsInf_of_finite hy]

theorem fsub_finite {x y : F} (hx : fIsFinite x = true) (hy : fIsFinite y = true) :
    fsub x y = fRoundInt (fSign x && !fSign y) (fVal x - fVal y) := by
  have hn := fIsFinite_fneg hy
  simp [fsub, fsum, fIsNaN_of_finite hx, fIsNaN_of_finite hy, fIsInf_of_finite hx, fIsInf_of_finite hn,
    fSign_fneg (fIsNaN_of_finite hy), fVal_fneg (fIsNaN_of_finite hy), Int.sub_eq_add_neg]

theorem fmul_finite {x y : F} (hx : fIsFinite x = true) (hy : fIsFinite y = true) :
    fmul x y = fRound (fSign x != fSign y) (fMag x * fMag y) fUnit := by
  simp [fmul, fIsNaN_of_finite hx, fIsNaN_of_finite hy, fIsInf_of_finite hx, fIsInf_of_finite hy]

theorem fdiv_finite {x y : F} (hx : fIsFinite x = true) (hy : fIsFinite y = true) (h0 : fIsZero y = false) :
    fdiv x y = fRound (fSign x != fSign y) (fMag x * fUnit) (fMag y) := by
  simp [fdiv, fIsNaN_of_finite hx, fIsNaN_of_finite hy, fIsInf_of_finite hx, fIsInf_of_finite hy, h0]

/-! ### Comparisons -/

theorem fVal_nonneg_of_pos {x : F} (h : fSign x = false) : fVal x = fMag x := by simp [fVal, h]

theorem fle_iff {x y : F} : fle x y = true ↔ fIsNaN x = false ∧ fIsNaN y = false ∧ fVal x ≤ fVal y := by
  simp [fle, and_assoc]

theorem flt_iff {x y : F} : flt x y = true ↔ fIsNaN x = false ∧ fIsNaN y = false ∧ fVal x < fVal y := by
  simp [flt, and_assoc]

theorem fMag_lt_of_finite {x : F} (h : fIsFinite x = true) : fMag x < magOf fInfBits := by
  rw [fIsFinite_iff] at h
  rw [fMag_eq]
  by_contra hge
  have := (magOf_le_iff (a := fInfBits) (b := fBits x)).mp (by omega)
  omega

/-! ### Integers are exact -/

/-- An integer of at most 53 bits is an `F` value. -/
theorem exists_bits_of_int (n : Nat) (h : n ≤ 2 ^ 53) : ∃ b, b < fInfBits ∧ magOf b = n * 2 ^ 1074 := by
  rcases Nat.eq_zero_or_pos n with rfl | hp
  · exact ⟨0, by norm_num, by simp [magOf]⟩
  · rcases Nat.eq_or_lt_of_le h with rfl | hlt
    · exact ⟨1074 * 2 ^ 52 + 2 ^ 53, by norm_num, magOf_shift _ _ (le_refl _) (Or.inr (by norm_num))⟩
    · have hlog : n.log2 ≤ 52 := by
        have := (Nat.log2_lt (by omega)).mpr hlt
        omega
      have h1 : 2 ^ n.log2 ≤ n := Nat.log2_self_le (by omega)
      have h2 : n < 2 ^ (n.log2 + 1) := Nat.lt_log2_self
      have hup : n * 2 ^ (52 - n.log2) < 2 ^ 53 := by
        calc n * 2 ^ (52 - n.log2) < 2 ^ (n.log2 + 1) * 2 ^ (52 - n.log2) := Nat.mul_lt_mul_of_pos_right h2 (by positivity)
          _ = 2 ^ 53 := by rw [← pow_add]; congr 1; omega
      have hlow : 2 ^ 52 ≤ n * 2 ^ (52 - n.log2) := by
        calc 2 ^ 52 = 2 ^ n.log2 * 2 ^ (52 - n.log2) := by rw [← pow_add]; congr 1; omega
          _ ≤ n * 2 ^ (52 - n.log2) := Nat.mul_le_mul_right _ h1
      refine ⟨(1022 + n.log2) * 2 ^ 52 + n * 2 ^ (52 - n.log2), ?_, ?_⟩
      · have : (1022 + n.log2) * 2 ^ 52 ≤ 1074 * 2 ^ 52 := Nat.mul_le_mul_right _ (by omega)
        norm_num
        omega
      · rw [magOf_shift _ _ hup.le (Or.inr hlow), Nat.mul_assoc, ← pow_add]
        congr 2
        omega

end Sys2Proof.Machine
end

