-- ==== Sys2Proof/Laws/PerInstr.lean ====
section
/-! SUPPORT. Statements made of every instruction as syntax, one lemma for each constructor. -/

namespace Sys2Proof.Laws.Row

/-- The word of an instruction selects its own row of the opcode map (30_encoding.md R73), for every operand value, and the row is
named by the four bits of `OPC`. -/
def Statement (i : Instr) : Prop :=
  encode i &&& rowMask i = rowMatch i ∧ fieldOpc (encode i) = fieldOpc (rowMatch i)

theorem hdr (p : Bool) : Statement (.hdr p) := by
  cases p <;> exact ⟨by decide, by decide⟩

theorem csix : Statement .csix := ⟨by decide, by decide⟩

theorem decomp (s : BitVec 5) : Statement (.decomp s) := by
  unfold Statement
  revert s
  decide

/-- `OPC | BW << 8 | I << 5 | S` has its four opcode bits whatever the fields. -/
theorem quant (s : BitVec 5) (i : BitVec 3) (bw : BitVec 4) : Statement (.quant s i bw) := by
  constructor
  · simp only [encode, rowMask, rowMatch]
    ext j hj
    simp [BitVec.getElem_and, BitVec.getElem_or, BitVec.getElem_shiftLeft]
    interval_cases j <;> simp
  · simp only [encode, rowMatch, fieldOpc]
    ext j hj
    simp
    interval_cases j <;> simp

theorem dequant (s : BitVec 5) (i : BitVec 3) (bw : BitVec 4) : Statement (.dequant s i bw) := by
  constructor
  · simp only [encode, rowMask, rowMatch]
    ext j hj
    simp [BitVec.getElem_and, BitVec.getElem_or, BitVec.getElem_shiftLeft]
    interval_cases j <;> simp
  · simp only [encode, rowMatch, fieldOpc]
    ext j hj
    simp
    interval_cases j <;> simp

theorem pack (s : BitVec 5) (bw : BitVec 4) : Statement (.pack s bw) := by
  unfold Statement
  revert s bw
  decide

theorem unpack (s : BitVec 5) : Statement (.unpack s) := by
  unfold Statement
  revert s
  decide

end Sys2Proof.Laws.Row
end

