-- ==== Sys2Proof/Laws/Quantizer.lean ====
section
/-! SUPPORT. QUANT and DEQUANT on a READY block with a legal bit width and a tag. -/

namespace Sys2Proof.Machine

/-- QUANT of an angle that has a code. -/
theorem exec_quant_some {sc : BitVec 5} {i : BitVec 3} {bw : BitVec 4} {s : State} {t : Tag} {k : Nat} (hs : sc.toNat < 30)
    (hi : i.toNat < 6) (hr : s.run = .ready) (h1 : 1 ≤ bw.toNat) (h4 : bw.toNat ≤ 4) (ht : s.tag[sc.toNat][i.toNat] = t.bits)
    (hq : quantize? s.ang[sc.toNat][i.toNat] t bw.toNat = some k) :
    exec (.quant sc i bw) s = .next (s.writeQuantized ⟨sc.toNat, hs⟩ ⟨i.toNat, hi⟩ k bw.toNat) := by
  show issueEffect _ _ _ = _
  rw [withCell_of_lt hs hi, quantEffect, withBitWidth_of_legal h1 h4]
  rw [show cell s.tag ⟨sc.toNat, hs⟩ ⟨i.toNat, hi⟩ = t.bits from ht, withTag_bits]
  rw [show quantize? (cell s.ang ⟨sc.toNat, hs⟩ ⟨i.toNat, hi⟩) t bw.toNat = some k from hq]
  exact issueEffect_done hr _ _

/-- QUANT of an angle that has none. -/
theorem exec_quant_none {sc : BitVec 5} {i : BitVec 3} {bw : BitVec 4} {s : State} {t : Tag} (hs : sc.toNat < 30)
    (hi : i.toNat < 6) (hr : s.run = .ready) (h1 : 1 ≤ bw.toNat) (h4 : bw.toNat ≤ 4) (ht : s.tag[sc.toNat][i.toNat] = t.bits)
    (hq : quantize? s.ang[sc.toNat][i.toNat] t bw.toNat = none) :
    exec (.quant sc i bw) s = .next (s.writeUnquantized ⟨sc.toNat, hs⟩ ⟨i.toNat, hi⟩) := by
  show issueEffect _ _ _ = _
  rw [withCell_of_lt hs hi, quantEffect, withBitWidth_of_legal h1 h4]
  rw [show cell s.tag ⟨sc.toNat, hs⟩ ⟨i.toNat, hi⟩ = t.bits from ht, withTag_bits]
  rw [show quantize? (cell s.ang ⟨sc.toNat, hs⟩ ⟨i.toNat, hi⟩) t bw.toNat = none from hq]
  exact issueEffect_done hr _ _

/-- DEQUANT. -/
theorem exec_dequant {sc : BitVec 5} {i : BitVec 3} {bw : BitVec 4} {s : State} {t : Tag} (hs : sc.toNat < 30)
    (hi : i.toNat < 6) (hr : s.run = .ready) (h1 : 1 ≤ bw.toNat) (h4 : bw.toNat ≤ 4) (ht : s.tag[sc.toNat][i.toNat] = t.bits) :
    exec (.dequant sc i bw) s = .next { s with
      recon := setCell s.recon ⟨sc.toNat, hs⟩ ⟨i.toNat, hi⟩ (inv (s.code[sc.toNat][i.toNat]).toNat bw.toNat) } := by
  show issueEffect _ _ _ = _
  rw [withCell_of_lt hs hi, dequantEffect, withBitWidth_of_legal h1 h4]
  rw [show cell s.tag ⟨sc.toNat, hs⟩ ⟨i.toNat, hi⟩ = t.bits from ht, withTag_bits]
  exact issueEffect_done hr _ _

end Sys2Proof.Machine
end

