-- ==== Sys2Proof/Laws/Sqrt.lean ====
section
/-! SUPPORT. The integer square root behind `fsqrt`. -/

namespace Sys2Proof.Machine

theorem isqrtGo_spec (n : Nat) {k r : Nat} (h1 : r * r ≤ n) (h2 : n < (r + 2 ^ k) * (r + 2 ^ k)) :
    isqrtGo n k r * isqrtGo n k r ≤ n ∧ n < (isqrtGo n k r + 1) * (isqrtGo n k r + 1) := by
  induction k generalizing r with
  | zero => simpa [isqrtGo] using And.intro h1 h2
  | succ k ih =>
    unfold isqrtGo
    split
    · next h =>
      apply ih h
      rwa [show r + 2 ^ k + 2 ^ k = r + 2 ^ (k + 1) by ring]
    · next h => exact ih h1 (by omega)

/-- `isqrt n` is the square root rounded down. -/
theorem isqrt_spec (n : Nat) : isqrt n * isqrt n ≤ n ∧ n < (isqrt n + 1) * (isqrt n + 1) := by
  apply isqrtGo_spec n (Nat.zero_le _)
  have h : n < 2 ^ (n.log2 + 1) := Nat.lt_log2_self
  have e : (0 + 2 ^ (n.log2 / 2 + 1)) * (0 + 2 ^ (n.log2 / 2 + 1)) = 2 ^ (2 * (n.log2 / 2) + 2) := by
    rw [Nat.zero_add, ← pow_add]
    congr 1
    ring
  rw [e]
  exact lt_of_lt_of_le h (Nat.pow_le_pow_right (by norm_num) (by omega))

end Sys2Proof.Machine
end

