-- ==== Sys2Proof/Tests/Slice0.lean ====
section
/-! SUPPORT. Tests of the model, their expected results from 95_test_vectors.md and the rules, and one witness for the hypotheses of each obligation that has some. -/

namespace Sys2Proof.Machine.Tests

open Sys2Proof Sys2Proof.Machine

-- The tests are checked one after another: each `decide +kernel` in flight holds a thread, and a thread's stack counts as memory.
set_option Elab.async false

/-! ### Small states -/

/-- A READY block with everything zero and nothing written in `BUF`. -/
def blank : State where
  run := .ready
  err := none
  errinfo := 0#16
  buf := []
  bufLen := 0
  payBase := 0
  noise := Vector.replicate 3 0#8
  fcnt := 0#16
  nrx := 0#8
  ntx := 0#8
  rssi := Vector.replicate 3 0#8
  rnoise := 0#8
  agc := 0#8
  antsel := 0#8
  flen := 0#16
  rate := 0#16
  perm := Vector.replicate 3 1#3
  cur := 0#16
  csi := Vector.replicate 30 (Vector.replicate 3 (Vector.replicate 3 ⟨0#64, 0#64⟩))
  ang := Vector.replicate 30 (Vector.replicate 6 0#64)
  tag := Vector.replicate 30 (Vector.replicate 6 0#2)
  recon := Vector.replicate 30 (Vector.replicate 6 0#64)
  code := Vector.replicate 30 (Vector.replicate 6 0#6)
  pkw := Vector.replicate 30 (Vector.replicate 6 0#3)
  pki := Vector.replicate 30 0#36
  host := []
  draws := Vector.replicate 30 0
  resets := 0

/-- The same block after a fault. -/
def halted : State := { blank with run := .faulted, err := some .malformedHeader, errinfo := 0x2000#16 }

/-- The bytes `f 0` to `f (n - 1)` at address 0. -/
def bytes (n : Nat) (f : Nat → Byte) : Memory := (List.range' 0 n).map fun k => (k, f k)

theorem read_bytes_from (f : Nat → Byte) (a n b : Nat) (h1 : b ≤ a) (h2 : a < b + n) :
    Memory.read a ((List.range' b n).map fun k => (k, f k)) = some (f a) := by
  induction n generalizing b with
  | zero => omega
  | succ n ih =>
    rw [List.range'_succ, List.map_cons, Memory.read]
    split
    · next h => rw [h]
    · exact ih (b + 1) (by omega) (by omega)

theorem read_bytes {f : Nat → Byte} {a n : Nat} (h : a < n) : Memory.read a (bytes n f) = some (f a) :=
  read_bytes_from f a n 0 (Nat.zero_le _) (by omega)

/-- The 20 bytes of T1. -/
def t1 : List Byte := [0xBB#8, 10#8, 12#8, 9#8, 5#8, 0#8, 0#8, 0#8, 3#8, 3#8, 40#8, 38#8, 36#8, 250#8, 30#8, 6#8, 100#8, 0#8, 12#8, 0#8]

/-- T1 before HDR. -/
def header : State := { blank with buf := bytes 20 fun k => t1.getD k 0#8, bufLen := 20 }

/-- A block whose payload holds `7k + 3` (T4), with a frame shape and a length. -/
def payload (nrx ntx : Byte) (len : Nat) : State :=
  { blank with nrx := nrx, ntx := ntx, buf := bytes len fun k => BitVec.ofNat 8 (7 * k + 3), bufLen := len }

def zero : CPair := ⟨0#64, 0#64⟩
def one : CPair := ⟨fOne, 0#64⟩

/-- The identity matrix (T7). -/
def identity : CMatrix := #v[#v[one, zero, zero], #v[zero, one, zero], #v[zero, zero, one]]

/-- A 3 x 3 frame whose last subcarrier holds a matrix. -/
def matrix (m : CMatrix) : State := { blank with nrx := 3#8, ntx := 3#8, csi := blank.csi.set 29 m }

/-- One cell of subcarrier 0 slot 2 with an angle and a tag. -/
def angle (x : F) (t : BitVec 2) : State := { blank with ang := setCell blank.ang 0 2 x, tag := setCell blank.tag 0 2 t }

/-- Subcarrier 0 with six tags and six codes. -/
def codes (t : Vector (BitVec 2) 6) (c : Vector (BitVec 6) 6) : State :=
  { blank with tag := blank.tag.set 0 t, code := blank.code.set 0 c }

/-- Subcarrier 0 with a widths list and an integer. -/
def packed (w : Vector (BitVec 3) 6) (n : BitVec 36) : State := { blank with pkw := blank.pkw.set 0 w, pki := blank.pki.set 0 n }

/-- A view of the next state, if there is one. -/
def after {α : Type} (o : Host.Outcome State Fault Refusal) (f : State → α) : Option α :=
  match o with
  | .next t => some (f t)
  | .fault _ => none
  | .refused _ => none

/-! ### WellFormed refuses an ill-formed term of each check -/

theorem test_subcarrier_30_refused : (Instr.decomp 30).wellFormed = false ∧ (Instr.quant 30 0 3).wellFormed = false ∧
    (Instr.dequant 31 0 3).wellFormed = false ∧ (Instr.pack 30 3).wellFormed = false ∧ (Instr.unpack 31).wellFormed = false := by decide

theorem test_slot_6_refused : (Instr.quant 0 6 3).wellFormed = false ∧ (Instr.dequant 0 7 3).wellFormed = false := by decide

/-! ### Words written out from 30_encoding.md R71 to R73: OPC, BW or zeros, I or zeros, S -/

theorem test_decode_hdr : decode 0b0001_00000000000_1#16 = .ok (.hdr true) := by decide
theorem test_decode_csix : decode 0b0010_000000000000#16 = .ok .csix := by decide
theorem test_decode_decomp : decode 0b0011_0000000_11101#16 = .ok (.decomp 29) := by decide
theorem test_decode_quant : decode 0b0100_0011_101_11001#16 = .ok (.quant 25 5 3) := by decide
theorem test_decode_dequant : decode 0b0101_1100_010_00111#16 = .ok (.dequant 7 2 12) := by decide
theorem test_decode_pack : decode 0b0110_0100_000_10010#16 = .ok (.pack 18 4) := by decide
theorem test_decode_unpack : decode 0b0111_0000000_01011#16 = .ok (.unpack 11) := by decide

theorem test_decodeTableWord : decodeTableWord 16 0x43BD = some (.quant 29 5 3) ∧ decodeTableWord 16 0x43BE = none := by decide

/-- The first step after reset runs the word placed there. -/
theorem test_first_step : step (State.reset.withFetchWord 16 0x7003) = exec (.unpack 3) State.reset := rfl

/-- `FEEDBACK 5, 3` (30_encoding.md R77) and a comment (R76). -/
theorem test_assembler : (parseLine ['F', 'E', 'E', 'D', 'B', 'A', 'C', 'K', ' ', '5', ',', ' ', '3', ' ', ';', 'x']).map (List.map encode) =
    some [0x3005#16, 0x4305#16, 0x4325#16, 0x4345#16, 0x4365#16, 0x4385#16, 0x43A5#16, 0x6305#16] := by decide +kernel

/-! ### One step of each command -/

/-- T1. -/
theorem test_hdr_T1 : after (exec (.hdr false) header) (fun t => (t.noise, t.fcnt, t.nrx, t.ntx, t.rssi, t.rnoise)) =
    some (#v[10#8, 12#8, 9#8], 5#16, 3#8, 3#8, #v[40#8, 38#8, 36#8], 250#8) := by decide +kernel

/-- T1, the other registers. -/
theorem test_hdr_T1_rest : after (exec (.hdr false) header) (fun t => ((t.agc, t.antsel, t.flen, t.rate), t.perm, t.payBase)) =
    some ((30#8, 6#8, 100#16, 12#16), #v[3#3, 2#3, 1#3], 20) := by decide +kernel

/-- T4: (64, 33) for subcarrier 0 and (121, 59) for subcarrier 29. -/
theorem test_csix_T4 : after (exec .csix (payload 1#8 1#8 72)) (fun t => (t.csi[0][0][0], t.csi[29][0][0], t.cur)) =
    some (⟨0x4050000000000000#64, 0x4040800000000000#64⟩, ⟨0x405E400000000000#64, 0x404D800000000000#64⟩, 570#16) := by decide +kernel

/-- T4 with one byte less. -/
theorem test_csix_short : after (exec .csix (payload 1#8 1#8 71)) (fun t => (t.run, t.err, t.errinfo, t.cur)) =
    some (.faulted, some .truncatedCsiData, 0x2000#16, 0#16) := by decide +kernel

/-- T6b: 0x94 is -108 as a signed byte, 0x07 is 7. -/
theorem test_window_T6b : (window 0xA5#8 0x3C#8 3).toInt = -108 ∧ (window 0x3C#8 0xF0#8 3).toInt = 7 := by decide

/-- T7. -/
theorem test_decomp_T7 : after (exec (.decomp 29) (matrix identity)) (fun t => (t.ang[29], t.tag[29])) =
    some (Vector.replicate 6 0#64, #v[1#2, 1#2, 2#2, 2#2, 1#2, 2#2]) := by decide +kernel

/-- T10. -/
theorem test_decomp_T10 : after (exec (.decomp 0) { matrix identity with ntx := 2#8 }) (fun t => (t.err, t.errinfo, t.tag[0])) =
    some (some .unsupportedDimension, 0x3000#16, Vector.replicate 6 0#2) := by decide +kernel

/-- T12 slot 2: 0.3, tag PSI, bit width 3. -/
theorem test_quant_T12 : after (exec (.quant 0 2 3) (angle 0x3FD3333333333333#64 2#2)) (fun t => (t.code[0][2], t.recon[0][2])) =
    some (1#6, 0x3FD2D97C7F3321D2#64) := by decide +kernel

/-- T11: 0.19634 and 0.19636, tag PHI, bit width 3, on the two sides of the ceiling's step; 7.0 is clamped to 31. -/
theorem test_quant_T11 : after (exec (.quant 0 2 3) (angle 0x3FC921AB4B72C519#64 1#2)) (fun t => t.code[0][2]) = some 0#6 ∧
    after (exec (.quant 0 2 3) (angle 0x3FC92253111F0C35#64 1#2)) (fun t => t.code[0][2]) = some 1#6 ∧
    after (exec (.quant 0 2 3) (angle 0x401C000000000000#64 1#2)) (fun t => t.code[0][2]) = some 31#6 := by decide +kernel

/-- T11: code 3 at bit width 3 gives 7 pi / 32, the value of T12 slot 5. -/
theorem test_dequant_T12 : after (exec (.dequant 0 2 3) { angle 0#64 2#2 with code := setCell blank.code 0 2 3#6 }) (fun t => t.recon[0][2]) =
    some 0x3FE5FDBBE9BBA775#64 := by decide +kernel

/-- T13, first row. -/
theorem test_pack_T13 : after (exec (.pack 0 3) (codes fixedTags #v[0#6, 1#6, 1#6, 2#6, 2#6, 3#6])) (fun t => (t.pkw[0], t.pki[0])) =
    some (#v[3#3, 5#3, 3#3, 3#3, 5#3, 5#3], 0x624420#36) := by decide +kernel

/-- T13, last row: codes that overflow their fields are added, not joined. -/
theorem test_pack_overflow : after (exec (.pack 0 1) (codes fixedTags (Vector.replicate 6 63#6))) (fun t => t.pki[0]) =
    some 0x26877#36 := by decide +kernel

/-- T13, last row, unpacked. -/
theorem test_unpack_T13 : after (exec (.unpack 0) (packed #v[1#3, 3#3, 1#3, 1#3, 3#3, 3#3] 0x26877#36)) (fun t => t.code[0]) =
    some #v[7#6, 6#6, 1#6, 0#6, 0#6, 1#6] := by decide +kernel

/-- T15: widths of seven, of which a code keeps six bits. -/
theorem test_unpack_T15 : after (exec (.unpack 0) (packed (Vector.replicate 6 7#3) 0xFFFFFFFFF#36)) (fun t => t.code[0]) =
    some #v[63#6, 63#6, 63#6, 63#6, 63#6, 1#6] := by decide +kernel

/-- T16: a FAULTED block ignores a command and a host write. -/
theorem test_faulted : after (issue 0xFFFF#16 halted) (fun t => t.err) = some (some .malformedHeader) ∧
    after (hostWrite .ntx 3 halted) (fun t => t.ntx) = some 0#8 := by decide +kernel

/-! ### The model's own stops -/

/-- A host write beyond the buffer faults; an unwritten header byte, a read-only register and a value too wide are refused. -/
theorem test_stops : hostWrite (.buf Config.bufCap) 0 blank = .fault .bufAddress ∧
    exec (.hdr false) { blank with bufLen := 20 } = .refused .unwrittenBuffer ∧
    hostWrite .cur 0 blank = .refused .readOnlyRegister ∧ hostWrite (.tag 0 0) 4 blank = .refused .valueTooWide := by
  have h : Reg.outsideBuf (.buf Config.bufCap) = true := by simp [Reg.outsideBuf]
  refine ⟨?_, rfl, rfl, rfl⟩
  unfold hostWrite
  rw [h]
  rfl

/-! ### Witnesses: a state and operands that meet the hypotheses of each obligation -/

theorem witness_DecodeInvertsEncode : (Instr.quant 29 5 15).wellFormed = true ∧ (Instr.hdr false).wellFormed = true ∧
    (Instr.decomp 0).wellFormed = true := by decide

/-- One word of each clause at the end of its range; the last clauses' words are no commands. -/
theorem witness_DecoderAndEncoderFollowTable : decode 0x1000#16 = .ok (.hdr false) ∧ decode 0x1001#16 = .ok (.hdr true) ∧
    decode 0x2000#16 = .ok .csix ∧ decode 0x301D#16 = .ok (.decomp 29) ∧ decode 0x4FBD#16 = .ok (.quant 29 5 15) ∧
    decode 0x5000#16 = .ok (.dequant 0 0 0) ∧ decode 0x6F1D#16 = .ok (.pack 29 15) ∧ decode 0x701D#16 = .ok (.unpack 29) ∧
    decode 0x0FFF#16 = .error .badOpcode ∧ decode 0x8000#16 = .error .badOpcode ∧ decode 0x1002#16 = .error .reservedBits ∧
    decode 0x2001#16 = .error .reservedBits ∧ decode 0x301E#16 = .error .badSubcarrier ∧ decode 0x40C0#16 = .error .badSlot ∧
    decode 0x6020#16 = .error .reservedBits ∧ decode 0x7020#16 = .error .reservedBits := by decide

theorem witness_EncodeInvertsDecode : decode 0x43BD#16 = .ok (.quant 29 5 3) := by decide

theorem witness_IllegalWordsRaiseIllegalCommand : blank.run = .ready ∧ decode 0x43C0#16 = .error .badSlot := by decide

theorem witness_AssemblerLineRoundTrip : (Instr.pack 29 15).wellFormed = true := by decide

theorem witness_StepPerformsDecodedCommand : (blank.withFetchWord 16 0x7000).host = .issue 0x7000#16 :: [] ∧
    decode 0x7000#16 = .ok (.unpack 0) := by decide

/-- An illegal word in both states; a write that is ignored, read-only, beyond the buffer, too long a length, too wide, and stored, the
values at the ends of their ranges; a read beyond the buffer and one inside; a reset. -/
theorem witness_StepPerformsOtherHostActions : ({ blank with host := [.issue 0x43C0#16] } : State).host = .issue 0x43C0#16 :: [] ∧
    (∀ i, decode 0x43C0#16 ≠ .ok i) ∧ blank.run = .ready ∧ halted.run = .faulted ∧
    Reg.run.hostWritable = false ∧ Config.bufCap ≤ Config.bufCap ∧ Config.bufCap < Config.bufCap + 1 ∧
    ((Reg.tag 29 5).hostWritable = true ∧ (∀ n, Reg.tag 29 5 ≠ .buf n) ∧ Reg.tag 29 5 ≠ .bufLen ∧
      2 ^ (Reg.tag 29 5).width ≤ 4 ∧ 3 < 2 ^ (Reg.tag 29 5).width) ∧
    ((Reg.buf 0).hostWritable = true ∧ (∀ n, Reg.buf 0 = .buf n → n < Config.bufCap) ∧ 255 < 2 ^ Reg.width (.buf 0)) := by
  have h : 0 < Config.bufCap := by unfold Config.bufCap; omega
  have e : decode 0x43C0#16 = .error .badSlot := by decide
  exact ⟨rfl, (fun i hi => by rw [e] at hi; cases hi), rfl, rfl, rfl, le_refl _, Nat.lt_add_one _,
    ⟨rfl, (fun _ hn => by cases hn), (by decide), (by decide), by decide⟩, rfl, (fun n hn => by cases hn; exact h), by decide⟩

theorem witness_BlockWaitsWithoutAction : State.reset.host = [] := rfl

theorem witness_FaultEntryWritesOnlyStatus : blank.run = .ready ∧
    issue 0x2000#16 blank = .next (blank.raise .malformedHeader 0x2000#16) ∧
    (blank.raise .malformedHeader 0x2000#16).run = .faulted := ⟨rfl, rfl, rfl⟩

/-- Each row of the table is met by some word in some READY state: HDR's length and each of its two count bytes (4 and 0, beside the
range), CSIX's counts and its length, DECOMP's shape, the bit widths 0 and 5 and the missing tag of QUANT, DEQUANT and PACK, and an
illegal word. -/
theorem witness_ErrorCausesAreExactly :
    let bad := fun (at_ : Nat) (b : Byte) => { header with buf := bytes 20 fun k => if k = at_ then b else t1.getD k 0#8 }
    issue 0x1000#16 blank = .next (blank.raise .malformedHeader 0x1000#16) ∧
    issue 0x1000#16 (bad 8 4#8) = .next ((bad 8 4#8).raise .malformedHeader 0x1000#16) ∧
    issue 0x1000#16 (bad 9 0#8) = .next ((bad 9 0#8).raise .malformedHeader 0x1000#16) ∧
    issue 0x2000#16 (payload 0#8 1#8 72) = .next ((payload 0#8 1#8 72).raise .malformedHeader 0x2000#16) ∧
    issue 0x2000#16 (payload 1#8 4#8 72) = .next ((payload 1#8 4#8 72).raise .malformedHeader 0x2000#16) ∧
    issue 0x2000#16 (payload 1#8 1#8 71) = .next ((payload 1#8 1#8 71).raise .truncatedCsiData 0x2000#16) ∧
    issue 0x3000#16 blank = .next (blank.raise .unsupportedDimension 0x3000#16) ∧
    issue 0x4000#16 blank = .next (blank.raise .invalidBitWidth 0x4000#16) ∧
    issue 0x5500#16 blank = .next (blank.raise .invalidBitWidth 0x5500#16) ∧
    issue 0x6500#16 blank = .next (blank.raise .invalidBitWidth 0x6500#16) ∧
    issue 0x4100#16 blank = .next (blank.raise .invalidAngleTag 0x4100#16) ∧
    issue 0x5440#16 (angle 0#64 3#2) = .next ((angle 0#64 3#2).raise .invalidAngleTag 0x5440#16) ∧
    issue 0x6100#16 blank = .next (blank.raise .invalidAngleTag 0x6100#16) ∧
    issue 0x0000#16 blank = .next (blank.raise .illegalCommand 0x0000#16) :=
  ⟨rfl, rfl, rfl, rfl, rfl, rfl, rfl, rfl, rfl, rfl, rfl, rfl, rfl, rfl⟩

theorem witness_FaultedBlockIgnoresEverythingButReset : halted.run = .faulted ∧
    ∀ a ∈ [HostAction.issue 0x7000#16, .write .ntx 3, .read .err], a ≠ .reset ∧ ∀ r, a = .read r → r.outsideBuf = false := by
  refine ⟨rfl, ?_⟩
  simp
  rfl

theorem witness_OnlyResetLeavesFaulted : ({ halted with host := [.reset] } : State).run = .faulted ∧
    step { halted with host := [.reset] } = .next (State.hostReset halted) ∧ (State.hostReset halted).run = .ready := ⟨rfl, rfl, rfl⟩

theorem witness_ResetLeavesSpecifiedValues : perform .reset halted = .next (State.hostReset halted) := rfl

theorem witness_CommandsAfterResetFault : State.reset = State.reset ∧ perform .reset halted = .next (State.hostReset halted) ∧
    legalSubcarrier 29 = true ∧ legalSlot 5 = true ∧ 1 ≤ (1#4).toNat ∧ (4#4).toNat ≤ 4 :=
  ⟨rfl, rfl, by decide, by decide, by decide, by decide⟩

/-- The invariant holds of a state that no reset gives, and a step from it is taken. -/
theorem witness_StepKeepsInvariant : (blank.withFetchWord 16 0x7000).Inv ∧
    ∃ t, step (blank.withFetchWord 16 0x7000) = .next t :=
  ⟨⟨Memory.wf_nil, by simp [blank, State.withFetchWord], Nat.zero_le _, Nat.two_pow_pos _, by decide, by decide, by decide⟩, _, rfl⟩

/-- Each command completes somewhere, and CSIX enters a fault somewhere. -/
theorem witness_CommandsWriteOnlyTheirColumn : (after (exec (.hdr false) header) State.run = some .ready) ∧
    (after (exec .csix (payload 1#8 1#8 72)) State.run = some .ready) ∧
    (after (exec (.decomp 29) (matrix identity)) State.run = some .ready) ∧
    (after (exec (.quant 0 2 3) (angle 0x3FD3333333333333#64 2#2)) State.run = some .ready) ∧
    (after (exec (.dequant 0 2 3) (angle 0#64 2#2)) State.run = some .ready) ∧
    (after (exec (.pack 0 3) (codes fixedTags (Vector.replicate 6 63#6))) State.run = some .ready) ∧
    (after (exec (.unpack 0) blank) State.run = some .ready) ∧
    (after (exec .csix blank) State.run = some .faulted) := by decide +kernel

/-- HDR refuses an unwritten byte below the length. -/
theorem witness_EveryCommandTerminates : exec (.hdr false) { blank with bufLen := 20 } = .refused .unwrittenBuffer ∧
    (1 < ({ blank with bufLen := 20 } : State).bufLen) ∧ State.memRead { blank with bufLen := 20 } 1 = none := ⟨rfl, by decide, rfl⟩

theorem witness_SubcarrierCommandsKeepOtherSubcarriers : subcarrierField (.unpack 29) = some 29 ∧
    (∃ t, exec (.unpack 29) blank = .next t) ∧ (0 : Fin 30).val ≠ (29#5).toNat := ⟨rfl, ⟨_, rfl⟩, by decide⟩

theorem witness_DistinctSubcarrierCommandsCommute : ∃ ti tj, subcarrierField (.unpack 29) = some 29#5 ∧
    subcarrierField (.decomp 0) = some 0#5 ∧ (29#5) ≠ 0#5 ∧ exec (.unpack 29) (matrix identity) = .next ti ∧ ti.run = .ready ∧
    exec (.decomp 0) (matrix identity) = .next tj ∧ tj.run = .ready :=
  ⟨_, _, rfl, rfl, by decide, rfl, rfl, rfl, rfl⟩

/-- Both clauses: a buffer one byte too short, and 20 bytes of which the counts are 3; 0 and 4 are the counts next to the range. -/
theorem witness_HdrParsesHeader : header.run = .ready ∧ ({ header with bufLen := 19 } : State).bufLen < 1 + 19 ∧
    (1 + 19 ≤ header.bufLen ∧ ∀ k, k < 19 → k ≠ 5 → k ≠ 6 → header.memRead (1 + k) = some (t1.getD (1 + k) 0#8)) ∧
    ∀ b : Byte, ∀ k, k < 19 → ({ header with buf := bytes 20 fun _ => b } : State).memRead (1 + k) = some b :=
  ⟨rfl, by decide, ⟨by decide, fun _ h _ _ => read_bytes (by omega)⟩, fun _ _ h => read_bytes (by omega)⟩

/-- The 20 bytes of T1 with the receive noise at both sides of the sign: the counts are 3, and byte 12 is 127 or 128. -/
theorem witness_SignedByteReadsAsTwosComplement : header.run = .ready ∧ 1 + 19 ≤ header.bufLen ∧
    ∀ b : Byte, ∃ h : Nat → Byte, h 12 = b ∧ h 7 = 3#8 ∧ h 8 = 3#8 ∧
      ∀ k, k < 19 → k ≠ 5 → k ≠ 6 →
        ({ header with buf := bytes 20 fun k => if k = 13 then b else t1.getD k 0#8 } : State).memRead (1 + k) = some (h k) :=
  ⟨rfl, by decide, fun b => ⟨fun k => if 1 + k = 13 then b else t1.getD (1 + k) 0#8, rfl, rfl, rfl,
    fun _ h _ _ => read_bytes (f := fun k => if k = 13 then b else t1.getD k 0#8) (by omega)⟩⟩

/-- The smallest shape and the largest, each with exactly the bytes it needs. -/
theorem witness_CsixExtractsTensor :
    (∀ a, a < 60 * (1 * 1) + 12 → (payload 1#8 1#8 72).memRead ((payload 1#8 1#8 72).payBase + a) = some (BitVec.ofNat 8 (7 * a + 3))) ∧
    (∀ a, a < 60 * (3 * 3) + 12 → (payload 3#8 3#8 552).memRead ((payload 3#8 3#8 552).payBase + a) = some (BitVec.ofNat 8 (7 * a + 3))) ∧
    (payload 1#8 1#8 72).payBase + 60 * (1 * 1) + 12 ≤ (payload 1#8 1#8 72).bufLen ∧
    (payload 3#8 3#8 552).payBase + 60 * (3 * 3) + 12 ≤ (payload 3#8 3#8 552).bufLen ∧ (payload 3#8 3#8 552).run = .ready := by
  refine ⟨fun a h => ?_, fun a h => ?_, by decide, by decide, rfl⟩ <;>
  · rw [show ∀ n m l, (payload n m l).payBase + a = a from fun _ _ _ => Nat.zero_add a]
    exact read_bytes (by omega)

/-- Counts 0 and 4 on either side of the range, and a length one below what the shape needs. -/
theorem witness_CsixChecksCountsThenLength : (payload 0#8 3#8 552).run = .ready ∧
    ¬ ((0#8).toNat = 1 ∨ (0#8).toNat = 2 ∨ (0#8).toNat = 3) ∧ ¬ ((4#8).toNat = 1 ∨ (4#8).toNat = 2 ∨ (4#8).toNat = 3) ∧
    (payload 3#8 3#8 551).bufLen < (payload 3#8 3#8 551).payBase + 60 * (3#8).toNat * (3#8).toNat + 12 := by decide

/-- Two bytes that are written; bit 7 of the window at offset 0 is in the first, at offset 7 in the second. -/
theorem witness_WindowTakesEightBitsAtOffset : (payload 1#8 1#8 72).memRead ((payload 1#8 1#8 72).payBase + 70) = some 0xED#8 ∧
    (payload 1#8 1#8 72).memRead ((payload 1#8 1#8 72).payBase + 70 + 1) = some 0xF4#8 ∧ (7 < 8 ∧ 0 + 7 < 8) ∧ ¬ 7 + 7 < 8 := by
  decide +kernel

theorem witness_NumHasPropertiesP1ToP5 : flt 0#64 fOne = true ∧ (fIsFinite fOne = true ∧ ¬ (fIsZero fOne = true ∧ fIsZero 0#64 = true)) ∧
    (fle fNegOne fNegOne = true ∧ fle fNegOne fOne = true ∧ fle fOne fOne = true) ∧ fIsNaN fPi = false ∧ fIsZero fPi = false ∧
    fIsZero 0x8000000000000000#64 = true := by decide +kernel

theorem witness_BasicOperationsRoundToNearest : fIsFinite fPi = true ∧ fIsFinite 0x1#64 = true ∧ fIsFinite (fadd fPi fOne) = true ∧
    fIsFinite (fsub fPi 0x1#64) = true ∧ fIsFinite (fmul fPi 0x1#64) = true ∧ fIsZero fPi = false ∧
    fIsFinite (fdiv fOne fPi) = true := by decide +kernel

/-- 2^53 + 1 as a sum and as a difference lies between 2^53 and 2^53 + 2; (1 + 2^-52) * 1.5 lies between two neighbours of 1.5; three
of the smallest units over 2 lie between one and two of them. Of each two the even one is returned. -/
theorem witness_TiesGoToEven :
    (let x := 0x4340000000000000#64
     let z := 0x4340000000000001#64
     fadd x fOne = x ∧ fVal z ≠ fVal x ∧ |fVal z - (fVal x + fVal fOne)| = |fVal x - (fVal x + fVal fOne)| ∧
     fsub z fOne = x ∧ |fVal z - (fVal z - fVal fOne)| = |fVal x - (fVal z - fVal fOne)|) ∧
    (let x := 0x3FF0000000000001#64
     let y := 0x3FF8000000000000#64
     let z := 0x3FF8000000000001#64
     let r := 0x3FF8000000000002#64
     fmul x y = r ∧ fVal z ≠ fVal r ∧ |fVal z * fUnit - fVal x * fVal y| = |fVal r * fUnit - fVal x * fVal y|) ∧
    (fdiv 0x3#64 fTwo = 0x2#64 ∧ fVal 0x1#64 ≠ fVal 0x2#64 ∧
     |fVal 0x1#64 * fVal fTwo - fVal 0x3#64 * fUnit| = |fVal 0x2#64 * fVal fTwo - fVal 0x3#64 * fUnit|) := by decide +kernel

/-- The largest finite value plus half its unit in the last place is at the limit exactly, and plus the value below that half is
below it; so is a difference; (2^27 - 1) * ((2^27 + 1) * 2^970) is the limit, the largest value times 1 below it; the largest value over
1/2 is above the limit, over 1 below it. -/
theorem witness_OverflowGivesInfinity :
    let limit : Nat := (2 ^ 54 - 1) * 2 ^ 2044
    let top := 0x7FEFFFFFFFFFFFFF#64
    fIsFinite top = true ∧
    (limit ≤ (fVal top + fVal 0x7C90000000000000#64).natAbs ∧ (fVal top + fVal 0x7C8FFFFFFFFFFFFF#64).natAbs < limit) ∧
    (limit ≤ (fVal top - fVal 0xFC90000000000000#64).natAbs ∧ (fVal top - fVal top).natAbs < limit) ∧
    (limit * fUnit ≤ fMag 0x419FFFFFFC000000#64 * fMag 0x7E40000002000000#64 ∧ fMag top * fMag fOne < limit * fUnit) ∧
    (limit * fMag 0x3FE0000000000000#64 ≤ fMag top * fUnit ∧ fMag top * fUnit < limit * fMag fOne) := by decide +kernel

/-- Infinity minus infinity, infinity times zero, zero over zero, infinity over infinity, the root of -1; and one over zero. -/
theorem witness_NaNExactlyWhereInvalid :
    (fIsInf 0x7FF0000000000000#64 = true ∧ fIsInf 0xFFF0000000000000#64 = true ∧
      fSign 0x7FF0000000000000#64 ≠ fSign 0xFFF0000000000000#64) ∧
    fIsZero 0x8000000000000000#64 = true ∧ (fSign fNegOne = true ∧ fIsZero fNegOne = false) ∧ fIsFinite fNegOne = true := by decide

/-- The root of 2 lies between 1 and 2. -/
theorem witness_SquareRootRoundsToNearest : fIsFinite fTwo = true ∧ fIsZero fTwo = false ∧ fSign fTwo = false ∧
    fIsFinite fOne = true ∧ fSign fOne = false ∧ fMag fOne < fMag (fsqrt fTwo) ∧ fMag (fsqrt fTwo) < fMag fTwo := by decide +kernel

theorem witness_CeilIsLeastIntegerNotBelow : fIsFinite fNegPi = true ∧ fIsFinite 0x7FF0000000000000#64 = false := by decide

theorem witness_NegativePhasesAreShifted : flt fNegPi 0#64 = true ∧ flt fPi 0#64 = false ∧ fIsZero 0x8000000000000000#64 = true ∧
    fIsNaN 0x7FF8000000000000#64 = true := by decide +kernel

/-- The identity: every `CalcPsi` has the arguments 1 and 0. -/
theorem witness_DecompComputesSixAngles : (29#5).toNat < 30 ∧ (matrix identity).run = .ready ∧ (matrix identity).nrx = 3#8 ∧
    (matrix identity).ntx = 3#8 ∧
    (let v2 := correctRows (norm2pi (carg (applyColumnPhases identity)[0][0])) (norm2pi (carg (applyColumnPhases identity)[1][0]))
      (applyColumnPhases identity)
     let v3 := rotate01 (acos fOne) v2
     let v4 := rotate02 (acos fOne) v3
     let v5 := correctRow1 (norm2pi (carg v4[1][1])) v4
     v2[0][0].re = fOne ∧ v2[1][0].re = 0#64 ∧ v3[0][0].re = fOne ∧ v3[2][0].re = 0#64 ∧ v5[1][1].re = fOne ∧ v5[2][1].re = 0#64) := by
  decide +kernel

/-- The zero matrix at subcarrier 0, where the first `CalcPsi` has two zero arguments; a matrix whose column 1 is zero, where only the
last has; and the identity, where none has. -/
theorem witness_DecompCompletesOnEveryMatrix : (matrix identity).run = .ready ∧ (matrix identity).nrx = 3#8 ∧
    (matrix identity).ntx = 3#8 ∧ (0#5).toNat < 30 ∧ decompose (matrix identity).csi[0] = #v[some 0#64, some 0#64, none, none, none, none] ∧
    decompose #v[#v[one, zero, zero], #v[zero, zero, zero], #v[zero, zero, one]] =
      #v[some 0#64, some 0#64, some 0#64, some 0#64, some 0#64, none] ∧
    decompose identity = Vector.replicate 6 (some 0#64) := by
  decide +kernel

theorem witness_DecompRejectsOtherDimensions : blank.run = .ready ∧ legalSubcarrier 29 = true ∧
    ¬ (blank.nrx.toNat = 3 ∧ blank.ntx.toNat = 3) := by decide

theorem witness_DecompOfIdentityIsZero : ∀ r c : Fin 3, (matrix identity).csi[29][r][c] = if r = c then ⟨fOne, 0#64⟩ else ⟨0#64, 0#64⟩ := by
  decide +kernel

theorem witness_DecompIgnoresColumnTwo :
    (∀ r c : Fin 3, c ≠ 2 → (CMatrix.write identity 0 2 one)[r][c] = (matrix identity).csi[29][r][c]) ∧
    ∃ t, exec (.decomp 29) (matrix identity) = .next t := ⟨by decide +kernel, _, rfl⟩

/-- The three clauses: 0 is at the minimum threshold, 7.0 is above the maximum and 0.3 is between; at bit width 1 and tag PSI, where
the thresholds cross, pi meets both and falls under the first. -/
theorem witness_QuantWritesCodeAndReconstruction : (0#5).toNat < 30 ∧ (2#3).toNat < 6 ∧ (angle 0x3FD3333333333333#64 2#2).run = .ready ∧
    (angle 0x3FD3333333333333#64 2#2).tag[0][2] = Tag.psi.bits ∧ (angle 0x3FD3333333333333#64 2#2).ang[0][2] = 0x3FD3333333333333#64 ∧
    fIsNaN 0x3FD3333333333333#64 = false ∧ fle 0#64 (thrMin 3) = true ∧
    (fle 0x401C000000000000#64 (thrMin 4) = false ∧ fle (thrMax .phi 4) 0x401C000000000000#64 = true) ∧
    (fle 0x3FD3333333333333#64 (thrMin 3) = false ∧ fle (thrMax .psi 3) 0x3FD3333333333333#64 = false) ∧
    (fle fPi (thrMin 1) = true ∧ fle (thrMax .psi 1) fPi = true) := by decide +kernel

theorem witness_CodesNeverExceedKMax : fIsNaN 0x401C000000000000#64 = false ∧ quantize? 0x401C000000000000#64 .phi 4 = some 63 ∧
    quantize? 0x401C000000000000#64 .psi 1 = some 1 := by decide +kernel

theorem witness_QuantCornerCases : fIsZero 0x8000000000000000#64 = true ∧ fIsNaN fNegPi = false ∧ fSign fNegPi = true ∧
    ¬ (Tag.phi = .psi ∧ 1 = 1) ∧ ¬ (Tag.psi = .psi ∧ 4 = 1) := by decide

theorem witness_ReconstructionStaysWithinBounds : fIsNaN fPi = false ∧ quantize? fPi .phi 3 = some 15 := by decide +kernel

theorem witness_QuantOfNaNCompletes : (angle 0x7FF8000000000000#64 2#2).run = .ready ∧
    (angle 0x7FF8000000000000#64 2#2).tag[0][2] = Tag.psi.bits ∧ fIsNaN (angle 0x7FF8000000000000#64 2#2).ang[0][2] = true := by decide +kernel

/-- Bit widths 0 and 5 are next to the range; 1 and 4 are its ends. -/
theorem witness_QuantChecksWidthThenTag : (angle 0#64 3#2).run = .ready ∧ ((0#4).toNat < 1 ∧ 4 < (5#4).toNat ∧ 4 < (15#4).toNat) ∧
    (1 ≤ (1#4).toNat ∧ (4#4).toNat ≤ 4) ∧ (angle 0#64 3#2).tag[0][2] = 3#2 ∧ (angle 0#64 0#2).tag[0][2] = 0#2 := by decide +kernel

/-- Pi is the last angle of the first clause, the next pattern the first of the second. -/
theorem witness_WidthOnePsiHasTwoCodes : fIsNaN fPi = false ∧ fle fPi fPi = true ∧ fle 0x400921FB54442D19#64 fPi = false := by decide +kernel

theorem witness_DequantReconstructsAnyCode : (0#5).toNat < 30 ∧ (2#3).toNat < 6 ∧ 1 ≤ (1#4).toNat ∧ (4#4).toNat ≤ 4 ∧
    (angle 0#64 2#2).run = .ready ∧ (angle 0#64 2#2).tag[0][2] = Tag.psi.bits := by decide +kernel

theorem witness_DequantAfterQuantChangesNothing : fIsNaN (angle 0x3FD3333333333333#64 2#2).ang[0][2] = false ∧
    after (exec (.quant 0 2 3) (angle 0x3FD3333333333333#64 2#2)) State.run = some .ready := by decide +kernel

theorem witness_PackJoinsCodes : (codes fixedTags (Vector.replicate 6 63#6)).run = .ready ∧
    ∀ i : Fin 6, (codes fixedTags (Vector.replicate 6 63#6)).tag[0][i] =
      ((#v[.phi, .phi, .psi, .psi, .phi, .psi] : Vector Tag 6)[i]).bits := by decide +kernel

theorem witness_PackChecksWidthThenTags : blank.run = .ready ∧ ((0#4).toNat < 1 ∧ 4 < (5#4).toNat) ∧
    (1 ≤ (1#4).toNat ∧ (4#4).toNat ≤ 4 ∧ blank.tag[0][(5 : Fin 6)] = 0#2) := by decide +kernel

theorem witness_UnpackSplitsInteger : (29#5).toNat < 30 ∧ blank.run = .ready := by decide

/-- Both directions at bit width 4, tags all PHI, where every field is six bits: all codes 63, and the integer of 36 ones. Between the
two commands the codes are cleared (program P3), or the integer is. -/
theorem witness_PackAndUnpackAreInverse :
    let s := { codes (Vector.replicate 6 1#2) (Vector.replicate 6 63#6) with
      pkw := blank.pkw.set 0 (Vector.replicate 6 6#3), pki := blank.pki.set 0 0xFFFFFFFFF#36 }
    (s.run = .ready ∧ (∀ i : Fin 6, s.tag[0][i] = Tag.phi.bits) ∧ (∀ i : Fin 6, (s.code[0][i]).toNat < 2 ^ (4 + 2)) ∧
      (∀ j : Fin 6, (s.pkw[0][j]).toNat = 4 + 2) ∧ (s.pki[0]).toNat < 2 ^ (6 + 6 + 6 + 6 + 6 + 6)) ∧
    (after (exec (.pack 0 4) s) fun t => let t' := { t with code := blank.code }
      (t'.run, decide (t'.pkw[0] = t.pkw[0]), decide (t'.pki[0] = t.pki[0]))) = some (.ready, true, true) ∧
    (after (exec (.unpack 0) s) fun t => let t' := { t with pki := blank.pki }
      (t'.run, decide (t'.code[0] = t.code[0]), decide (t'.tag[0] = s.tag[0]))) = some (.ready, true, true) := by decide +kernel

/-- A cell at each end of the buffer, the two lengths at the ends of their range, and a cell of an array with its largest value. -/
theorem witness_HostWriteIsReadBack : blank.run = .ready ∧ (Reg.buf 0).hostWritable = true ∧ 0 < Config.bufCap ∧
    Config.bufCap - 1 < Config.bufCap ∧ 255 < 2 ^ Reg.width (.buf 0) ∧
    (Reg.bufLen.hostWritable = true ∧ Config.bufCap < 2 ^ Reg.width .bufLen) ∧
    ((Reg.tag 29 5).hostWritable = true ∧ 3 < 2 ^ Reg.width (.tag 29 5)) ∧ Reg.tag 29 4 ≠ Reg.tag 29 5 := by
  have h : 0 < Config.bufCap := by unfold Config.bufCap; omega
  refine ⟨rfl, rfl, h, by omega, by decide, ⟨rfl, ?_⟩, by decide, by decide⟩
  have e : Reg.width .bufLen = Nat.clog 2 (Config.bufCap + 1) := rfl
  rw [e]
  exact lt_of_lt_of_le (Nat.lt_add_one _) (Nat.le_pow_clog (by decide) _)

theorem witness_TooLargeBufLenIsRefused : Config.bufCap < Config.bufCap + 1 := Nat.lt_add_one _

theorem witness_HostReadChangesNothing : Reg.outsideBuf .err = false ∧ ({ halted with host := [.read .err] } : State).host = .read .err :: [] := ⟨rfl, rfl⟩

end Sys2Proof.Machine.Tests
end

section
/-! PROOFS. The rounding of the basic operations (00_scope.md R13, R17): each result on finite operands is `fRound` of one signed
fraction, and what holds of `fRound` is proved once and carried over to the four operations. -/

namespace Sys2Proof.Machine

/-! ### Signed magnitudes -/

/-- The integer of sign `neg` and magnitude `n`. -/
def signed (neg : Bool) (n : Nat) : Int := if neg then -(n : Int) else n

theorem fVal_eq_signed (x : F) : fVal x = signed (fSign x) (fMag x) := rfl

theorem signed_neg_natAbs (v : Int) : signed (decide (v < 0)) v.natAbs = v := by
  unfold signed
  split
  · next h =>
    rw [decide_eq_true_iff] at h
    omega
  · next h =>
    rw [decide_eq_true_iff] at h
    omega

theorem signed_mul_signed (a b : Bool) (m n : Nat) : signed a m * signed b n = signed (a != b) (m * n) := by
  cases a <;> cases b <;> simp [signed]

theorem signed_mul_natCast (a : Bool) (m n : Nat) : signed a m * (n : Int) = signed a (m * n) := by
  cases a <;> simp [signed]

/-- With the same sign a signed value is as far from a signed fraction as the magnitudes are. -/
theorem abs_signed_sub_same (neg : Bool) (m d n : Nat) : |signed neg m * d - signed neg n| = |(m * d : Int) - n| := by
  cases neg
  · rfl
  · simp only [signed, if_true]
    rw [show -(m : Int) * d - -(n : Int) = -((m * d : Int) - n) by ring, abs_neg]

/-- With the other sign it is at least as far as zero is. -/
theorem abs_signed_sub_other {s neg : Bool} (h : s ≠ neg) (m d n : Nat) : |signed s m * d - signed neg n| = (m * d : Int) + n := by
  have hn : (0 : Int) ≤ m * d + n := by positivity
  rw [← abs_of_nonneg hn]
  cases s <;> cases neg <;> simp only [ne_eq, not_true_eq_false, signed, if_true, if_false, Bool.false_eq_true] at h ⊢
  · rw [sub_neg_eq_add]
  · rw [← abs_neg]
    congr 1
    ring

/-- A divisor's sign goes over to the dividend. -/
theorem abs_mul_signed_sub (a : Int) (s t : Bool) (m n : Nat) : |a * signed s m - signed t n| = |a * m - signed (t != s) n| := by
  cases s
  · cases t <;> rfl
  · rw [← abs_neg]
    congr 1
    cases t <;> simp [signed] <;> ring

/-! ### What a rounded fraction is -/

/-- Half a unit in the last place above the largest finite magnitude, in units of 2^-1074. -/
def overflowLimit : Nat := (2 ^ 54 - 1) * 2 ^ 2044

theorem overflowLimit_eq : overflowLimit = (2 ^ 54 - 1) * 2 ^ 2044 := by rw [overflowLimit]

theorem fIsFinite_fRound_iff {neg : Bool} {n d : Nat} (hd : 0 < d) :
    fIsFinite (fRound neg n d) = true ↔ n < overflowLimit * d := by
  rw [fIsFinite_iff, fBits_fRound, (roundBits_le_inf n d).lt_iff_ne, Ne, roundBits_eq_inf_iff n d hd, not_le, overflowLimit_eq]

/-- From the limit on, a fraction rounds to the infinity of its sign. -/
theorem fRound_eq_fInf {n d : Nat} (hd : 0 < d) (h : overflowLimit * d ≤ n) (neg : Bool) : fRound neg n d = fInf neg := by
  unfold fRound fInf
  rw [(roundBits_eq_inf_iff n d hd).mpr h]

theorem fBits_fRound_of_finite {neg : Bool} {n d : Nat} (h : fIsFinite (fRound neg n d) = true) :
    fBits (fRound neg n d) = roundRaw n d := by
  rw [fIsFinite_iff, fBits_fRound, roundBits_eq_min] at h
  rw [fBits_fRound, roundBits_eq_min]
  omega

theorem fMag_fRound_of_finite {neg : Bool} {n d : Nat} (h : fIsFinite (fRound neg n d) = true) :
    fMag (fRound neg n d) = magOf (roundRaw n d) := by
  rw [fMag_eq, fBits_fRound_of_finite h]

theorem abs_fVal_fRound_sub {neg : Bool} {n d : Nat} (h : fIsFinite (fRound neg n d) = true) :
    |fVal (fRound neg n d) * d - signed neg n| = |(magOf (roundRaw n d) * d : Int) - n| := by
  rw [fVal_eq_signed, fSign_fRound, abs_signed_sub_same, fMag_fRound_of_finite h]

/-- No value is nearer a signed fraction than the fraction rounded, where that is finite. -/
theorem fRound_nearest {neg : Bool} {n d : Nat} (hd : 0 < d) (h : fIsFinite (fRound neg n d) = true) (z : F) :
    |fVal (fRound neg n d) * d - signed neg n| ≤ |fVal z * d - signed neg n| := by
  rw [abs_fVal_fRound_sub h, fVal_eq_signed z]
  by_cases hs : fSign z = neg
  · subst hs
    rw [abs_signed_sub_same, fMag_eq]
    exact magOf_roundRaw_nearest n d _ hd
  · rw [abs_signed_sub_other hs]
    have h0 := magOf_roundRaw_nearest n d 0 hd
    rw [magOf_eq_zero_iff.mpr rfl] at h0
    have : (0 : Int) ≤ fMag z * d := by positivity
    simp at h0
    omega

theorem getLsbD_zero_of_even {x : F} (h : fBits x % 2 = 0) : x.getLsbD 0 = false := by
  unfold fBits at h
  rw [BitVec.getLsbD, Nat.testBit_zero, decide_eq_false_iff_not]
  omega

/-- Where another value is as near a signed fraction as the fraction rounded, the lowest bit of the latter is 0. -/
theorem fRound_tie {neg : Bool} {n d : Nat} (hd : 0 < d) (h : fIsFinite (fRound neg n d) = true) {z : F}
    (hne : fVal z ≠ fVal (fRound neg n d))
    (htie : |fVal z * d - signed neg n| = |fVal (fRound neg n d) * d - signed neg n|) : (fRound neg n d).getLsbD 0 = false := by
  apply getLsbD_zero_of_even
  rw [fBits_fRound_of_finite h]
  rw [abs_fVal_fRound_sub h, fVal_eq_signed z] at htie
  rw [fVal_eq_signed (fRound neg n d), fSign_fRound, fMag_fRound_of_finite h, fVal_eq_signed z] at hne
  by_cases hs : fSign z = neg
  · subst hs
    rw [abs_signed_sub_same, fMag_eq] at htie
    exact roundRaw_tie n d (fBits z) hd (fun e => hne (by rw [fMag_eq, e])) htie
  · -- only a zero of the other sign can be as near
    rw [abs_signed_sub_other hs] at htie
    have h0 := magOf_roundRaw_nearest n d 0 hd
    rw [magOf_eq_zero_iff.mpr rfl, ← htie] at h0
    have hz : fMag z = 0 := by
      have : (fMag z : Int) * d ≤ 0 := by
        simp at h0
        omega
      have : fMag z * d ≤ 0 := by exact_mod_cast this
      rcases Nat.mul_eq_zero.mp (Nat.le_zero.mp this) with e | e <;> omega
    apply roundRaw_tie n d 0 hd
    · rw [magOf_eq_zero_iff.mpr rfl]
      intro e
      apply hne
      rw [hz, ← e]
      simp [signed]
    · rw [← htie, magOf_eq_zero_iff.mpr rfl, hz]
      simp

/-! ### Rounded integers -/

/-- A rounded integer is a rounded fraction; only the sign of a zero is its own. -/
theorem fRoundInt_eq_fRound (zneg : Bool) (v : Int) :
    ∃ neg, fRoundInt zneg v = fRound neg v.natAbs 1 ∧ signed neg v.natAbs = v := by
  unfold fRoundInt
  split
  · next h =>
    subst h
    exact ⟨zneg, f_ext (by simp) (by rw [fBits_fZero, fBits_fRound]; decide), by simp [signed]⟩
  · exact ⟨_, rfl, signed_neg_natAbs v⟩

theorem fIsFinite_fRoundInt_iff {zneg : Bool} {v : Int} : fIsFinite (fRoundInt zneg v) = true ↔ v.natAbs < overflowLimit := by
  obtain ⟨neg, e, -⟩ := fRoundInt_eq_fRound zneg v
  rw [e, fIsFinite_fRound_iff Nat.one_pos, Nat.mul_one]

theorem fRoundInt_nearest {zneg : Bool} {v : Int} (h : fIsFinite (fRoundInt zneg v) = true) (z : F) :
    |fVal (fRoundInt zneg v) - v| ≤ |fVal z - v| := by
  obtain ⟨neg, e, hv⟩ := fRoundInt_eq_fRound zneg v
  rw [e] at h ⊢
  simpa [hv] using fRound_nearest Nat.one_pos h z

theorem fRoundInt_tie {zneg : Bool} {v : Int} (h : fIsFinite (fRoundInt zneg v) = true) {z : F}
    (hne : fVal z ≠ fVal (fRoundInt zneg v)) (htie : |fVal z - v| = |fVal (fRoundInt zneg v) - v|) :
    (fRoundInt zneg v).getLsbD 0 = false := by
  obtain ⟨neg, e, hv⟩ := fRoundInt_eq_fRound zneg v
  rw [e] at h hne htie ⊢
  exact fRound_tie Nat.one_pos h hne (by simpa [hv] using htie)

/-- An integer that is no zero overflows with its own sign. -/
theorem fRoundInt_eq_fInf {v : Int} (h : overflowLimit ≤ v.natAbs) (zneg : Bool) :
    fRoundInt zneg v = fInf (decide (v < 0)) := by
  have hpos : 0 < overflowLimit := by
    rw [overflowLimit_eq]
    positivity
  unfold fRoundInt
  rw [if_neg (by omega)]
  exact fRound_eq_fInf Nat.one_pos (le_of_eq_of_le (Nat.mul_one _) h) _

/-! ### Exact results -/

/-- Rounding the value of a pattern gives the pattern back, whatever unit it is written in. -/
theorem fRound_fMag {x : F} (h : fIsNaN x = false) {d : Nat} (hd : 0 < d) : fRound (fSign x) (fMag x * d) d = x := by
  rw [← Bool.not_eq_true, fIsNaN_iff, not_lt] at h
  apply f_ext
  · simp
  · rw [fBits_fRound, fMag_eq, roundBits_magOf_mul h d hd]

theorem fUnit_pos : 0 < fUnit := by positivity

theorem fMag_pos {x : F} (h : fIsZero x = false) : 0 < fMag x := by
  rw [← Bool.not_eq_true, fIsZero_iff_mag] at h
  omega

theorem fVal_mul_fVal (x y : F) : fVal x * fVal y = signed (fSign x != fSign y) (fMag x * fMag y) :=
  signed_mul_signed _ _ _ _

/-- How far `a` times the divisor is from the dividend, with the sign taken out of the divisor. -/
theorem abs_mul_fVal_sub (a : Int) (x y : F) :
    |a * fVal y - fVal x * fUnit| = |a * fMag y - signed (fSign x != fSign y) (fMag x * fUnit)| := by
  rw [fVal_eq_signed x, fVal_eq_signed y, signed_mul_natCast, abs_mul_signed_sub]

end Sys2Proof.Machine
end

section
/-! PROOFS. The obligations on rounding: nearest, ties to even, overflow. Each operation on finite operands is one rounding. -/

namespace Sys2Proof.Machine

/-- Settles O30: sum and difference are a rounded integer, product and quotient a rounded fraction, and both roundings are nearest. -/
theorem basicOperationsRoundToNearest : Obligations.BasicOperationsRoundToNearest := by
  intro x y z hx hy _
  rw [fadd_finite hx hy, fsub_finite hx hy, fmul_finite hx hy]
  refine ⟨fun h => fRoundInt_nearest h z, fun h => fRoundInt_nearest h z, fun h => ?_, fun hy0 h => ?_⟩
  · rw [fVal_mul_fVal x y]
    exact fRound_nearest fUnit_pos h z
  · rw [fdiv_finite hx hy hy0] at h ⊢
    rw [abs_mul_fVal_sub, abs_mul_fVal_sub]
    exact fRound_nearest (fMag_pos hy0) h z

/-- Settles O31: of both roundings, a tie goes to even. -/
theorem tiesGoToEven : Obligations.TiesGoToEven := by
  intro x y z hx hy _
  rw [fadd_finite hx hy, fsub_finite hx hy, fmul_finite hx hy]
  refine ⟨fun h => fRoundInt_tie h, fun h => fRoundInt_tie h, fun h hne ht => ?_, fun hy0 h hne ht => ?_⟩
  · rw [fVal_mul_fVal x y] at ht
    exact fRound_tie fUnit_pos h hne ht
  · rw [fdiv_finite hx hy hy0] at h hne ht ⊢
    rw [abs_mul_fVal_sub, abs_mul_fVal_sub] at ht
    exact fRound_tie (fMag_pos hy0) h hne ht

/-- The two infinities as patterns. -/
theorem fInf_eq (neg : Bool) : fInf neg = if neg then 0xFFF0000000000000#64 else 0x7FF0000000000000#64 := by
  cases neg <;> decide

/-- Settles O32: both roundings give the infinity from the limit on and a finite value below it. -/
theorem overflowGivesInfinity : Obligations.OverflowGivesInfinity := by
  intro x y limit hx hy hlimit
  rw [← overflowLimit_eq] at hlimit
  simp only [hlimit, ← fInf_eq]
  rw [fadd_finite hx hy, fsub_finite hx hy, fmul_finite hx hy]
  refine ⟨?_, ?_, ?_, fun hy0 => ?_⟩
  · exact ⟨fun h => fRoundInt_eq_fInf h _, fIsFinite_fRoundInt_iff.mpr⟩
  · exact ⟨fun h => fRoundInt_eq_fInf h _, fIsFinite_fRoundInt_iff.mpr⟩
  · exact ⟨fun h => fRound_eq_fInf fUnit_pos h _, (fIsFinite_fRound_iff fUnit_pos).mpr⟩
  · rw [fdiv_finite hx hy hy0]
    exact ⟨fun h => fRound_eq_fInf (fMag_pos hy0) h _, (fIsFinite_fRound_iff (fMag_pos hy0)).mpr⟩

end Sys2Proof.Machine
end

section
/-! PROOFS. The obligations on NaNs, the square root and CEIL (00_scope.md R13, R17). -/

namespace Sys2Proof.Machine

/-! ### Where a NaN comes from -/

theorem fIsNaN_of_inf {x : F} (h : fIsInf x = true) : fIsNaN x = false := by
  rw [fIsInf_iff] at h
  rw [← Bool.not_eq_true, fIsNaN_iff]
  omega

theorem fIsZero_of_inf {x : F} (h : fIsInf x = true) : fIsZero x = false := by
  rw [fIsInf_iff] at h
  rw [← Bool.not_eq_true, fIsZero_iff, h]
  norm_num

@[simp] theorem fIsInf_fInf (neg : Bool) : fIsInf (fInf neg) = true := fIsInf_iff.mpr (fBits_fInf neg)

@[simp] theorem fIsNaN_fInf (neg : Bool) : fIsNaN (fInf neg) = false := fIsNaN_of_inf (fIsInf_fInf neg)

@[simp] theorem fIsNaN_fZero (neg : Bool) : fIsNaN (fZero neg) = false := by
  cases neg <;> decide

theorem fIsInf_fneg {x : F} (h : fIsNaN x = false) : fIsInf (fneg x) = fIsInf x := by
  rw [Bool.eq_iff_iff, fIsInf_iff, fIsInf_iff, fBits_fneg h]

theorem fIsNaN_fneg {x : F} (h : fIsNaN x = false) : fIsNaN (fneg x) = false := by
  rw [← Bool.not_eq_true, fIsNaN_iff] at h ⊢
  rwa [fBits_fneg (by rwa [← Bool.not_eq_true, fIsNaN_iff])]

/-- A sum is a NaN where infinities cancel, and nowhere else. -/
theorem fIsNaN_fsum (op : Config.FOp) (x y : F) {a b : F} (ha : fIsNaN a = false) (hb : fIsNaN b = false) :
    fIsNaN (fsum op x y a b) = true ↔ fIsInf a = true ∧ fIsInf b = true ∧ fSign a ≠ fSign b := by
  unfold fsum
  split
  · next h =>
    split
    · next hc => simpa [h, fIsNaN_fNaN] using hc
    · next hc => simpa [h, ha] using hc
  · next h =>
    split
    · simp [h, hb]
    · simp [h, fIsNaN_fRoundInt]

/-- Where an operand is a NaN so is the result. -/
theorem fIsNaN_fNaN_iff_of_operand (op : Config.FOp) {x y : F} (h : (fIsNaN x || fIsNaN y) = true) (invalid : Prop) :
    fIsNaN (fNaN op x y) = true ↔ fIsNaN x = true ∨ fIsNaN y = true ∨ invalid := by
  rw [Bool.or_eq_true] at h
  exact iff_of_true (fIsNaN_fNaN op x y) (or_assoc.mp (Or.inl h))

theorem fIsNaN_fadd_iff (x y : F) : fIsNaN (fadd x y) = true ↔
    fIsNaN x = true ∨ fIsNaN y = true ∨ (fIsInf x = true ∧ fIsInf y = true ∧ fSign x ≠ fSign y) := by
  unfold fadd
  split
  · next h => exact fIsNaN_fNaN_iff_of_operand _ h _
  · next h =>
    obtain ⟨hx, hy⟩ : fIsNaN x = false ∧ fIsNaN y = false := by simpa using h
    simp [fIsNaN_fsum _ _ _ hx hy, hx, hy]

theorem fIsNaN_fsub_iff (x y : F) : fIsNaN (fsub x y) = true ↔
    fIsNaN x = true ∨ fIsNaN y = true ∨ (fIsInf x = true ∧ fIsInf y = true ∧ fSign x = fSign y) := by
  unfold fsub
  split
  · next h => exact fIsNaN_fNaN_iff_of_operand _ h _
  · next h =>
    obtain ⟨hx, hy⟩ : fIsNaN x = false ∧ fIsNaN y = false := by simpa using h
    simp [fIsNaN_fsum _ _ _ hx (fIsNaN_fneg hy), fIsInf_fneg hy, fSign_fneg hy, hx, hy]

theorem fIsNaN_fmul_iff (x y : F) : fIsNaN (fmul x y) = true ↔
    fIsNaN x = true ∨ fIsNaN y = true ∨ (fIsInf x = true ∧ fIsZero y = true) ∨ (fIsZero x = true ∧ fIsInf y = true) := by
  unfold fmul
  simp only
  split
  · next h => exact fIsNaN_fNaN_iff_of_operand _ h _
  · next h =>
    obtain ⟨hx, hy⟩ : fIsNaN x = false ∧ fIsNaN y = false := by simpa using h
    split
    · next hi =>
      rw [Bool.or_eq_true] at hi
      split
      · next hz =>
        rw [Bool.or_eq_true] at hz
        rcases hi with ix | iy
        · have zy : fIsZero y = true := by simpa [fIsZero_of_inf ix] using hz
          simp [fIsNaN_fNaN, ix, zy]
        · have zx : fIsZero x = true := by simpa [fIsZero_of_inf iy] using hz
          simp [fIsNaN_fNaN, iy, zx]
      · next hz =>
        obtain ⟨zx, zy⟩ : fIsZero x = false ∧ fIsZero y = false := by simpa using hz
        simp [hx, hy, zx, zy]
    · next hi =>
      obtain ⟨ix, iy⟩ : fIsInf x = false ∧ fIsInf y = false := by simpa using hi
      simp [hx, hy, ix, iy, fIsNaN_fRound]

theorem fIsNaN_fdiv_iff (x y : F) : fIsNaN (fdiv x y) = true ↔
    fIsNaN x = true ∨ fIsNaN y = true ∨ (fIsZero x = true ∧ fIsZero y = true) ∨ (fIsInf x = true ∧ fIsInf y = true) := by
  unfold fdiv
  simp only
  split
  · next h => exact fIsNaN_fNaN_iff_of_operand _ h _
  · next h =>
    obtain ⟨hx, hy⟩ : fIsNaN x = false ∧ fIsNaN y = false := by simpa using h
    split
    · next ix =>
      split
      · next iy => simp [fIsNaN_fNaN, ix, iy]
      · next iy => simp [hx, hy, fIsZero_of_inf ix, iy]
    · next ix =>
      split
      · next iy => simp [hx, hy, ix, fIsZero_of_inf iy]
      · split
        · next zy =>
          split
          · next zx => simp [fIsNaN_fNaN, zx, zy]
          · next zx => simp [hx, hy, ix, zx]
        · next zy => simp [fIsNaN_fRound, hx, hy, ix, zy]

theorem fIsNaN_fsqrt_iff (x : F) : fIsNaN (fsqrt x) = true ↔ fIsNaN x = true ∨ (fSign x = true ∧ fIsZero x = false) := by
  unfold fsqrt
  split
  · next hn => simp [fIsNaN_fNaN, hn]
  · next hn =>
    split
    · next hz => simp [hn, hz]
    · next hz =>
      split
      · next hs => simpa [fIsNaN_fNaN, hs] using Or.inr hz
      · next hs =>
        split
        · simp [hn, hs]
        · rw [fIsNaN_fRound]
          simp [hn, hs]

theorem fIsFinite_of_zero {z : F} (h : fIsZero z = true) : fIsFinite z = true := by
  rw [fIsZero_iff] at h
  rw [fIsFinite_iff, h]
  norm_num

/-- A finite value that is no zero over a zero. -/
theorem fdiv_zero {x y : F} (hx : fIsFinite x = true) (hx0 : fIsZero x = false) (hy : fIsZero y = true) :
    fdiv x y = fInf (fSign x != fSign y) := by
  have hy' := fIsFinite_of_zero hy
  simp [fdiv, fIsNaN_of_finite hx, fIsNaN_of_finite hy', fIsInf_of_finite hx, fIsInf_of_finite hy', hx0, hy]

/-- Settles O33, operation by operation along its branches. -/
theorem nanExactlyWhereInvalid : Obligations.NaNExactlyWhereInvalid := by
  intro x y
  refine ⟨fIsNaN_fadd_iff x y, fIsNaN_fsub_iff x y, fIsNaN_fmul_iff x y, fIsNaN_fdiv_iff x y, fIsNaN_fsqrt_iff x,
    fun hx hx0 hy => ?_⟩
  rw [fdiv_zero hx hx0 hy]
  exact ⟨fIsInf_fInf _, fSign_fInf _⟩

/-! ### The square root -/

/-- The root of `e` in sixteenths of a unit: twice the integer root of `64 * e`, and one more where that root is not exact. -/
def stickyRoot (e : Nat) : Nat :=
  let r := isqrt (e * 64)
  if r * r = e * 64 then 2 * r else 2 * r + 1

/-- The extra bit decides a comparison with an even number as the exact root would (here and in the next lemma). -/
theorem four_mul_le_of_stickyRoot_le {e m : Nat} (h : stickyRoot e ≤ 8 * m) : 4 * e ≤ m * m := by
  obtain ⟨-, hi⟩ := isqrt_spec (e * 64)
  unfold stickyRoot at h
  generalize isqrt (e * 64) = r at *
  simp only at h
  split at h
  · next hr => nlinarith [Nat.mul_le_mul (show r ≤ 4 * m by omega) (show r ≤ 4 * m by omega)]
  · nlinarith [Nat.mul_le_mul (show r + 1 ≤ 4 * m by omega) (show r + 1 ≤ 4 * m by omega)]

theorem le_four_mul_of_le_stickyRoot {e m : Nat} (h : 8 * m ≤ stickyRoot e) : m * m ≤ 4 * e := by
  obtain ⟨lo, -⟩ := isqrt_spec (e * 64)
  unfold stickyRoot at h
  generalize isqrt (e * 64) = r at *
  simp only at h
  have hm : 4 * m ≤ r := by
    split at h <;> omega
  nlinarith [Nat.mul_le_mul hm hm]

theorem stickyRoot_le {e b : Nat} (h : e < b * b) : stickyRoot e ≤ 16 * b := by
  obtain ⟨lo, -⟩ := isqrt_spec (e * 64)
  unfold stickyRoot
  generalize isqrt (e * 64) = r at *
  have hr : r < 8 * b := by
    by_contra hc
    have := Nat.mul_le_mul (Nat.le_of_not_lt hc) (Nat.le_of_not_lt hc)
    nlinarith
  simp only
  split <;> omega

/-- A magnitude `r / 16` that is at least as near `n / 16` as `z` is lies on the same side of the middle between the two. -/
theorem middle_of_nearest {r z n : Nat} (h : |(r * (16 : Nat) : Int) - n| ≤ |(z * (16 : Nat) : Int) - n|) :
    (r < z → n ≤ 8 * (r + z)) ∧ (z < r → 8 * (r + z) ≤ n) := by
  rcases abs_cases ((r * (16 : Nat) : Int) - n) with ⟨er, _⟩ | ⟨er, _⟩ <;>
  rcases abs_cases ((z * (16 : Nat) : Int) - n) with ⟨ez, _⟩ | ⟨ez, _⟩ <;>
  · rw [er, ez] at h
    omega

theorem magOf_fInfBits : magOf fInfBits = 2 ^ 53 * 2 ^ 2045 := by
  have h : fInfBits = 2045 * 2 ^ 52 + 2 ^ 53 := by norm_num
  rw [h]
  exact magOf_shift _ _ le_rfl (Or.inr (by norm_num))

/-- The root of a finite value is far below the largest finite value. -/
theorem stickyRoot_lt_overflowLimit {x : F} (hx : fIsFinite x = true) : stickyRoot (fMag x * fUnit) < overflowLimit * 16 := by
  have he : fMag x * fUnit < 2 ^ 1586 * 2 ^ 1586 := by
    calc fMag x * fUnit < magOf fInfBits * fUnit := Nat.mul_lt_mul_of_pos_right (fMag_lt_of_finite hx) fUnit_pos
      _ = _ := by rw [magOf_fInfBits, ← pow_add, ← pow_add, ← pow_add]
  have hp : 2 ^ 1586 < 2 ^ 2044 := Nat.pow_lt_pow_right (by norm_num) (by norm_num)
  have hs := stickyRoot_le he
  rw [overflowLimit_eq]
  generalize 2 ^ 1586 = a at *
  generalize 2 ^ 2044 = b at *
  omega

/-- The root of a positive finite operand is its sticky root rounded. -/
theorem fsqrt_eq_fRound {x : F} (hx : fIsFinite x = true) (h0 : fIsZero x = false) (hs : fSign x = false) :
    fsqrt x = fRound false (stickyRoot (fMag x * fUnit)) 16 := by
  have shift : ∀ m k : Nat, m * 2 ^ (k + 6) = m * 2 ^ k * 64 := fun m k => by ring
  unfold fsqrt
  rw [if_neg (by simp [fIsNaN_of_finite hx]), if_neg (by simp [h0]), if_neg (by simp [hs]), if_neg (by simp [fIsInf_of_finite hx]),
    shift (fMag x) 1074]
  rfl

/-- Settles O34: the sticky root lies on the same side of each middle of two values as the exact root, and its rounding is nearest. -/
theorem squareRootRoundsToNearest : Obligations.SquareRootRoundsToNearest := by
  intro x z hx h0 hs _ _
  rw [fsqrt_eq_fRound hx h0 hs]
  have hf : fIsFinite (fRound false (stickyRoot (fMag x * fUnit)) 16) = true :=
    (fIsFinite_fRound_iff (by norm_num)).mpr (stickyRoot_lt_overflowLimit hx)
  have hn := magOf_roundRaw_nearest (stickyRoot (fMag x * fUnit)) 16 (fBits z) (by norm_num)
  rw [← fMag_fRound_of_finite hf, ← fMag_eq] at hn
  obtain ⟨below, above⟩ := middle_of_nearest hn
  exact ⟨hf, fSign_fRound _ _ _, fun h => four_mul_le_of_stickyRoot_le (below h), fun h => le_four_mul_of_le_stickyRoot (above h)⟩

/-! ### CEIL -/

/-- Settles O35: a negative operand's quotient is rounded towards zero, another's upwards. -/
theorem ceilIsLeastIntegerNotBelow : Obligations.CeilIsLeastIntegerNotBelow := by
  intro x
  unfold ceil?
  refine ⟨fun h => ⟨_, if_pos h, ?_⟩, fun h => if_neg (by simp [h])⟩
  have hu := fUnit_pos
  unfold fVal
  generalize fMag x = m
  generalize fUnit = u at *
  cases fSign x
  · have hd := Nat.div_add_mod (m + (u - 1)) u
    have hr := Nat.mod_lt (m + (u - 1)) hu
    generalize (m + (u - 1)) / u = q at *
    rw [Nat.mul_comm] at hd
    have lo : m ≤ q * u := by omega
    have hi : q * u < m + u := by omega
    simp only [Bool.false_eq_true, if_false]
    constructor
    · exact_mod_cast lo
    · have : (q * u : Int) < m + u := by exact_mod_cast hi
      linarith
  · have lo : m / u * u ≤ m := Nat.div_mul_le_self m u
    have hi : m < (m / u + 1) * u := (Nat.div_lt_iff_lt_mul hu).mp (Nat.lt_succ_self _)
    generalize m / u = q at *
    simp only [if_true]
    constructor
    · have : (q * u : Int) ≤ m := by exact_mod_cast lo
      linarith
    · have : (m : Int) < (q + 1) * u := by exact_mod_cast hi
      linarith

end Sys2Proof.Machine
end

section
/-! PROOFS. The properties P1 to P5 of 00_scope.md R18. -/

namespace Sys2Proof.Machine

/-! ### P4: forced ranges -/

/-- A forced value lies in its range, where `+0` does. -/
theorem fForceRange_mem {lo hi : F} (hlo : fle lo fPosZero = true) (hhi : fle fPosZero hi = true) (x : F) :
    fle lo (fForceRange lo hi x) = true ∧ fle (fForceRange lo hi x) hi = true := by
  unfold fForceRange
  split
  · next h => simpa [fInRange] using h
  · exact ⟨hlo, hhi⟩

theorem atan2_mem {y x : F} (hy : fIsFinite y = true) (hx : fIsFinite x = true)
    (h0 : ¬ (fIsZero y = true ∧ fIsZero x = true)) : fle fNegPi (atan2 y x) = true ∧ fle (atan2 y x) fPi = true := by
  unfold atan2
  split
  · decide +kernel
  · rw [← Bool.and_eq_true, Bool.not_eq_true] at h0
    rw [if_pos (by simp [hy, hx, h0])]
    exact fForceRange_mem (by decide +kernel) (by decide +kernel) _

theorem acos_mem {x : F} (h1 : fle fNegOne x = true) (h2 : fle x fOne = true) :
    fle fPosZero (acos x) = true ∧ fle (acos x) fPi = true := by
  unfold acos
  split
  · decide +kernel
  · rw [if_pos (by simp [fInRange, h1, h2])]
    exact fForceRange_mem (by decide +kernel) (by decide +kernel) _

/-! ### P5: exact operations -/

theorem fMag_fOne : fMag fOne = fUnit := by decide +kernel

theorem fmul_one {x : F} (h : fIsNaN x = false) : fmul x fOne = x := by
  cases hf : fIsFinite x
  · have hi := fIsInf_of_not_finite hf h
    have e : fmul x fOne = fInf (fSign x) := by
      simp [fmul, h, hi, fIsZero_of_inf hi, show fIsNaN fOne = false by decide, show fIsZero fOne = false by decide,
        show fSign fOne = false by decide]
    rw [e]
    exact f_ext (fSign_fInf _) (by rw [fBits_fInf, fIsInf_iff.mp hi])
  · rw [fmul_finite hf (by decide), fMag_fOne, show fSign fOne = false by decide, Bool.bne_false]
    exact fRound_fMag h fUnit_pos

theorem fmul_zero {x z : F} (hx : fIsFinite x = true) (hz : fIsZero z = true) : fIsZero (fmul x z) = true := by
  have h0 : magOf 0 = 0 := magOf_eq_zero_iff.mpr rfl
  have hb := roundBits_magOf_mul (Nat.zero_le fInfBits) fUnit fUnit_pos
  rw [fmul_finite hx (fIsFinite_of_zero hz), fIsZero_iff, fBits_fRound, fIsZero_iff_mag.mp hz, Nat.mul_zero]
  rwa [h0, Nat.zero_mul] at hb

/-- The value of a pattern that is no zero rounds to the pattern. -/
theorem fRoundInt_fVal {x : F} (h : fIsNaN x = false) (h0 : fIsZero x = false) (zneg : Bool) : fRoundInt zneg (fVal x) = x := by
  have hm := fMag_pos h0
  have habs : (fVal x).natAbs = fMag x * 1 := by
    unfold fVal
    cases fSign x <;> simp
  have hneg : decide (fVal x < 0) = fSign x := by
    unfold fVal
    cases fSign x <;> simp [hm]
  unfold fRoundInt
  rw [if_neg (by omega), hneg, habs, fRound_fMag h Nat.one_pos]

theorem fadd_zero {x z : F} (h : fIsNaN x = false) (h0 : fIsZero x = false) (hz : fIsZero z = true) : fadd x z = x := by
  have hzf := fIsFinite_of_zero hz
  cases hf : fIsFinite x
  · simp [fadd, fsum, h, fIsNaN_of_finite hzf, fIsInf_of_not_finite hf h, fIsInf_of_finite hzf]
  · have hv : fVal z = 0 := by simp [fVal, fIsZero_iff_mag.mp hz]
    have hm := fMag_pos h0
    rw [fadd_finite hf hzf, hv, add_zero, fRoundInt_fVal h h0]

theorem fdiv_self {x : F} (hx : fIsFinite x = true) (h0 : fIsZero x = false) : fdiv x x = fOne := by
  rw [fdiv_finite hx hx h0, bne_self_eq_false, Nat.mul_comm, ← fMag_fOne]
  exact fRound_fMag (x := fOne) (by decide) (fMag_pos h0)

theorem fsqrt_one : fsqrt fOne = fOne := by decide +kernel

/-- Settles O29: P1 to P3 are the first branches of the free functions, P4 their forced ranges, P5 the exactness of rounding. -/
theorem numHasPropertiesP1ToP5 : Obligations.NumHasPropertiesP1ToP5 := by
  refine ⟨⟨by simp [atan2], fun x h => by simp [atan2, h]⟩, if_pos rfl, ⟨if_pos rfl, if_pos rfl⟩,
    ⟨fun y x hy hx h0 => atan2_mem hy hx h0, fun x h1 h2 => acos_mem h1 h2⟩, fun x h => fmul_one h, fun x z hx hz => fmul_zero hx hz,
    fun x z h h0 hz => fadd_zero h h0 hz, fun x hx h0 => fdiv_self hx h0, fsqrt_one⟩

end Sys2Proof.Machine
end

section
/-! PROOFS. HDR's signed byte (00_scope.md R15, 40_header_parser.md R93). -/

namespace Sys2Proof.Machine

/-- HDR completes on a long enough buffer whose header bytes are written and whose counts are legal. -/
theorem exec_hdr_of_bytes {p : Bool} {s : State} {h : Nat → Byte} (hr : s.run = .ready) (hl : prefixLen p + 19 ≤ s.bufLen)
    (g : ∀ k, k < 19 → k ≠ 5 → k ≠ 6 → s.memRead (prefixLen p + k) = some (h k))
    (hc : ¬ (((h 7).toNat < 1 ∨ 3 < (h 7).toNat) ∨ (h 8).toNat < 1 ∨ 3 < (h 8).toNat)) :
    exec (.hdr p) s = .next (s.writeHeader (headerOf h) (prefixLen p)) := by
  show issueEffect _ _ (hdrEffect p s) = _
  rw [hdrEffect_of_bytes hl g, if_neg hc]
  exact issueEffect_done hr _ _

/-- Settles O24: the byte HDR stores is header byte 12, whose signed value is its two's complement. -/
theorem signedByteReadsAsTwosComplement : Obligations.SignedByteReadsAsTwosComplement := by
  intro p s h hr pre hl g h7 h7' h8 h8'
  refine ⟨_, exec_hdr_of_bytes hr hl g (by omega), hr, ?_⟩
  show (h 12).toInt = _
  rw [BitVec.toInt_eq_toNat_cond]
  split <;> split <;> omega

end Sys2Proof.Machine
end

section
/-! PROOFS. The command columns of the access matrix (10_state.md R41): what a command leaves as it is. -/

namespace Sys2Proof.Machine

/-- From `s` to `t` no register changes but those in the column of the command `i` (10_state.md R41), the status registers aside. -/
structure KeepsOtherColumns (i : Instr) (s t : State) : Prop where
  draws : (∀ k, i ≠ .decomp k) → (∀ k j b, i ≠ .quant k j b) → t.draws = s.draws
  header : (∀ p, i ≠ .hdr p) → t.payBase = s.payBase ∧ t.noise = s.noise ∧ t.fcnt = s.fcnt ∧ t.nrx = s.nrx ∧ t.ntx = s.ntx ∧
    t.rssi = s.rssi ∧ t.rnoise = s.rnoise ∧ t.agc = s.agc ∧ t.antsel = s.antsel ∧ t.flen = s.flen ∧ t.rate = s.rate ∧ t.perm = s.perm
  tensor : i ≠ .csix → t.csi = s.csi ∧ t.cur = s.cur
  angles : (∀ k, i ≠ .decomp k) → t.ang = s.ang ∧ t.tag = s.tag
  recon : (∀ k j b, i ≠ .quant k j b ∧ i ≠ .dequant k j b) → t.recon = s.recon
  code : (∀ k j b, i ≠ .quant k j b ∧ i ≠ .unpack k) → t.code = s.code
  packed : (∀ k b, i ≠ .pack k b) → t.pkw = s.pkw ∧ t.pki = s.pki

theorem KeepsOtherColumns.refl (i : Instr) (s : State) : KeepsOtherColumns i s s := by constructor <;> simp

/-- Fault entry writes no register of any column (60_exceptions.md R194). -/
theorem KeepsOtherColumns.raise (i : Instr) (k : ErrKind) (w : CmdWord) (s : State) : KeepsOtherColumns i s (s.raise k w) := by
  constructor <;> simp

theorem Wrote.keepsOtherColumns {i : Instr} {s t : State} (h : Wrote i s t) : KeepsOtherColumns i s t := by
  cases i with
  | hdr p => obtain ⟨hd, -, -, rfl⟩ := h; constructor <;> simp
  | csix => obtain ⟨cur, csi, -, -, -, rfl⟩ := h; constructor <;> simp
  | decomp sc => obtain ⟨k, -, rfl⟩ := h; constructor <;> simp
  | quant sc j bw => obtain ⟨k, i, -, ⟨c, rfl⟩ | rfl⟩ := h <;> constructor <;> simp
  | dequant sc j bw => obtain ⟨k, i, x, -, rfl⟩ := h; constructor <;> simp
  | pack sc bw => obtain ⟨k, w, n, -, rfl⟩ := h; constructor <;> simp
  | unpack sc => obtain ⟨k, c, -, rfl⟩ := h; constructor <;> simp

/-- The frame of a whole command, whether it is ignored, makes its writes, or enters a fault. -/
theorem exec_keepsOtherColumns {i : Instr} {s t : State} (h : exec i s = .next t) : KeepsOtherColumns i s t := by
  rcases exec_next h with ⟨-, rfl⟩ | ⟨-, hw⟩ | ⟨-, k, rfl⟩
  · exact .refl i t
  · exact hw.keepsOtherColumns
  · exact .raise i k _ s

/-- No command writes the buffer, its length, or the model's own `host` and `resets` (20_memory.md R57). -/
theorem exec_keeps_buffer {i : Instr} {s t : State} (h : exec i s = .next t) :
    t.buf = s.buf ∧ t.bufLen = s.bufLen ∧ t.host = s.host ∧ t.resets = s.resets := by
  rcases exec_next h with ⟨-, rfl⟩ | ⟨-, hw⟩ | ⟨-, k, rfl⟩
  · exact ⟨rfl, rfl, rfl, rfl⟩
  · obtain ⟨-, -, -, hhost, hresets, hbuf, hlen⟩ := hw.status
    exact ⟨hbuf, hlen, hhost, hresets⟩
  · exact ⟨rfl, rfl, rfl, rfl⟩

/-- The status registers change by fault entry alone, which changes nothing else (60_exceptions.md R194, R198). -/
theorem exec_status {i : Instr} {s t : State} (h : exec i s = .next t) :
    (t.run = s.run ∧ t.err = s.err ∧ t.errinfo = s.errinfo) ∨ ∃ k, t = s.raise k (encode i) := by
  rcases exec_next h with ⟨-, rfl⟩ | ⟨-, hw⟩ | ⟨-, hk⟩
  · exact Or.inl ⟨rfl, rfl, rfl⟩
  · obtain ⟨hrun, herr, hinfo, -⟩ := hw.status
    exact Or.inl ⟨hrun, herr, hinfo⟩
  · exact Or.inr hk

/-- Settles O20, from the frames of the three things a command can do. -/
theorem commandsWriteOnlyTheirColumn : Obligations.CommandsWriteOnlyTheirColumn := by
  intro i s t h
  have hc := exec_keepsOtherColumns h
  exact ⟨exec_status h, exec_keeps_buffer h, hc.draws, hc.header, hc.tensor, hc.angles, hc.recon, hc.code, hc.packed⟩

end Sys2Proof.Machine
end

section
/-! PROOFS. Reset and the state invariant (10_state.md R22 to R29, R43): it holds after every reset, and every host action keeps it. -/

namespace Sys2Proof.Machine

/-! ### Reset -/

/-- A state that power-on or a reset leaves is `afterReset` of something. -/
theorem exists_afterReset {s : State} (h : s = State.reset ∨ ∃ u : State, perform .reset u = .next s) :
    ∃ n host draws, s = State.afterReset n host draws := by
  rcases h with rfl | ⟨u, h⟩
  · exact ⟨_, _, _, rfl⟩
  · exact ⟨_, _, _, (Host.Outcome.next.inj h).symm⟩

/-- Settles O15: the values are those of `afterReset`. -/
theorem resetLeavesSpecifiedValues : Obligations.ResetLeavesSpecifiedValues := by
  intro s h
  obtain ⟨n, host, draws, rfl⟩ := exists_afterReset h
  exact ⟨rfl, rfl, rfl, rfl, rfl, rfl, rfl, rfl, State.afterReset_tag n host draws⟩

theorem State.afterReset_inv (n : Nat) (host : List HostAction) (draws : Vector Nat 30) : (State.afterReset n host draws).Inv :=
  ⟨Memory.wf_nil, by simp⟩

/-- Settles O17: power-on is a reset. -/
theorem invariantHoldsAtReset : Obligations.InvariantHoldsAtReset := State.afterReset_inv _ _ _

/-! ### Commands keep the invariant -/

/-- Every length the buffer can have fits `ADDR_W` bits (00_scope.md R11). -/
theorem bufCap_lt_two_pow_addrW : Config.bufCap < 2 ^ Config.addrW := by
  rw [Config.addrW]
  exact lt_of_lt_of_le (Nat.lt_add_one _) (Nat.le_pow_clog Nat.one_lt_two _)

theorem State.Inv.raise {s : State} (h : s.Inv) (k : ErrKind) (w : CmdWord) : (s.raise k w).Inv := by
  obtain ⟨hwf, hcells, hlen, hbase, -, -, hcur⟩ := h
  exact ⟨hwf, hcells, hlen, hbase, by simp, by simp, hcur⟩

/-- `PAYBASE` is written by HDR alone, and then lies inside the loaded part of the buffer (40_header_parser.md R92). -/
theorem Wrote.payBase {i : Instr} {s t : State} (h : Wrote i s t) : t.payBase = s.payBase ∨ t.payBase ≤ s.bufLen := by
  by_cases hi : ∀ p, i ≠ .hdr p
  · exact Or.inl (h.keepsOtherColumns.header hi).1
  · push Not at hi
    obtain ⟨p, rfl⟩ := hi
    obtain ⟨hd, -, hlen, rfl⟩ := h
    exact Or.inr hlen

/-- `CUR` is written by CSIX alone, and then is `90 + 480 * NRX * NTX` (41_bit_extractor.md R110), at most 4410. -/
theorem Wrote.cur {i : Instr} {s t : State} (h : Wrote i s t) : t.cur = s.cur ∨ t.cur.toNat ≤ 4410 := by
  by_cases hi : i = .csix
  · subst hi
    obtain ⟨cur, csi, hcur, hr, ht, rfl⟩ := h
    rw [isCount_iff] at hr ht
    have hcur := extractTensor_cursor (by omega) (by omega) (by omega) (by omega) hcur
    have hpairs : s.nrx.toNat * s.ntx.toNat ≤ 3 * 3 := Nat.mul_le_mul (by omega) (by omega)
    refine Or.inr (le_trans (Nat.mod_le _ _) ?_)
    omega
  · exact Or.inl (h.keepsOtherColumns.tensor hi).2

theorem Wrote.keeps_inv {i : Instr} {s t : State} (h : Wrote i s t) (hs : s.Inv) : t.Inv := by
  obtain ⟨hwf, hcells, hlen, hbase, herr, hinfo, hcur⟩ := hs
  obtain ⟨erun, eerr, einfo, -, -, ebuf, elen⟩ := h.status
  rw [State.Inv, erun, eerr, einfo, ebuf, elen]
  refine ⟨hwf, hcells, hlen, ?_, herr, hinfo, ?_⟩
  · have := bufCap_lt_two_pow_addrW
    rcases h.payBase with e | hle <;> omega
  · rcases h.cur with e | hle
    · rwa [e]
    · exact hle

theorem exec_keeps_inv {i : Instr} {s t : State} (h : exec i s = .next t) (hs : s.Inv) : t.Inv := by
  rcases exec_next h with ⟨-, rfl⟩ | ⟨-, hw⟩ | ⟨-, k, rfl⟩
  · exact hs
  · exact hw.keeps_inv hs
  · exact hs.raise k _

theorem issue_keeps_inv {w : CmdWord} {s t : State} (h : issue w s = .next t) (hs : s.Inv) : t.Inv := by
  unfold issue at h
  split at h
  · exact exec_keeps_inv h hs
  · rcases issueEffect_next h with ⟨-, rfl⟩ | ⟨-, he⟩ | ⟨-, k, -, rfl⟩
    · exact hs
    · cases he
    · exact hs.raise k w

/-! ### The host's other actions keep the invariant -/

/-- Of the registers the host writes, only `BUF`, `BUF_LEN` and `PAYBASE` are named by the invariant. -/
theorem State.setReg_inv {s : State} (hs : s.Inv) {r : Reg} {v : Nat} (hr : r.outsideBuf = false)
    (hlen : r = .bufLen → v ≤ Config.bufCap) (hv : v < 2 ^ r.width) : (s.setReg r v).Inv := by
  have ⟨hwf, hcells, hbufLen, hpayBase, hstatus⟩ := hs
  cases r with
  | buf a =>
    refine ⟨Memory.wf_write a _ hwf, fun c hc => ?_, hbufLen, hpayBase, hstatus⟩
    rcases Memory.mem_write hc with rfl | hc
    · simpa [Reg.outsideBuf] using hr
    · exact hcells c hc
  | bufLen => exact ⟨hwf, hcells, hlen rfl, hpayBase, hstatus⟩
  | payBase => exact ⟨hwf, hcells, hbufLen, by simpa only [Reg.width, State.setReg] using hv, hstatus⟩
  | _ => exact hs

theorem hostReadStep_next {r : Reg} {s t : State} (h : hostReadStep r s = .next t) : t = s := by
  unfold hostReadStep at h
  split at h
  · cases h
  · exact (Host.Outcome.next.inj h).symm

theorem perform_keeps_inv {a : HostAction} {s t : State} (h : perform a s = .next t) (hs : s.Inv) : t.Inv := by
  cases a with
  | issue w => exact issue_keeps_inv h hs
  | write r v =>
    rcases hostWrite_next h with rfl | ⟨-, -, hr, hlen, hv, rfl⟩
    · exact hs
    · exact State.setReg_inv hs hr hlen hv
  | read r => exact hostReadStep_next h ▸ hs
  | reset =>
    cases h
    exact State.afterReset_inv _ _ _

/-- Settles O18: a step is no action or one host action, and the invariant does not name the list of actions. -/
theorem stepKeepsInvariant : Obligations.StepKeepsInvariant := by
  intro s t hs h
  unfold step at h
  split at h
  · exact Host.Outcome.next.inj h ▸ hs
  · exact perform_keeps_inv h hs

end Sys2Proof.Machine
end

section
/-! PROOFS. The host's reads and writes (10_state.md R22, R25, R41). -/

namespace Sys2Proof.Machine

/-! ### Reads -/

/-- Settles O12, by the value of `ERR`. -/
theorem errorNumbersAsRead : Obligations.ErrorNumbersAsRead := by
  intro s
  show some (errCode s.err).toNat = _
  cases s.err with
  | none => rfl
  | some k => cases k <;> rfl

theorem hostReadStep_of_inside {r : Reg} (h : r.outsideBuf = false) (s : State) : hostReadStep r s = .next s := by
  simp [hostReadStep, h]

/-- Settles O58: the step takes the read off the list and performs it. -/
theorem hostReadChangesNothing : Obligations.HostReadChangesNothing := by
  intro s r rest hr hhost
  unfold step
  rw [hhost]
  exact hostReadStep_of_inside hr _

/-! ### Writes -/

/-- Settles O57: a READY block refuses the value, a FAULTED one ignores the write. -/
theorem tooLargeBufLenIsRefused : Obligations.TooLargeBufLenIsRefused := by
  intro v s hv
  show hostWrite .bufLen v s = _
  unfold hostWrite
  cases s.run with
  | ready => simp [Reg.hostWritable, Reg.outsideBuf, hv]
  | faulted => rfl

/-- What a READY block stores. -/
theorem hostWrite_stores {r : Reg} {v : Nat} {s : State} (hs : s.run = .ready) (hw : r.hostWritable = true)
    (hr : r.outsideBuf = false) (hlen : r = .bufLen → v ≤ Config.bufCap) (hv : v < 2 ^ r.width) :
    hostWrite r v s = .next (s.setReg r v) := by
  have hlen' : ¬ (r = .bufLen ∧ Config.bufCap < v) := fun ⟨e, h⟩ => absurd (hlen e) (by omega)
  simp [hostWrite, hs, hw, hr, hlen', hv]

/-! ### What a read returns after a write to the same cell and to another one -/

theorem part_withPart_same (z : CPair) (v : F) (p : Part) : CPair.part (CPair.withPart z v p) p = v := by cases p <;> rfl

theorem part_withPart_other (z : CPair) (v : F) {p p' : Part} (h : p' ≠ p) :
    CPair.part (CPair.withPart z v p) p' = CPair.part z p' := by
  cases p with
  | re => cases p' with
    | re => exact absurd rfl h
    | im => rfl
  | im => cases p' with
    | re => rfl
    | im => exact absurd rfl h

/-- The tensor with one component of one entry written. -/
def setPart (t : Vector CMatrix 30) (k : Fin 30) (r c : Fin 3) (p : Part) (v : F) : Vector CMatrix 30 :=
  t.set k (CMatrix.write t[k] r c (CPair.withPart t[k][r][c] v p))

theorem State.setReg_csi (s : State) (k : Fin 30) (r c : Fin 3) (p : Part) (v : Nat) :
    (s.setReg (.csi k r c p) v).csi = setPart s.csi k r c p (BitVec.ofNat 64 v) := rfl

theorem setPart_same_matrix (t : Vector CMatrix 30) (k : Fin 30) (r c : Fin 3) (p : Part) (v : F) :
    (setPart t k r c p v)[k] = CMatrix.write t[k] r c (CPair.withPart t[k][r][c] v p) := by simp [setPart]

theorem setPart_other_matrix (t : Vector CMatrix 30) {k k' : Fin 30} (h : k' ≠ k) (r c : Fin 3) (p : Part) (v : F) :
    (setPart t k r c p v)[k'] = t[k'] := by
  have hne : ¬ k.val = k'.val := fun e => h (Fin.ext e.symm)
  simp [setPart, hne]

theorem part_setPart_same (t : Vector CMatrix 30) (k : Fin 30) (r c : Fin 3) (p : Part) (v : F) :
    CPair.part (setPart t k r c p v)[k][r][c] p = v := by
  rw [setPart_same_matrix, CMatrix.write_same, part_withPart_same]

/-- Another component lies in another matrix, in another entry, or beside the one written. -/
theorem part_setPart_other (t : Vector CMatrix 30) {k k' : Fin 30} {r r' c c' : Fin 3} {p p' : Part}
    (h : Reg.csi k' r' c' p' ≠ Reg.csi k r c p) (v : F) :
    CPair.part (setPart t k r c p v)[k'][r'][c'] p' = CPair.part t[k'][r'][c'] p' := by
  by_cases hk : k' = k
  · subst hk
    rw [setPart_same_matrix]
    by_cases hrc : (r', c') = (r, c)
    · obtain ⟨rfl, rfl⟩ := Prod.mk.inj hrc
      rw [CMatrix.write_same, part_withPart_other _ _ fun e => h (by rw [e])]
    · rw [CMatrix.write_other _ hrc]
  · rw [setPart_other_matrix _ hk]

theorem toNat_ofNat_of_lt {w v : Nat} (h : v < 2 ^ w) : (BitVec.ofNat w v).toNat = v := by
  rw [BitVec.toNat_ofNat, Nat.mod_eq_of_lt h]

theorem toNat_cell_setCell_same {w v : Nat} (t : Vector (Vector (BitVec w) 6) 30) (k : Fin 30) (i : Fin 6) (h : v < 2 ^ w) :
    (cell (setCell t k i (BitVec.ofNat w v)) k i).toNat = v := by
  rw [cell_setCell_same, toNat_ofNat_of_lt h]

/-- Cells of an array are told apart by their register names. -/
theorem toNat_cell_setCell_other {w : Nat} {name : Fin 30 → Fin 6 → Reg} (t : Vector (Vector (BitVec w) 6) 30) {k k' : Fin 30}
    {i i' : Fin 6} (h : name k' i' ≠ name k i) (x : BitVec w) : (cell (setCell t k i x) k' i').toNat = (cell t k' i').toNat := by
  have hne : k' ≠ k ∨ i' ≠ i := by
    by_contra hc
    push Not at hc
    exact h (by rw [hc.1, hc.2])
  rw [cell_setCell_other t hne]

/-- The register written reads as the value. -/
theorem State.hostRead_setReg_same (s : State) {r : Reg} {v : Nat} (hw : r.hostWritable = true) (hv : v < 2 ^ r.width) :
    (s.setReg r v).hostRead r = some v := by
  cases r with
  | buf a =>
    show (Memory.read a (Memory.write a (BitVec.ofNat 8 v) s.buf)).map BitVec.toNat = some v
    rw [Memory.read_write_same, Option.map_some, toNat_ofNat_of_lt (w := 8) hv]
  | bufLen | payBase => rfl
  | nrx | ntx => exact congrArg some (toNat_ofNat_of_lt hv)
  | csi k i c p =>
    show some (CPair.part (s.setReg (.csi k i c p) v).csi[k][i][c] p).toNat = some v
    rw [State.setReg_csi, part_setPart_same, toNat_ofNat_of_lt (w := 64) hv]
  | ang k i | tag k i | recon k i | code k i | pkw k i => exact congrArg some (toNat_cell_setCell_same _ k i hv)
  | pki k =>
    show some (s.pki.set k.val (BitVec.ofNat 36 v))[k.val].toNat = some v
    rw [Vector.getElem_set_self, toNat_ofNat_of_lt (w := 36) hv]
  | _ => cases hw

/-- Every other register reads as before. -/
theorem State.hostRead_setReg_other (s : State) {r r' : Reg} (v : Nat) (h : r' ≠ r) :
    (s.setReg r v).hostRead r' = s.hostRead r' := by
  cases r with
  | buf a => cases r' with
    | buf a' => exact congrArg (Option.map BitVec.toNat) (Memory.read_write_other (fun e => h (congrArg Reg.buf e)) _ s.buf)
    | _ => rfl
  | bufLen => cases r' with
    | bufLen => exact absurd rfl h
    | _ => rfl
  | payBase => cases r' with
    | payBase => exact absurd rfl h
    | _ => rfl
  | nrx => cases r' with
    | nrx => exact absurd rfl h
    | _ => rfl
  | ntx => cases r' with
    | ntx => exact absurd rfl h
    | _ => rfl
  | csi k i c p => cases r' with
    | csi k' i' c' p' => exact congrArg (some ∘ BitVec.toNat) (part_setPart_other s.csi h _)
    | _ => rfl
  | ang k i => cases r' with
    | ang k' i' => exact congrArg some (toNat_cell_setCell_other s.ang h _)
    | _ => rfl
  | tag k i => cases r' with
    | tag k' i' => exact congrArg some (toNat_cell_setCell_other s.tag h _)
    | _ => rfl
  | recon k i => cases r' with
    | recon k' i' => exact congrArg some (toNat_cell_setCell_other s.recon h _)
    | _ => rfl
  | code k i => cases r' with
    | code k' i' => exact congrArg some (toNat_cell_setCell_other s.code h _)
    | _ => rfl
  | pkw k j => cases r' with
    | pkw k' j' => exact congrArg some (toNat_cell_setCell_other s.pkw h _)
    | _ => rfl
  | pki k => cases r' with
    | pki k' =>
      have hne : k.val ≠ k'.val := fun e => h (congrArg Reg.pki (Fin.ext e.symm))
      exact congrArg (some ∘ BitVec.toNat) (Vector.getElem_set_ne k.isLt k'.isLt hne)
    | _ => rfl
  | _ => rfl

/-- Settles O56: the write is stored, and reads of `setReg` are told apart by the register's name. -/
theorem hostWriteIsReadBack : Obligations.HostWriteIsReadBack := by
  intro r v s hs hw hv hbuf hlen
  have hr : r.outsideBuf = false := by
    cases r with
    | buf a => simpa [Reg.outsideBuf] using hbuf a rfl
    | _ => rfl
  exact ⟨s.setReg r v, hostWrite_stores hs hw hr hlen hv, s.hostRead_setReg_same hw hv, fun r' h => s.hostRead_setReg_other v h⟩

end Sys2Proof.Machine
end

section
/-! PROOFS. The decoder and the encoder (30_encoding.md R71 to R75): a command word is the sum of its fields at their places, the fields
are read back by division, and so `decode` answers a command exactly for the word of that command. -/

namespace Sys2Proof

/-! ### The fields of a word by division -/

theorem toNat_fieldOpc (w : CmdWord) : (fieldOpc w).toNat = w.toNat / 4096 := by
  simp [fieldOpc, Nat.shiftRight_eq_div_pow]
  omega

theorem toNat_fieldBw (w : CmdWord) : (fieldBw w).toNat = w.toNat / 256 % 16 := by
  simp [fieldBw, Nat.shiftRight_eq_div_pow]

theorem toNat_fieldI (w : CmdWord) : (fieldI w).toNat = w.toNat / 32 % 8 := by
  simp [fieldI, Nat.shiftRight_eq_div_pow]

theorem toNat_fieldS (w : CmdWord) : (fieldS w).toNat = w.toNat % 32 := by
  simp [fieldS]

theorem fieldP_eq (w : CmdWord) : fieldP w = decide (w.toNat % 2 = 1) := Nat.testBit_zero w.toNat

theorem toNat_fieldP (w : CmdWord) : (fieldP w).toNat = w.toNat % 2 := by
  rw [fieldP, BitVec.getLsbD, Nat.toNat_testBit, Nat.pow_zero, Nat.div_one]

/-- The must-be-zero bits of a row are zero when the number they make is. -/
theorem extractLsb'_eq_zero_iff (w : CmdWord) (k n : Nat) : w.extractLsb' k n = 0 ↔ w.toNat / 2 ^ k % 2 ^ n = 0 := by
  rw [BitVec.toNat_eq, BitVec.extractLsb'_toNat, Nat.shiftRight_eq_div_pow]
  simp

/-! ### The words of the encoder as numbers -/

/-- A field below the set bits of a word is added to it. -/
theorem toNat_or_low {w x : CmdWord} (k : Nat) (hw : w.toNat % 2 ^ k = 0) (hx : x.toNat < 2 ^ k) :
    (w ||| x).toNat = w.toNat + x.toNat := by
  obtain ⟨a, ha⟩ := Nat.dvd_of_mod_eq_zero hw
  rw [BitVec.toNat_or, ha, Nat.two_pow_add_eq_or_of_lt hx]

theorem toNat_or_s {w : CmdWord} (s : BitVec 5) (hw : w.toNat % 32 = 0) : (w ||| s.setWidth 16).toNat = w.toNat + s.toNat := by
  have hs : (s.setWidth 16).toNat = s.toNat := BitVec.toNat_setWidth_of_le (by decide)
  rw [toNat_or_low 5 hw (hs ▸ s.isLt), hs]

theorem toNat_or_i {w : CmdWord} (i : BitVec 3) (hw : w.toNat % 256 = 0) :
    (w ||| i.setWidth 16 <<< 5).toNat = w.toNat + i.toNat * 32 := by
  have hi : (i.setWidth 16 <<< 5).toNat = i.toNat * 32 := by simp [Nat.shiftLeft_eq]; omega
  rw [toNat_or_low 8 hw (by omega), hi]

theorem toNat_or_bw {w : CmdWord} (bw : BitVec 4) (hw : w.toNat % 4096 = 0) :
    (w ||| bw.setWidth 16 <<< 8).toNat = w.toNat + bw.toNat * 256 := by
  have hb : (bw.setWidth 16 <<< 8).toNat = bw.toNat * 256 := by simp [Nat.shiftLeft_eq]; omega
  rw [toNat_or_low 12 hw (by omega), hb]

/-- Format Q: slot and subcarrier below the bit width below the opcode. -/
theorem toNat_formatQ {w : CmdWord} (s : BitVec 5) (i : BitVec 3) (bw : BitVec 4) (hw : w.toNat % 4096 = 0) :
    (w ||| bw.setWidth 16 <<< 8 ||| i.setWidth 16 <<< 5 ||| s.setWidth 16).toNat =
      w.toNat + bw.toNat * 256 + i.toNat * 32 + s.toNat := by
  have hbw := toNat_or_bw bw hw
  have hi := toNat_or_i (w := w ||| bw.setWidth 16 <<< 8) i (by omega)
  rw [toNat_or_s s (by omega), hi, hbw]

theorem toNat_encode_hdr (p : Bool) : (encode (.hdr p)).toNat = 0x1000 + p.toNat := by
  cases p <;> rfl

theorem toNat_encode_csix : (encode .csix).toNat = 0x2000 := rfl

theorem toNat_encode_decomp (s : BitVec 5) : (encode (.decomp s)).toNat = 0x3000 + s.toNat :=
  toNat_or_s s (by decide)

theorem toNat_encode_quant (s : BitVec 5) (i : BitVec 3) (bw : BitVec 4) :
    (encode (.quant s i bw)).toNat = 0x4000 + bw.toNat * 256 + i.toNat * 32 + s.toNat :=
  toNat_formatQ s i bw (by decide)

theorem toNat_encode_dequant (s : BitVec 5) (i : BitVec 3) (bw : BitVec 4) :
    (encode (.dequant s i bw)).toNat = 0x5000 + bw.toNat * 256 + i.toNat * 32 + s.toNat :=
  toNat_formatQ s i bw (by decide)

theorem toNat_encode_pack (s : BitVec 5) (bw : BitVec 4) : (encode (.pack s bw)).toNat = 0x6000 + bw.toNat * 256 + s.toNat := by
  have hbw := toNat_or_bw (w := 0x6000#16) bw (by decide)
  exact (toNat_or_s s (by rw [hbw]; simp; omega)).trans (by rw [hbw]; rfl)

theorem toNat_encode_unpack (s : BitVec 5) : (encode (.unpack s)).toNat = 0x7000 + s.toNat :=
  toNat_or_s s (by decide)

/-! ### What the decoder answers -/

theorem decodeS_eq_ok_iff {zeros : Bool} {s : BitVec 5} {i j : Instr} :
    decodeS zeros s i = .ok j ↔ zeros = true ∧ legalSubcarrier s = true ∧ i = j := by
  cases hz : zeros <;> cases hs : legalSubcarrier s <;> simp [decodeS, hs]

theorem decodeQ_eq_ok_iff {s : BitVec 5} {k : BitVec 3} {i j : Instr} :
    decodeQ s k i = .ok j ↔ legalSubcarrier s = true ∧ legalSlot k = true ∧ i = j := by
  cases hs : legalSubcarrier s <;> cases hk : legalSlot k <;> simp [decodeQ, hs, hk]

/-- The fields of a word that is a sum of fields at their places. -/
theorem fields_of_toNat {w : CmdWord} {opc : Nat} {s : BitVec 5} {i : BitVec 3} {bw : BitVec 4}
    (h : w.toNat = opc * 4096 + bw.toNat * 256 + i.toNat * 32 + s.toNat) :
    (fieldOpc w).toNat = opc ∧ fieldBw w = bw ∧ fieldI w = i ∧ fieldS w = s := by
  have hs := s.isLt
  have hi := i.isLt
  have hbw := bw.isLt
  refine ⟨?_, BitVec.eq_of_toNat_eq ?_, BitVec.eq_of_toNat_eq ?_, BitVec.eq_of_toNat_eq ?_⟩
  · rw [toNat_fieldOpc]; omega
  · rw [toNat_fieldBw]; omega
  · rw [toNat_fieldI]; omega
  · rw [toNat_fieldS]; omega

/-- The must-be-zero bits of a word of format S are zero. -/
theorem zeros_of_toNat {w : CmdWord} {opc : Nat} {s : BitVec 5} (h : w.toNat = opc * 4096 + s.toNat) :
    w.extractLsb' 5 7 = 0 := by
  have hs := s.isLt
  rw [extractLsb'_eq_zero_iff]
  omega

/-- The condition on the operands of format Q (R73). -/
theorem legalCell_iff {s : BitVec 5} {i : BitVec 3} : (legalSubcarrier s && legalSlot i) = true ↔ s.toNat < 30 ∧ i.toNat < 6 := by
  rw [Bool.and_eq_true, Machine.legalSubcarrier_iff, Machine.legalSlot_iff]

/-- R75: the decoder undoes the encoder on every well-formed command. -/
theorem decode_encode {i : Instr} (hi : i.wellFormed = true) : decode (encode i) = .ok i := by
  cases i with
  | hdr p => cases p <;> rfl
  | csix => rfl
  | decomp s =>
    have hw := toNat_encode_decomp s
    obtain ⟨hopc, -, -, hs⟩ := fields_of_toNat (w := encode (.decomp s)) (opc := 3) (i := 0) (bw := 0) hw
    simp only [decode, hopc, hs]
    exact decodeS_eq_ok_iff.mpr ⟨decide_eq_true (zeros_of_toNat (opc := 3) hw), hi, rfl⟩
  | quant s k bw =>
    obtain ⟨hopc, hbw, hk, hs⟩ := fields_of_toNat (opc := 4) (toNat_encode_quant s k bw)
    obtain ⟨hs', hk'⟩ := Bool.and_eq_true_iff.mp hi
    simp only [decode, hopc, hbw, hk, hs]
    exact decodeQ_eq_ok_iff.mpr ⟨hs', hk', rfl⟩
  | dequant s k bw =>
    obtain ⟨hopc, hbw, hk, hs⟩ := fields_of_toNat (opc := 5) (toNat_encode_dequant s k bw)
    obtain ⟨hs', hk'⟩ := Bool.and_eq_true_iff.mp hi
    simp only [decode, hopc, hbw, hk, hs]
    exact decodeQ_eq_ok_iff.mpr ⟨hs', hk', rfl⟩
  | pack s bw =>
    obtain ⟨hopc, hbw, hk, hs⟩ := fields_of_toNat (w := encode (.pack s bw)) (opc := 6) (i := 0) (toNat_encode_pack s bw)
    simp only [decode, hopc, hbw, hk, hs]
    exact decodeS_eq_ok_iff.mpr ⟨rfl, hi, rfl⟩
  | unpack s =>
    have hw := toNat_encode_unpack s
    obtain ⟨hopc, -, -, hs⟩ := fields_of_toNat (w := encode (.unpack s)) (opc := 7) (i := 0) (bw := 0) hw
    simp only [decode, hopc, hs]
    exact decodeS_eq_ok_iff.mpr ⟨decide_eq_true (zeros_of_toNat (opc := 7) hw), hi, rfl⟩

/-- A word is the sum of its fields. -/
theorem toNat_eq_fields (w : CmdWord) :
    w.toNat = (fieldOpc w).toNat * 4096 + (fieldBw w).toNat * 256 + (fieldI w).toNat * 32 + (fieldS w).toNat := by
  rw [toNat_fieldOpc, toNat_fieldBw, toNat_fieldI, toNat_fieldS]
  omega

/-- R75: the encoder undoes the decoder on every word that decodes, and what it decodes to is well formed. -/
theorem encode_of_decode {w : CmdWord} {i : Instr} (h : decode w = .ok i) : i.wellFormed = true ∧ encode i = w := by
  have hw := toNat_eq_fields w
  simp only [decode] at h
  split at h
  case h_1 hopc =>
    split at h
    · next hz =>
      cases h
      rw [extractLsb'_eq_zero_iff] at hz
      refine ⟨rfl, BitVec.eq_of_toNat_eq ?_⟩
      rw [toNat_encode_hdr, toNat_fieldP]
      omega
    · cases h
  case h_2 hopc =>
    split at h
    · next hz =>
      cases h
      rw [extractLsb'_eq_zero_iff] at hz
      refine ⟨rfl, BitVec.eq_of_toNat_eq ?_⟩
      rw [toNat_encode_csix]
      omega
    · cases h
  case h_3 hopc =>
    obtain ⟨hz, hs, rfl⟩ := decodeS_eq_ok_iff.mp h
    rw [decide_eq_true_iff, extractLsb'_eq_zero_iff] at hz
    refine ⟨hs, BitVec.eq_of_toNat_eq ?_⟩
    rw [toNat_encode_decomp]
    omega
  case h_4 hopc =>
    obtain ⟨hs, hk, rfl⟩ := decodeQ_eq_ok_iff.mp h
    refine ⟨Bool.and_eq_true_iff.mpr ⟨hs, hk⟩, BitVec.eq_of_toNat_eq ?_⟩
    rw [toNat_encode_quant, hw, hopc]
  case h_5 hopc =>
    obtain ⟨hs, hk, rfl⟩ := decodeQ_eq_ok_iff.mp h
    refine ⟨Bool.and_eq_true_iff.mpr ⟨hs, hk⟩, BitVec.eq_of_toNat_eq ?_⟩
    rw [toNat_encode_dequant, hw, hopc]
  case h_6 hopc =>
    obtain ⟨hz, hs, rfl⟩ := decodeS_eq_ok_iff.mp h
    rw [decide_eq_true_iff] at hz
    refine ⟨hs, BitVec.eq_of_toNat_eq ?_⟩
    rw [toNat_encode_pack, hw, hopc, hz]
    rfl
  case h_7 hopc =>
    obtain ⟨hz, hs, rfl⟩ := decodeS_eq_ok_iff.mp h
    rw [decide_eq_true_iff, extractLsb'_eq_zero_iff] at hz
    refine ⟨hs, BitVec.eq_of_toNat_eq ?_⟩
    rw [toNat_encode_unpack]
    omega
  case h_8 => cases h

/-- A word decodes to a command exactly when it is the word of that command and the command is well formed (R75). -/
theorem decode_eq_ok_iff {w : CmdWord} {i : Instr} : decode w = .ok i ↔ i.wellFormed = true ∧ encode i = w :=
  ⟨encode_of_decode, fun ⟨hi, hw⟩ => hw ▸ decode_encode hi⟩

/-! ### The obligations about words -/

/-- Settles O1. -/
theorem decodeInvertsEncode : Obligations.DecodeInvertsEncode := fun _ hi => decode_encode hi

/-- The word of an instruction selects its row of the opcode map (R73). -/
theorem encode_and_rowMask (i : Instr) : encode i &&& rowMask i = rowMatch i := by
  cases i with
  | hdr p => exact (Laws.Row.hdr p).1
  | csix => exact Laws.Row.csix.1
  | decomp s => exact (Laws.Row.decomp s).1
  | quant s k bw => exact (Laws.Row.quant s k bw).1
  | dequant s k bw => exact (Laws.Row.dequant s k bw).1
  | pack s bw => exact (Laws.Row.pack s bw).1
  | unpack s => exact (Laws.Row.unpack s).1

/-- Settles O3: the word is that of the instruction, which selects its row. -/
theorem encodeInvertsDecode : Obligations.EncodeInvertsDecode := by
  intro w i h
  obtain ⟨hi, rfl⟩ := encode_of_decode h
  exact ⟨rfl, hi, encode_and_rowMask i⟩

/-- A word that decodes lies in the row of the opcode map (R73) of the command it decodes to. -/
theorem row_of_decode {w : CmdWord} {i : Instr} (h : decode w = .ok i) :
    match i with
    | .hdr _ => w.toNat / 4096 = 1 ∧ w.toNat / 2 % 2048 = 0
    | .csix => w.toNat / 4096 = 2 ∧ w.toNat % 4096 = 0
    | .decomp _ => w.toNat / 4096 = 3 ∧ w.toNat / 32 % 128 = 0 ∧ w.toNat % 32 ≤ 29
    | .quant _ _ _ => w.toNat / 4096 = 4 ∧ w.toNat % 32 ≤ 29 ∧ w.toNat / 32 % 8 ≤ 5
    | .dequant _ _ _ => w.toNat / 4096 = 5 ∧ w.toNat % 32 ≤ 29 ∧ w.toNat / 32 % 8 ≤ 5
    | .pack _ _ => w.toNat / 4096 = 6 ∧ w.toNat / 32 % 8 = 0 ∧ w.toNat % 32 ≤ 29
    | .unpack _ => w.toNat / 4096 = 7 ∧ w.toNat / 32 % 128 = 0 ∧ w.toNat % 32 ≤ 29 := by
  obtain ⟨hi, rfl⟩ := encode_of_decode h
  cases i with
  | hdr p =>
    have hp := p.toNat_le
    simp only [toNat_encode_hdr]
    omega
  | csix => exact ⟨rfl, rfl⟩
  | decomp s =>
    have hs := Machine.legalSubcarrier_iff.mp hi
    simp only [toNat_encode_decomp]
    omega
  | quant s k bw =>
    have hcell := legalCell_iff.mp hi
    simp only [toNat_encode_quant]
    omega
  | dequant s k bw =>
    have hcell := legalCell_iff.mp hi
    simp only [toNat_encode_dequant]
    omega
  | pack s bw =>
    have hs := Machine.legalSubcarrier_iff.mp hi
    simp only [toNat_encode_pack]
    omega
  | unpack s =>
    have hs := Machine.legalSubcarrier_iff.mp hi
    simp only [toNat_encode_unpack]
    omega

/-- Settles O2. -/
theorem decoderAndEncoderFollowTable : Obligations.DecoderAndEncoderFollowTable := by
  refine ⟨fun w => ?_, toNat_encode_hdr, toNat_encode_csix, toNat_encode_decomp, toNat_encode_quant, toNat_encode_dequant,
    toNat_encode_pack, toNat_encode_unpack, fun _ => decode_encode⟩
  intro opc bw i s
  have hs : (BitVec.ofNat 5 s).toNat = s := Machine.toNat_ofNat_of_lt (by omega)
  have hi : (BitVec.ofNat 3 i).toNat = i := Machine.toNat_ofNat_of_lt (by omega)
  have hbw : (BitVec.ofNat 4 bw).toNat = bw := Machine.toNat_ofNat_of_lt (by omega)
  split_ifs with h1 h2 h3 h4 h5 h6 h7
  · refine decode_eq_ok_iff.mpr ⟨rfl, BitVec.eq_of_toNat_eq ?_⟩
    rw [toNat_encode_hdr, ← fieldP_eq, toNat_fieldP]
    omega
  · refine decode_eq_ok_iff.mpr ⟨rfl, BitVec.eq_of_toNat_eq ?_⟩
    rw [toNat_encode_csix]
    omega
  · refine decode_eq_ok_iff.mpr ⟨Machine.legalSubcarrier_iff.mpr (by omega), BitVec.eq_of_toNat_eq ?_⟩
    rw [toNat_encode_decomp, hs]
    omega
  · refine decode_eq_ok_iff.mpr ⟨legalCell_iff.mpr (by omega), BitVec.eq_of_toNat_eq ?_⟩
    rw [toNat_encode_quant, hs, hi, hbw]
    omega
  · refine decode_eq_ok_iff.mpr ⟨legalCell_iff.mpr (by omega), BitVec.eq_of_toNat_eq ?_⟩
    rw [toNat_encode_dequant, hs, hi, hbw]
    omega
  · refine decode_eq_ok_iff.mpr ⟨Machine.legalSubcarrier_iff.mpr (by omega), BitVec.eq_of_toNat_eq ?_⟩
    rw [toNat_encode_pack, hs, hbw]
    omega
  · refine decode_eq_ok_iff.mpr ⟨Machine.legalSubcarrier_iff.mpr (by omega), BitVec.eq_of_toNat_eq ?_⟩
    rw [toNat_encode_unpack, hs]
    omega
  · cases h : decode w with
    | error e => exact ⟨e, rfl⟩
    | ok j =>
      have hrow := row_of_decode h
      cases j with
      | hdr p => exact absurd hrow h1
      | csix => exact absurd hrow h2
      | decomp s => exact absurd hrow h3
      | quant s k bw => exact absurd hrow h4
      | dequant s k bw => exact absurd hrow h5
      | pack s bw => exact absurd hrow h6
      | unpack s => exact absurd hrow h7

/-- R74, by division: no opcode of the map, a must-be-zero bit set, a subcarrier without an index, or a slot without one. -/
def IllegalWord (w : CmdWord) : Prop :=
  let opc := w.toNat / 4096
  let i := w.toNat / 32 % 8
  let s := w.toNat % 32
  opc = 0 ∨ 8 ≤ opc ∨ (opc = 1 ∧ w.toNat / 2 % 2048 ≠ 0) ∨ (opc = 2 ∧ w.toNat % 4096 ≠ 0) ∨
    ((opc = 3 ∨ opc = 7) ∧ w.toNat / 32 % 128 ≠ 0) ∨ (opc = 6 ∧ i ≠ 0) ∨
    ((3 ≤ opc ∧ opc ≤ 7) ∧ 30 ≤ s) ∨ ((opc = 4 ∨ opc = 5) ∧ 6 ≤ i)

theorem IllegalWord.decode_ne_ok {w : CmdWord} (hw : IllegalWord w) (i : Instr) : decode w ≠ .ok i := by
  intro h
  have hrow := row_of_decode h
  unfold IllegalWord at hw
  cases i <;> simp only at hrow <;> omega

/-- R74 names every word that decodes to no command. -/
theorem illegalWord_iff {w : CmdWord} : IllegalWord w ↔ ∀ i, decode w ≠ .ok i := by
  refine ⟨IllegalWord.decode_ne_ok, fun hno => ?_⟩
  have htable := decoderAndEncoderFollowTable.1 w
  simp only at htable
  split_ifs at htable with h1 h2 h3 h4 h5 h6 h7
  case pos | pos | pos | pos | pos | pos | pos => exact absurd htable (hno _)
  by_contra hw
  simp only [IllegalWord] at hw
  push Not at hw
  obtain ⟨hopc, hopc', hhdr, hcsix, hzeros, hslot, hs, hi⟩ := hw
  have hrows : ∀ n, 0 < n → n < 8 → n = 1 ∨ n = 2 ∨ n = 3 ∨ n = 4 ∨ n = 5 ∨ n = 6 ∨ n = 7 := by omega
  rcases hrows _ (Nat.pos_of_ne_zero hopc) hopc' with e | e | e | e | e | e | e
  · exact h1 ⟨e, hhdr e⟩
  · exact h2 ⟨e, hcsix e⟩
  · exact h3 ⟨e, hzeros (Or.inl e), Nat.le_of_lt_succ (hs (by omega))⟩
  · exact h4 ⟨e, Nat.le_of_lt_succ (hs (by omega)), Nat.le_of_lt_succ (hi (Or.inl e))⟩
  · exact h5 ⟨e, Nat.le_of_lt_succ (hs (by omega)), Nat.le_of_lt_succ (hi (Or.inr e))⟩
  · exact h6 ⟨e, hslot e, Nat.le_of_lt_succ (hs (by omega))⟩
  · exact h7 ⟨e, hzeros (Or.inr e), Nat.le_of_lt_succ (hs (by omega))⟩

/-- Settles O5, by running the decoder. -/
theorem sampleWordsDecode : Obligations.SampleWordsDecode := by
  unfold Obligations.SampleWordsDecode
  decide

end Sys2Proof
end

section
/-! PROOFS. A step performs the next host action (30_encoding.md R74, R79; 10_state.md R41). -/

namespace Sys2Proof.Machine

theorem step_of_host {s : State} {a : HostAction} {rest : List HostAction} (h : s.host = a :: rest) :
    step s = perform a { s with host := rest } := by
  rw [step, h]

/-! ### Command words -/

theorem issue_of_decode {w : CmdWord} {i : Instr} (h : decode w = .ok i) (s : State) : issue w s = exec i s := by
  rw [issue, h]

theorem issue_of_illegal {w : CmdWord} (h : ∀ i, decode w ≠ .ok i) (s : State) :
    issue w s = issueEffect w s (.raise .illegalCommand) := by
  rw [issue]
  split
  · next i hi => exact absurd hi (h i)
  · rfl

/-- Settles O7. -/
theorem stepPerformsDecodedCommand : Obligations.StepPerformsDecodedCommand := by
  intro s w rest i hhost hi
  rw [step_of_host hhost]
  exact issue_of_decode hi _

/-- Settles O4: the illegal words are those that decode to nothing, and such a word enters the fault. -/
theorem illegalWordsRaiseIllegalCommand : Obligations.IllegalWordsRaiseIllegalCommand := by
  refine ⟨fun w => ⟨fun hw => ?_, fun ⟨hno, _⟩ => illegalWord_iff.mpr hno⟩, illegalWord_iff.mp (Or.inl rfl),
    illegalWord_iff.mp (Or.inr (Or.inl (by decide)))⟩
  have hno := illegalWord_iff.mp hw
  exact ⟨hno, fun t ht => (issue_of_illegal hno t).trans (issueEffect_raise ht w _)⟩

/-! ### Host writes and reads -/

theorem outsideBuf_eq_false {r : Reg} (h : ∀ n, r = .buf n → n < Config.bufCap) : r.outsideBuf = false := by
  cases r with
  | buf a => simpa [Reg.outsideBuf] using h a rfl
  | _ => rfl

theorem outsideBuf_buf {n : Nat} (h : Config.bufCap ≤ n) : (Reg.buf n).outsideBuf = true := by
  simpa [Reg.outsideBuf] using h

theorem hostWrite_faulted {s : State} (hs : s.run = .faulted) (r : Reg) (v : Nat) : hostWrite r v s = .next s := by
  rw [hostWrite, hs]

theorem hostWrite_readOnly {s : State} (hs : s.run = .ready) {r : Reg} (hr : r.hostWritable = false) (v : Nat) :
    hostWrite r v s = .refused .readOnlyRegister := by
  simp [hostWrite, hs, hr]

theorem hostWrite_outsideBuf {s : State} (hs : s.run = .ready) {n : Nat} (hn : Config.bufCap ≤ n) (v : Nat) :
    hostWrite (.buf n) v s = .fault .bufAddress := by
  simp [hostWrite, hs, outsideBuf_buf hn, Reg.hostWritable]

theorem hostWrite_tooWide {r : Reg} {v : Nat} {s : State} (hs : s.run = .ready) (hw : r.hostWritable = true)
    (hr : r.outsideBuf = false) (hlen : r = .bufLen → v ≤ Config.bufCap) (hv : 2 ^ r.width ≤ v) :
    hostWrite r v s = .refused .valueTooWide := by
  have hlen' : ¬ (r = .bufLen ∧ Config.bufCap < v) := fun ⟨e, h⟩ => absurd (hlen e) (by omega)
  simp [hostWrite, hs, hw, hr, hlen', hv]

theorem hostReadStep_outsideBuf {n : Nat} (hn : Config.bufCap ≤ n) (s : State) : hostReadStep (.buf n) s = .fault .bufAddress := by
  simp [hostReadStep, outsideBuf_buf hn]

/-- A host write keeps the model's own fields. -/
theorem State.setReg_keeps_own (s : State) (r : Reg) (v : Nat) :
    (s.setReg r v).host = s.host ∧ (s.setReg r v).draws = s.draws ∧ (s.setReg r v).resets = s.resets := by
  cases r <;> exact ⟨rfl, rfl, rfl⟩

/-- No register shows the list of host actions. -/
theorem State.hostRead_with_host (s : State) (rest : List HostAction) (r : Reg) :
    State.hostRead { s with host := rest } r = s.hostRead r := by
  cases r <;> rfl

theorem perform_reset (s : State) : perform .reset s = .next (State.afterReset (s.resets + 1) s.host s.draws) := rfl

/-- Settles O8, action by action. -/
theorem stepPerformsOtherHostActions : Obligations.StepPerformsOtherHostActions := by
  intro s a rest hhost s1
  rw [step_of_host hhost]
  refine ⟨?issue, ?write, ?read, ?reset⟩
  case issue =>
    rintro w rfl hno
    exact ⟨fun hs => (issue_of_illegal hno s1).trans (issueEffect_raise (s := s1) hs w _),
      fun hs => (issue_of_illegal hno s1).trans (issueEffect_faulted (s := s1) hs w _)⟩
  case write =>
    rintro r v rfl
    refine ⟨fun hs => hostWrite_faulted (s := s1) hs r v, fun hs => ⟨fun hr => hostWrite_readOnly (s := s1) hs hr v, ?_, ?_, fun hw hbuf hlen => ?_⟩⟩
    · rintro n rfl hn
      exact hostWrite_outsideBuf (s := s1) hs hn v
    · rintro rfl hv
      exact tooLargeBufLenIsRefused v s1 hv
    · have hr := outsideBuf_eq_false hbuf
      refine ⟨fun hv => hostWrite_tooWide (s := s1) hs hw hr hlen hv, fun hv => ?_⟩
      obtain ⟨ehost, edraws, eresets⟩ := s1.setReg_keeps_own r v
      exact ⟨s1.setReg r v, hostWrite_stores (s := s1) hs hw hr hlen hv, ehost, edraws, eresets, s1.hostRead_setReg_same hw hv,
        fun r' hne => (s1.hostRead_setReg_other v hne).trans (s.hostRead_with_host rest r')⟩
  case read =>
    rintro r rfl
    refine ⟨?_, fun hbuf => hostReadStep_of_inside (outsideBuf_eq_false hbuf) s1⟩
    rintro n rfl hn
    exact hostReadStep_outsideBuf hn s1
  case reset =>
    rintro rfl
    rw [perform_reset]

end Sys2Proof.Machine
end

section
/-! PROOFS. Termination of commands (30_encoding.md R79): a READY block is refused a command by an unwritten byte of the loaded part of
`BUF` alone (10_state.md R42; log 6), and only HDR and CSIX read `BUF`. -/

namespace Sys2Proof.Machine

/-- A command completes, or its body reads an unwritten byte and it is refused. -/
theorem issueEffect_cases (w : CmdWord) (s : State) (e : Effect) :
    (∃ t, issueEffect w s e = .next t) ∨ (issueEffect w s e = .refused .unwrittenBuffer ∧ e = .unwritten) := by
  cases hr : s.run with
  | faulted => exact Or.inl ⟨s, issueEffect_faulted hr w e⟩
  | ready => cases e with
    | done t => exact Or.inl ⟨t, issueEffect_done hr w t⟩
    | raise k => exact Or.inl ⟨_, issueEffect_raise hr w k⟩
    | unwritten => exact Or.inr ⟨issueEffect_unwritten hr w, rfl⟩

theorem issueEffect_next_of_ne {e : Effect} (h : e ≠ .unwritten) (w : CmdWord) (s : State) : ∃ t, issueEffect w s e = .next t :=
  (issueEffect_cases w s e).resolve_right fun ⟨_, he⟩ => h he

/-! ### The bodies that read no `BUF` byte -/

theorem withSubcarrier_ne_unwritten {f : Fin 30 → Effect} (h : ∀ k, f k ≠ .unwritten) (s : BitVec 5) :
    withSubcarrier s f ≠ .unwritten := by
  rcases withSubcarrier_cases s f with ⟨k, -, e⟩ | e
  · exact e ▸ h k
  · simp [e]

theorem withCell_ne_unwritten {f : Fin 30 → Fin 6 → Effect} (h : ∀ k j, f k j ≠ .unwritten) (s : BitVec 5) (i : BitVec 3) :
    withCell s i f ≠ .unwritten := by
  rcases withCell_cases s i f with ⟨k, j, -, e⟩ | e
  · exact e ▸ h k j
  · simp [e]

theorem withBitWidth_ne_unwritten {f : Nat → Effect} (h : ∀ n, f n ≠ .unwritten) (bw : BitVec 4) : withBitWidth bw f ≠ .unwritten := by
  unfold withBitWidth
  cases bitWidth? bw with
  | none => simp
  | some n => exact h n

theorem withTag_ne_unwritten {f : Tag → Effect} (h : ∀ t, f t ≠ .unwritten) (b : BitVec 2) : withTag b f ≠ .unwritten := by
  unfold withTag
  cases tagOf? b with
  | none => simp
  | some t => exact h t

theorem decompEffect_ne_unwritten (k : Fin 30) (s : State) : decompEffect k s ≠ .unwritten := by
  unfold decompEffect
  split <;> simp

theorem quantEffect_ne_unwritten (k : Fin 30) (i : Fin 6) (bw : BitVec 4) (s : State) : quantEffect k i bw s ≠ .unwritten := by
  refine withBitWidth_ne_unwritten (fun n => withTag_ne_unwritten (fun t => ?_) _) bw
  cases quantize? (cell s.ang k i) t n <;> simp

theorem dequantEffect_ne_unwritten (k : Fin 30) (i : Fin 6) (bw : BitVec 4) (s : State) : dequantEffect k i bw s ≠ .unwritten :=
  withBitWidth_ne_unwritten (fun n => withTag_ne_unwritten (fun t => by simp) _) bw

theorem packEffect_ne_unwritten (k : Fin 30) (bw : BitVec 4) (s : State) : packEffect k bw s ≠ .unwritten := by
  refine withBitWidth_ne_unwritten (fun n => ?_) bw
  cases tagsOf? s.tag[k] <;> simp

/-! ### HDR and CSIX -/

/-- HDR reads header bytes only of a buffer that is long enough to hold them. -/
theorem hdrEffect_unwritten {p : Bool} {s : State} (h : hdrEffect p s = .unwritten) : ∃ a, a < s.bufLen ∧ s.memRead a = none := by
  by_contra hc
  push Not at hc
  rcases lt_or_ge s.bufLen (prefixLen p + 19) with hl | hl
  · simp [hdrEffect_of_short hl] at h
  · have hbytes : ∀ k, k < 19 → k ≠ 5 → k ≠ 6 → s.memRead (prefixLen p + k) = some ((s.memRead (prefixLen p + k)).getD 0) := by
      intro k hk _ _
      obtain ⟨b, hb⟩ := Option.ne_none_iff_exists'.mp (hc (prefixLen p + k) (by omega))
      rw [hb, Option.getD_some]
    rw [hdrEffect_of_bytes (h := fun k => (s.memRead (prefixLen p + k)).getD 0) hl hbytes] at h
    split at h <;> cases h

/-- A pair is read when its three bytes hold values. -/
theorem readPair_isSome {m : Memory} {base rem cur : Nat} (h : ∀ j, j < 3 → m.read (base + (cur / 8 + j)) ≠ none) :
    (readPair m base rem cur).isSome := by
  obtain ⟨b0, h0⟩ := Option.ne_none_iff_exists'.mp (h 0 (by omega))
  obtain ⟨b1, h1⟩ := Option.ne_none_iff_exists'.mp (h 1 (by omega))
  obtain ⟨b2, h2⟩ := Option.ne_none_iff_exists'.mp (h 2 (by omega))
  rw [readPair_some h0 h1 h2, Option.isSome_some]

/-- CSIX reads no byte beyond the payload length it checks (41_bit_extractor.md R106). -/
theorem extractTensor_isSome {m : Memory} {base nrx ntx len : Nat} {csi : Vector CMatrix 30} (h1 : 1 ≤ nrx) (h2 : nrx ≤ 3)
    (h3 : 1 ≤ ntx) (h4 : ntx ≤ 3) (hl : base + 60 * (nrx * ntx) + 12 ≤ len) (hm : ∀ a, a < len → m.read a ≠ none) :
    (extractTensor m base nrx ntx csi).isSome := by
  refine extractSubcarriers_isSome h1 h2 h3 h4 fun a j ha hj => readPair_isSome fun k hk => hm _ ?_
  rw [List.length_finRange] at ha
  have hrow : (3 + 16 * (nrx * ntx)) * a ≤ (3 + 16 * (nrx * ntx)) * 29 := Nat.mul_le_mul_left _ (by omega)
  omega

theorem csixEffect_unwritten {s : State} (h : csixEffect s = .unwritten) : ∃ a, a < s.bufLen ∧ s.memRead a = none := by
  by_contra hc
  push Not at hc
  unfold csixEffect at h
  split at h
  · cases h
  · next hcounts =>
    split at h
    · cases h
    · next hlen =>
      simp only [Bool.or_eq_true, Bool.not_eq_true', not_or, Bool.not_eq_false, isCount_iff] at hcounts
      obtain ⟨hr, ht⟩ := hcounts
      have hsome := extractTensor_isSome (csi := s.csi) (by omega) (by omega) (by omega) (by omega) (Nat.not_lt.mp hlen) hc
      split at h
      · cases h
      · next hnone => simp [hnone] at hsome

/-- Settles O19, command by command. -/
theorem everyCommandTerminates : Obligations.EveryCommandTerminates := by
  intro i s
  cases i with
  | hdr p =>
    refine (issueEffect_cases (encode (.hdr p)) s (hdrEffect p s)).imp_right fun ⟨h, he⟩ => ?_
    exact ⟨h, Or.inr ⟨p, rfl⟩, hdrEffect_unwritten he⟩
  | csix =>
    refine (issueEffect_cases (encode .csix) s (csixEffect s)).imp_right fun ⟨h, he⟩ => ?_
    exact ⟨h, Or.inl rfl, csixEffect_unwritten he⟩
  | decomp sc => exact Or.inl (issueEffect_next_of_ne (withSubcarrier_ne_unwritten (fun k => decompEffect_ne_unwritten k s) sc) _ s)
  | quant sc j bw =>
    exact Or.inl (issueEffect_next_of_ne (withCell_ne_unwritten (fun k i => quantEffect_ne_unwritten k i bw s) sc j) _ s)
  | dequant sc j bw =>
    exact Or.inl (issueEffect_next_of_ne (withCell_ne_unwritten (fun k i => dequantEffect_ne_unwritten k i bw s) sc j) _ s)
  | pack sc bw => exact Or.inl (issueEffect_next_of_ne (withSubcarrier_ne_unwritten (fun k => packEffect_ne_unwritten k bw s) sc) _ s)
  | unpack sc => exact Or.inl (issueEffect_next_of_ne (withSubcarrier_ne_unwritten (fun k => by simp [unpackEffect]) sc) _ s)

end Sys2Proof.Machine
end

section
/-! PROOFS. The assembler text (30_encoding.md R76): the parts of a line that `asmText` writes are the parts `parseLine` reads. -/

namespace Sys2Proof.Machine

/-! ### Numbers -/

/-- The characters that end or separate the parts of a line. -/
def isSeparator (c : Char) : Bool := isBlank c || c = ',' || c = ';'

theorem isBlank_of_not_separator {c : Char} (h : isSeparator c = false) : isBlank c = false := by
  simp [isSeparator] at h
  exact h.1.1

theorem digitChar_not_separator : ∀ n < 10, isSeparator (digitChar n) = false := by decide

theorem digit?_digitChar : ∀ n < 10, digit? (digitChar n) = some n := by decide

/-- A number of at most two digits is text without blanks and commas (R76). -/
theorem decimal_no_separator {n : Nat} (h : n < 100) : ∀ c ∈ decimal n, isSeparator c = false := by
  unfold decimal
  split
  · next h10 => simp [digitChar_not_separator n h10]
  · simp [digitChar_not_separator (n / 10) (by omega), digitChar_not_separator (n % 10) (by omega)]

theorem decimal_ne_nil (n : Nat) : decimal n ≠ [] := by
  unfold decimal
  split <;> simp

theorem number?_decimal {n : Nat} (h : n < 100) : number? (decimal n) = some n := by
  unfold decimal
  split
  · next h10 => simp [number?, digit?_digitChar n h10]
  · simp [number?, digit?_digitChar (n / 10) (by omega), digit?_digitChar (n % 10) (by omega)]
    omega

theorem dropWhile_isBlank_eq_self {cs : List Char} (h : ∀ c ∈ cs, isBlank c = false) : cs.dropWhile isBlank = cs := by
  cases cs with
  | nil => rfl
  | cons c cs => rw [List.dropWhile_cons_of_neg (by simp [h c List.mem_cons_self])]

theorem trimBlanks_blank_cons {cs : List Char} (h : ∀ c ∈ cs, isBlank c = false) : trimBlanks (' ' :: cs) = cs := by
  rw [trimBlanks, List.dropWhile_cons_of_pos (by decide), dropWhile_isBlank_eq_self h,
    dropWhile_isBlank_eq_self fun c hc => h c (List.mem_reverse.mp hc), List.reverse_reverse]

theorem number?_trimBlanks_decimal {n : Nat} (h : n < 100) : number? (trimBlanks (' ' :: decimal n)) = some n := by
  rw [trimBlanks_blank_cons fun c hc => isBlank_of_not_separator (decimal_no_separator h c hc), number?_decimal h]

theorem field?_toNat {w : Nat} (x : BitVec w) : field? w x.toNat = some x := by
  rw [field?, if_pos x.isLt, BitVec.ofNat_toNat, BitVec.setWidth_eq]

/-! ### Operands -/

theorem splitCommas_of_no_comma {p : List Char} (h : ',' ∉ p) : splitCommas p = [p] := by
  induction p with
  | nil => rfl
  | cons c p ih =>
    obtain ⟨hc, hp⟩ := not_or.mp (List.mem_cons.not.mp h)
    rw [splitCommas, if_neg (Ne.symm hc), ih hp]

theorem splitCommas_append_comma {p : List Char} (h : ',' ∉ p) (q : List Char) :
    splitCommas (p ++ ',' :: q) = p :: splitCommas q := by
  induction p with
  | nil => rfl
  | cons c p ih =>
    obtain ⟨hc, hp⟩ := not_or.mp (List.mem_cons.not.mp h)
    rw [List.cons_append, splitCommas, if_neg (Ne.symm hc), ih hp]

theorem comma_notMem_operand {n : Nat} (h : n < 100) : ',' ∉ ' ' :: decimal n := by
  refine List.mem_cons.not.mpr (not_or.mpr ⟨by decide, fun hc => ?_⟩)
  exact absurd (decimal_no_separator h ',' hc) (by decide)

/-- Cut at its commas, the text of operands is the text of each, after a blank. -/
theorem splitCommas_operandText {ns : List Nat} (hne : ns ≠ []) (h : ∀ n ∈ ns, n < 100) :
    splitCommas (' ' :: operandText ns) = ns.map fun n => ' ' :: decimal n := by
  induction ns with
  | nil => exact absurd rfl hne
  | cons n ns ih =>
    have hn := comma_notMem_operand (h n List.mem_cons_self)
    cases ns with
    | nil => exact splitCommas_of_no_comma hn
    | cons m ns =>
      have htext : ' ' :: operandText (n :: m :: ns) = (' ' :: decimal n) ++ ',' :: ' ' :: operandText (m :: ns) := by
        simp [operandText]
      rw [htext, splitCommas_append_comma hn, ih (by simp) fun k hk => h k (List.mem_cons_of_mem _ hk), List.map_cons (l := m :: ns)]

theorem operandText_no_semicolon {ns : List Nat} (h : ∀ n ∈ ns, n < 100) : ';' ∉ operandText ns := by
  induction ns with
  | nil => simp [operandText]
  | cons n ns ih =>
    have hn : ';' ∉ decimal n := fun hc => absurd (decimal_no_separator (h n List.mem_cons_self) ';' hc) (by decide)
    have hns := ih fun k hk => h k (List.mem_cons_of_mem _ hk)
    cases ns with
    | nil => exact hn
    | cons m ns => simp [operandText, hn] at hns ⊢; exact hns

/-- Only blanks are trimmed to nothing. -/
theorem trimBlanks_ne_nil {cs : List Char} {c : Char} (hc : c ∈ cs) (hb : isBlank c = false) : trimBlanks cs ≠ [] := by
  intro h
  rw [trimBlanks, List.reverse_eq_nil_iff, List.dropWhile_eq_nil_iff] at h
  have hblank : isBlank c = true := by
    rw [← List.takeWhile_append_dropWhile (p := isBlank) (l := cs)] at hc
    rcases List.mem_append.mp hc with hc | hc
    · exact List.mem_takeWhile_imp hc
    · exact h c (List.mem_reverse.mpr hc)
  rw [hb] at hblank
  cases hblank

theorem decimal_subset_operandText (n : Nat) (ns : List Nat) : decimal n ⊆ operandText (n :: ns) := by
  cases ns <;> simp [operandText]

/-- The operands of a line, as `asmText` writes them after the mnemonic. -/
theorem operands?_operandText {ns : List Nat} (hne : ns ≠ []) (h : ∀ n ∈ ns, n < 100) :
    operands? (' ' :: operandText ns) = some ns := by
  have htrim : trimBlanks (' ' :: operandText ns) ≠ [] := by
    obtain ⟨n, ns, rfl⟩ := List.exists_cons_of_ne_nil hne
    obtain ⟨c, hc⟩ := List.exists_mem_of_ne_nil _ (decimal_ne_nil n)
    exact trimBlanks_ne_nil (List.mem_cons_of_mem _ (decimal_subset_operandText n ns hc))
      (isBlank_of_not_separator (decimal_no_separator (h n List.mem_cons_self) c hc))
  have hread : ∀ {l : List Nat}, (∀ n ∈ l, n < 100) →
      (l.map fun n => ' ' :: decimal n).mapM (fun p => number? (trimBlanks p)) = some l := by
    intro l hl
    induction l with
    | nil => rfl
    | cons n l ih =>
      rw [List.map_cons, List.mapM_cons, number?_trimBlanks_decimal (hl n List.mem_cons_self),
        ih fun k hk => hl k (List.mem_cons_of_mem _ hk)]
      rfl
  rw [operands?, List.isEmpty_eq_false_iff.mpr htrim, splitCommas_operandText hne h, hread h]
  rfl

/-! ### Lines -/

/-- A line of a mnemonic and its operands is read as what they assemble to. -/
theorem parseLine_of_parts {name : List Char} {ns : List Nat} {is : List Instr} (hname : name ≠ [])
    (hplain : ∀ c ∈ name, isSeparator c = false) (hne : ns ≠ []) (hns : ∀ n ∈ ns, n < 100) (his : assemble name ns = some is)
    (hwf : is.all Instr.wellFormed = true) : parseLine (name ++ [' '] ++ operandText ns) = some is := by
  have hblank : ∀ c ∈ name, isBlank c = false := fun c hc => isBlank_of_not_separator (hplain c hc)
  have hcomment : withoutComment (name ++ [' '] ++ operandText ns) = name ++ ' ' :: operandText ns := by
    rw [List.append_assoc, List.singleton_append]
    refine List.takeWhile_eq_self_iff.mpr fun c hc => ?_
    have hsemi : c ≠ ';' := by
      rintro rfl
      rcases List.mem_append.mp hc with hc | hc
      · exact absurd (hplain _ hc) (by decide)
      · rcases List.mem_cons.mp hc with hc | hc
        · exact absurd hc (by decide)
        · exact operandText_no_semicolon hns hc
    simp [hsemi]
  have hstart : (name ++ ' ' :: operandText ns).dropWhile isBlank = name ++ ' ' :: operandText ns := by
    obtain ⟨c, cs, rfl⟩ := List.exists_cons_of_ne_nil hname
    exact List.dropWhile_cons_of_neg (by simp [hblank c List.mem_cons_self])
  have htake : (name ++ ' ' :: operandText ns).takeWhile (fun c => !isBlank c) = name := by
    rw [List.takeWhile_append_of_pos (by simpa using hblank)]
    simp [isBlank]
  simp only [parseLine, hcomment, hstart, htake, List.isEmpty_eq_false_iff.mpr hname, List.drop_left, operands?_operandText hne hns,
    his, Option.bind_eq_bind, Option.bind_some, hwf]
  rfl

theorem asmText_of_operands {i : Instr} (h : (asmParts i).2 ≠ []) : asmText i = (asmParts i).1 ++ [' '] ++ operandText (asmParts i).2 := by
  unfold asmText
  split
  · next e => exact absurd e h
  · rfl

theorem mnemonic_no_separator (i : Instr) : (asmParts i).1 ≠ [] ∧ ∀ c ∈ (asmParts i).1, isSeparator c = false := by
  cases i <;> simp [asmParts, isSeparator, isBlank]

theorem operand_lt (i : Instr) : ∀ n ∈ (asmParts i).2, n < 100 := by
  cases i with
  | hdr p => cases p <;> decide
  | csix => decide
  | decomp s | quant s k bw | dequant s k bw | pack s bw | unpack s =>
    simp [asmParts]
    omega

/-- Mnemonic and operands name the command they come from. -/
theorem assemble_asmParts (i : Instr) : assemble (asmParts i).1 (asmParts i).2 = some [i] := by
  cases i with
  | hdr p => cases p <;> rfl
  | csix => rfl
  | decomp s =>
    show (do return [Instr.decomp (← field? 5 s.toNat)]) = _
    simp [field?_toNat]
  | quant s k bw =>
    show (do return [Instr.quant (← field? 5 s.toNat) (← field? 3 k.toNat) (← field? 4 bw.toNat)]) = _
    simp [field?_toNat]
  | dequant s k bw =>
    show (do return [Instr.dequant (← field? 5 s.toNat) (← field? 3 k.toNat) (← field? 4 bw.toNat)]) = _
    simp [field?_toNat]
  | pack s bw =>
    show (do return [Instr.pack (← field? 5 s.toNat) (← field? 4 bw.toNat)]) = _
    simp [field?_toNat]
  | unpack s =>
    show (do return [Instr.unpack (← field? 5 s.toNat)]) = _
    simp [field?_toNat]

/-- Settles O6: `CSIX` is a line without operands, any other line has the parts of its command. -/
theorem assemblerLineRoundTrip : Obligations.AssemblerLineRoundTrip := by
  intro i hi
  by_cases h : (asmParts i).2 = []
  · cases i with
    | csix => decide
    | _ => cases h
  · obtain ⟨hname, hplain⟩ := mnemonic_no_separator i
    rw [asmText_of_operands h]
    exact parseLine_of_parts hname hplain h (operand_lt i) (assemble_asmParts i) (by simp [hi])

end Sys2Proof.Machine
end

section
/-! PROOFS. HDR in full (40_header_parser.md R90). -/

namespace Sys2Proof.Machine

/-- An error that HDR finds in a READY block is its fault entry, with the word issued (60_exceptions.md R194). -/
theorem exec_hdr_of_raise {p : Bool} {s : State} {k : ErrKind} (hr : s.run = .ready) (he : hdrEffect p s = .raise k) :
    exec (.hdr p) s = .next (s.raise k (encode (.hdr p))) := by
  show issueEffect _ _ (hdrEffect p s) = _
  rw [he]
  exact issueEffect_raise hr _ k

/-- Settles O23: the length check and the count check raise; a header that passes both is written, its 16-bit fields and its permutation
taken as numbers. -/
theorem hdrParsesHeader : Obligations.HdrParsesHeader := by
  intro p s h hr pre
  refine ⟨fun hl => exec_hdr_of_raise hr (hdrEffect_of_short hl), fun hl g => ?_⟩
  have he := hdrEffect_of_bytes hl g
  split
  case isTrue hc => exact exec_hdr_of_raise hr (he.trans (if_pos hc))
  case isFalse hc =>
    rw [exec_hdr_of_bytes hr hl g hc]
    simp only [State.writeHeader, headerOf, le16_eq, permOf_eq]
    rfl

end Sys2Proof.Machine
end

section
/-! PROOFS. `I2F` is exact on small integers (00_scope.md R17), so the components of CSIX are exact (41_bit_extractor.md R104). -/

namespace Sys2Proof.Machine

/-- `I2F` is exact on integers of at most 53 bits. -/
theorem i2f_exact {n : Int} (h : n.natAbs ≤ 2 ^ 53) : fIsFinite (i2f n) = true ∧ fVal (i2f n) = n * fUnit := by
  obtain ⟨b, hb, hmag⟩ := exists_bits_of_int n.natAbs h
  obtain ⟨neg, e, hv⟩ := fRoundInt_eq_fRound false (n * fUnit)
  have habs : (n * (fUnit : Int)).natAbs = magOf b := by rw [Int.natAbs_mul, Int.natAbs_natCast, hmag]
  have hbits : fBits (fRound neg (magOf b) 1) = b := by rw [fBits_fRound, roundBits_magOf hb.le]
  rw [habs] at e hv
  rw [i2f, e]
  refine ⟨by rwa [fIsFinite_iff, hbits], ?_⟩
  rw [fVal_eq_signed, fSign_fRound, fMag_eq, hbits, hv]

/-- Settles O28: a signed byte has at most 8 bits, and `I2F` is exact on it. -/
theorem componentsAreExact : Obligations.ComponentsAreExact := by
  intro b
  have hlow : -128 ≤ b.toInt := BitVec.le_toInt b
  have hhigh : b.toInt < 128 := BitVec.toInt_lt
  obtain ⟨hfin, hval⟩ := i2f_exact (n := b.toInt) (by omega)
  exact ⟨hfin, hval, hlow, by omega⟩

end Sys2Proof.Machine
end

section
/-! PROOFS. The window of CSIX, bit by bit (41_bit_extractor.md R103). -/

namespace Sys2Proof.Machine

theorem window8_of_bytes {m : Memory} {base k : Nat} {lo hi : Byte} (h0 : m.read (base + k) = some lo)
    (h1 : m.read (base + k + 1) = some hi) (p : Nat) : window8 m base k p = some (window lo hi p) := by
  simp [window8, h0, h1]

/-- The masked value of R103 fits the eight bits of a window, so nothing more is cut off. -/
theorem window_toNat_eq_and (lo hi : Byte) (p : Nat) :
    (window lo hi p).toNat = ((lo.toNat >>> p) ||| (hi.toNat <<< (8 - p))) &&& 0xFF :=
  toNat_ofNat_of_lt (Nat.and_lt_two_pow _ (by norm_num))

/-- Bit `n` of a window is bit `p + n` of the 16 bits of its two bytes, the first byte being the low one. -/
theorem getLsbD_window (lo hi : Byte) {p n : Nat} (hp : p < 8) (hn : n < 8) :
    (window lo hi p).getLsbD n = if p + n < 8 then lo.getLsbD ((p + n) % 8) else hi.getLsbD ((p + n) % 8) := by
  have hmask : Nat.testBit 0xFF n = true := by
    rw [show (0xFF : Nat) = 2 ^ 8 - 1 by norm_num, Nat.testBit_two_pow_sub_one, decide_eq_true hn]
  have hbits : (window lo hi p).getLsbD n = (lo.getLsbD (p + n) || (decide (8 - p ≤ n) && hi.getLsbD (n - (8 - p)))) := by
    rw [BitVec.getLsbD, window_toNat_eq_and, Nat.testBit_and, hmask, Bool.and_true, Nat.testBit_or, Nat.testBit_shiftRight,
      Nat.testBit_shiftLeft]
    rfl
  rw [hbits]
  split
  case isTrue h => rw [decide_eq_false (by omega), Bool.false_and, Bool.or_false, Nat.mod_eq_of_lt h]
  case isFalse h =>
    rw [BitVec.getLsbD_of_ge lo _ (by omega), decide_eq_true (by omega), Bool.false_or, Bool.true_and]
    congr 1
    omega

/-- Settles O27: both bytes are read, and the window's bits are taken one by one. -/
theorem windowTakesEightBitsAtOffset : Obligations.WindowTakesEightBitsAtOffset := fun _ lo hi _ p hp h0 h1 =>
  ⟨_, window8_of_bytes h0 h1 p, window_toNat_eq_and lo hi p, fun _ hn => getLsbD_window lo hi hp hn⟩

end Sys2Proof.Machine
end

section
/-! PROOFS. The checks of CSIX (41_bit_extractor.md R106, R107). -/

namespace Sys2Proof.Machine

theorem exec_csix (s : State) : exec .csix s = issueEffect 0x2000#16 s (csixEffect s) := rfl

theorem csixEffect_of_counts {s : State} (h : ¬ (isCount s.nrx = true ∧ isCount s.ntx = true)) :
    csixEffect s = .raise .malformedHeader := by
  unfold csixEffect
  rw [if_pos]
  rw [not_and_or, Bool.not_eq_true, Bool.not_eq_true] at h
  rw [Bool.or_eq_true, Bool.not_eq_true', Bool.not_eq_true']
  exact h

/-- With legal counts CSIX fails on a payload that is too short, and otherwise runs its loop. -/
theorem csixEffect_of_legal {s : State} (hr : isCount s.nrx = true) (ht : isCount s.ntx = true) :
    csixEffect s =
      if s.bufLen < s.payBase + 60 * (s.nrx.toNat * s.ntx.toNat) + 12 then .raise .truncatedCsiData
      else ((extractTensor s.buf s.payBase s.nrx.toNat s.ntx.toNat s.csi).elim .unwritten
        fun q => .done { s with csi := q.2, cur := BitVec.ofNat 16 q.1 }) := by
  unfold csixEffect
  rw [hr, ht]
  cases extractTensor s.buf s.payBase s.nrx.toNat s.ntx.toNat s.csi <;> rfl

/-- Settles O26: the count check comes first, and the length check raises only with legal counts. -/
theorem csixChecksCountsThenLength : Obligations.CsixChecksCountsThenLength := by
  intro s hrun ok
  constructor
  · intro hbad
    have heff : csixEffect s = .raise .malformedHeader := csixEffect_of_counts (by rwa [isCount_iff, isCount_iff])
    rw [exec_csix, heff, issueEffect_raise hrun]
  · intro hr ht hshort
    rw [Nat.mul_assoc] at hshort
    have heff : csixEffect s = .raise .truncatedCsiData :=
      (csixEffect_of_legal (isCount_iff.mpr hr) (isCount_iff.mpr ht)).trans (if_pos hshort)
    rw [exec_csix, heff, issueEffect_raise hrun]

end Sys2Proof.Machine
end

section
/-! PROOFS. The tensor of CSIX (41_bit_extractor.md R100 to R110): the cursor of each pair in closed form, what a pair reads there, and
the whole loop on a payload whose bytes are written. -/

namespace Sys2Proof.Machine

/-- The cursor of pair `j` of subcarrier `k`, for `n` pairs a subcarrier (R108). -/
def pairCursor (n k j : Nat) : Nat := 3 * (k + 1) + 16 * (n * k + j)

/-- The cursor the two loops reach. -/
theorem loop_cursor_eq (n k j : Nat) : 0 + (3 + 16 * n) * k + 3 + 16 * j = pairCursor n k j := by
  unfold pairCursor
  ring

/-- The remainder fixed at the top of a subcarrier is that of each of its pairs (R102). -/
theorem loop_rem_eq (n k j : Nat) : (0 + (3 + 16 * n) * k + 3) % 8 = pairCursor n k j % 8 := by
  rw [← loop_cursor_eq]
  omega

/-- The three bytes of a pair lie inside the payload length that CSIX checks (R106). -/
theorem pairCursor_byte_lt {n k j : Nat} (hk : k < 30) (hj : j < n) : pairCursor n k j / 8 + 2 < 60 * n + 12 := by
  have hrow : n * k ≤ n * 29 := Nat.mul_le_mul_left _ (by omega)
  unfold pairCursor
  omega

/-- What the loop leaves in a cell: inside the shape what is read at the pair's cursor, outside it what was there (R109). -/
theorem extractTensor_cell {m : Memory} {base nrx ntx : Nat} (h1 : 1 ≤ nrx) (h2 : nrx ≤ 3) (h3 : 1 ≤ ntx) (h4 : ntx ≤ 3)
    {cur : Nat} {t t' : Vector CMatrix 30} (h : extractTensor m base nrx ntx t = some (cur, t')) (k : Fin 30) (r c : Fin 3) :
    (r.val < nrx ∧ c.val < ntx → ntx * r.val + c.val < nrx * ntx ∧
      readPair m base (pairCursor (nrx * ntx) k (ntx * r.val + c.val) % 8) (pairCursor (nrx * ntx) k (ntx * r.val + c.val)) =
        some t'[k][r][c]) ∧
    (¬ (r.val < nrx ∧ c.val < ntx) → t'[k][r][c] = t[k][r][c]) := by
  obtain ⟨hlen, hnd, hpairs⟩ := antennaPairs_spec h1 h2 h3 h4
  obtain ⟨hmem, hidx⟩ := hpairs r c
  obtain ⟨-, hsub, -⟩ := extractSubcarriers_some h1 h2 h3 h4 h (List.nodup_finRange 30)
  obtain ⟨_, hloop⟩ := hsub k (List.mem_finRange k)
  obtain ⟨-, hin, hout⟩ := extractPairs_some hloop hnd
  refine ⟨fun hshape => ?_, fun hshape => hout r c (mt hmem.mp hshape)⟩
  have hread := hin r c (hmem.mpr hshape)
  have hlt := List.idxOf_lt_length_of_mem (hmem.mpr hshape)
  rw [hidx hshape, List.idxOf_finRange, loop_cursor_eq, loop_rem_eq _ _ (ntx * r.val + c.val)] at hread
  rw [hidx hshape, hlen] at hlt
  exact ⟨hlt, hread⟩

/-- The signed value of a number below 256 (R104). -/
def signedByte (v : Nat) : Int := if v < 128 then v else v - 256

theorem toInt_eq_signedByte (b : Byte) : b.toInt = signedByte b.toNat := by
  rw [BitVec.toInt_eq_toNat_cond, signedByte]
  split <;> split <;> omega

/-- A component by division (R103, R104). -/
theorem component_window (lo hi : Byte) {p : Nat} (hp : p < 8) :
    component (window lo hi p) = i2f (signedByte ((lo.toNat / 2 ^ p + hi.toNat * 2 ^ (8 - p)) % 256)) := by
  rw [component, toInt_eq_signedByte, window_toNat lo hi hp]

section
variable {m : Memory} {base nrx ntx : Nat} {byte : Nat → Byte}

/-- A pair of a payload whose bytes are written. -/
theorem readPair_of_payload {n k j : Nat} (g : ∀ a, a < 60 * n + 12 → m.read (base + a) = some (byte a)) (hk : k < 30) (hj : j < n) :
    let cur := pairCursor n k j
    readPair m base (cur % 8) cur = some ⟨component (window (byte (cur / 8)) (byte (cur / 8 + 1)) (cur % 8)),
      component (window (byte (cur / 8 + 1)) (byte (cur / 8 + 2)) (cur % 8))⟩ := by
  intro cur
  have hlt : cur / 8 + 2 < 60 * n + 12 := pairCursor_byte_lt hk hj
  exact readPair_some (g _ (by omega)) (g _ (by omega)) (g _ hlt)

/-- The loop ends on a payload whose bytes are written, whatever the rest of the buffer holds. -/
theorem extractTensor_of_payload (h1 : 1 ≤ nrx) (h2 : nrx ≤ 3) (h3 : 1 ≤ ntx) (h4 : ntx ≤ 3)
    (g : ∀ a, a < 60 * (nrx * ntx) + 12 → m.read (base + a) = some (byte a)) (t : Vector CMatrix 30) :
    ∃ t', extractTensor m base nrx ntx t = some (90 + 480 * (nrx * ntx), t') := by
  have hsome : (extractTensor m base nrx ntx t).isSome := by
    refine extractSubcarriers_isSome h1 h2 h3 h4 fun k j hk hj => ?_
    rw [List.length_finRange] at hk
    rw [loop_cursor_eq, loop_rem_eq _ _ j, readPair_of_payload g hk hj, Option.isSome_some]
  obtain ⟨⟨cur, t'⟩, h⟩ := Option.isSome_iff_exists.mp hsome
  obtain rfl := extractTensor_cursor h1 h2 h3 h4 h
  exact ⟨t', h⟩

end

/-- Settles O25: the loop ends on the payload, its final cursor is the closed form, and each cell of the shape holds the pair read at
its own cursor. -/
theorem csixExtractsTensor : Obligations.CsixExtractsTensor := by
  intro s hrun nrx ntx h1 h2 h3 h4 hlong byte g
  have heff := csixEffect_of_legal (s := s) (isCount_iff.mpr (by omega)) (isCount_iff.mpr (by omega))
  obtain ⟨csi, htensor⟩ := extractTensor_of_payload h1 h2 h3 h4 g s.csi
  rw [if_neg (Nat.not_lt.mpr hlong), htensor] at heff
  refine ⟨csi, by rw [exec_csix, heff]; exact issueEffect_done hrun _ _, fun k r c => ?_⟩
  obtain ⟨hin, hout⟩ := extractTensor_cell h1 h2 h3 h4 htensor k r c
  split
  case isTrue hshape =>
    obtain ⟨hj, hread⟩ := hin hshape
    have hp : pairCursor (nrx * ntx) k (ntx * r.val + c.val) % 8 < 8 := Nat.mod_lt _ (by norm_num)
    rw [readPair_of_payload g k.isLt hj, component_window _ _ hp, component_window _ _ hp] at hread
    exact (Option.some.inj hread).symm
  case isFalse hshape => exact hout hshape

end Sys2Proof.Machine
end

section
/-! PROOFS. Phases are stored without a negative sign (42_givens_decomposer.md R131). -/

namespace Sys2Proof.Machine

theorem fVal_of_zero {x : F} (h : fIsZero x = true) : fVal x = 0 := by
  simp [fVal, fIsZero_iff_mag.mp h]

/-- Settles O36: a zero of either sign and a NaN are not below zero, so only a phase below zero is shifted. -/
theorem negativePhasesAreShifted : Obligations.NegativePhasesAreShifted := by
  intro x
  have hkept : flt x 0#64 = false → norm2pi x = x := fun h => if_neg (Bool.eq_false_iff.mp h)
  refine ⟨fun h => if_pos h, hkept, fun h => hkept ?_, by decide +kernel⟩
  rw [Bool.eq_false_iff, Ne, flt_iff]
  rintro ⟨hnum, -, hlt⟩
  rcases h with hzero | hnan
  · rw [fVal_of_zero hzero, fVal_of_zero (x := 0#64) (by decide)] at hlt
    exact absurd hlt (lt_irrefl 0)
  · exact Bool.false_ne_true (hnum.symm.trans hnan)

end Sys2Proof.Machine
end

section
/-! PROOFS. DECOMP (42_givens_decomposer.md R120 to R136): its dimension check, the columns of the matrix after each step, and the six
angles from them. -/

namespace Sys2Proof.Machine

/-! ### The dimension check -/

theorem exec_decomp_of_faulted {s : State} (hrun : s.run = .faulted) (sc : BitVec 5) : exec (.decomp sc) s = .next s :=
  issueEffect_faulted hrun _ _

theorem exec_decomp_of_dimension {sc : BitVec 5} {s : State} (hs : sc.toNat < 30) (hrun : s.run = .ready)
    (hdim : ¬ (s.nrx = 3#8 ∧ s.ntx = 3#8)) :
    exec (.decomp sc) s = .next (s.raise .unsupportedDimension (encode (.decomp sc))) := by
  have heff : decompEffect ⟨sc.toNat, hs⟩ s = .raise .unsupportedDimension := if_pos (not_and_or.mp hdim)
  show issueEffect _ _ _ = _
  rw [withSubcarrier_of_lt hs, heff, issueEffect_raise hrun]

/-- Settles O39: the dimension check raises before any angle is computed. -/
theorem decompRejectsOtherDimensions : Obligations.DecompRejectsOtherDimensions := by
  intro sc s hrun hlegal hdim
  exact exec_decomp_of_dimension (legalSubcarrier_iff.mp hlegal) hrun
    fun ⟨hrx, htx⟩ => hdim ⟨congrArg BitVec.toNat hrx, congrArg BitVec.toNat htx⟩

/-! ### Every step works on each column alone -/

/-- Column `c` of a matrix. -/
def column (v : CMatrix) (c : Fin 3) : Fin 3 → CPair := fun r => v[r][c]

theorem column_applyColumnPhases (v : CMatrix) (c : Fin 3) :
    column (applyColumnPhases v) c = fun r => cmul (column v c r) (cisn (carg (column v c 2))) :=
  funext fun r => applyColumnPhases_get v r c

theorem column_correctRows (p q : F) (v : CMatrix) (c : Fin 3) :
    column (correctRows p q v) c = fun r =>
      if r = 0 then cmul (cisn p) (column v c 0) else if r = 1 then cmul (cisn q) (column v c 1) else column v c 2 :=
  funext fun r => correctRows_get p q v r c

theorem column_rotate01 (psi : F) (v : CMatrix) (c : Fin 3) :
    column (rotate01 psi v) c = fun r =>
      if r = 0 then cadd (smul (cos psi) (column v c 0)) (smul (sin psi) (column v c 1))
      else if r = 1 then cadd (smul (fneg (sin psi)) (column v c 0)) (smul (cos psi) (column v c 1)) else column v c 2 :=
  funext fun r => rotate01_get psi v r c

theorem column_rotate02 (psi : F) (v : CMatrix) (c : Fin 3) :
    column (rotate02 psi v) c = fun r =>
      if r = 0 then cadd (smul (cos psi) (column v c 0)) (smul (sin psi) (column v c 2))
      else if r = 1 then column v c 1 else cadd (smul (fneg (sin psi)) (column v c 0)) (smul (cos psi) (column v c 2)) :=
  funext fun r => rotate02_get psi v r c

theorem column_correctRow1 (phi : F) (v : CMatrix) (c : Fin 3) :
    column (correctRow1 phi v) c = fun r => if r = 1 then cmul (cisn phi) (column v c 1) else column v c r :=
  funext fun r => correctRow1_get phi v r c

theorem entries_of_column_eq {a b : CMatrix} {c : Nat} {hc : c < 3} (h : column a ⟨c, hc⟩ = column b ⟨c, hc⟩) :
    a[0][c] = b[0][c] ∧ a[1][c] = b[1][c] ∧ a[2][c] = b[2][c] := ⟨congrFun h 0, congrFun h 1, congrFun h 2⟩

theorem stageV2_eq (v : CMatrix) : stageV2 v =
    correctRows (norm2pi (carg (column (applyColumnPhases v) 0 0))) (norm2pi (carg (column (applyColumnPhases v) 0 1)))
      (applyColumnPhases v) := rfl

/-! ### Column 2 -/

theorem finalAngles_eq (v : CMatrix) : finalAngles v =
    #v[some (norm2pi (carg v[1][1])),
      calcPsi? (correctRow1 (norm2pi (carg v[1][1])) v)[1][1].re (correctRow1 (norm2pi (carg v[1][1])) v)[2][1].re] := rfl

/-- The last two angles are computed from column 1 of `V4`. -/
theorem finalAngles_congr {a b : CMatrix} (h : column a 1 = column b 1) : finalAngles a = finalAngles b := by
  obtain ⟨-, hphi22, -⟩ := entries_of_column_eq (c := 1) h
  have h5 (phi : F) : column (correctRow1 phi a) 1 = column (correctRow1 phi b) 1 := by
    rw [column_correctRow1, column_correctRow1, h]
  obtain ⟨-, hx, hy⟩ := entries_of_column_eq (c := 1) (h5 (norm2pi (carg b[1][1])))
  rw [finalAngles_eq, finalAngles_eq, hphi22, hx, hy]

theorem column_applyColumnPhases_congr {a b : CMatrix} {c : Fin 3} (h : column a c = column b c) :
    column (applyColumnPhases a) c = column (applyColumnPhases b) c := by
  rw [column_applyColumnPhases, column_applyColumnPhases, h]

theorem column_stageV2_congr {a b : CMatrix} (h0 : column a 0 = column b 0) {c : Fin 3} (hc : column a c = column b c) :
    column (stageV2 a) c = column (stageV2 b) c := by
  rw [stageV2_eq, stageV2_eq, column_correctRows, column_correctRows, column_applyColumnPhases_congr h0,
    column_applyColumnPhases_congr hc]

/-- The six angles are computed from columns 0 and 1. -/
theorem decompose_congr {a b : CMatrix} (h0 : column a 0 = column b 0) (h1 : column a 1 = column b 1) : decompose a = decompose b := by
  have hv3 (psi : F) {c : Fin 3} (hc : column a c = column b c) :
      column (rotate01 psi (stageV2 a)) c = column (rotate01 psi (stageV2 b)) c := by
    rw [column_rotate01, column_rotate01, column_stageV2_congr h0 hc]
  have hv4 (psi psi' : F) :
      column (rotate02 psi' (rotate01 psi (stageV2 a))) 1 = column (rotate02 psi' (rotate01 psi (stageV2 b))) 1 := by
    rw [column_rotate02, column_rotate02, hv3 psi h1]
  obtain ⟨hphi11, hphi21, -⟩ := entries_of_column_eq (c := 0) (column_applyColumnPhases_congr h0)
  obtain ⟨hx, hy, -⟩ := entries_of_column_eq (c := 0) (column_stageV2_congr h0 h0)
  cases h21 : calcPsi? (stageV2 b)[0][0].re (stageV2 b)[1][0].re with
  | none =>
    rw [decompose_of_none h21, decompose_of_none (by rwa [hx, hy]), hphi11, hphi21]
  | some psi21 =>
    obtain ⟨hx', -, hy'⟩ := entries_of_column_eq (c := 0) (hv3 psi21 h0)
    cases h31 : calcPsi? (rotate01 psi21 (stageV2 b))[0][0].re (rotate01 psi21 (stageV2 b))[2][0].re with
    | none =>
      rw [decompose_of_some_none h21 h31, decompose_of_some_none (by rwa [hx, hy]) (by rwa [hx', hy']), hphi11, hphi21]
    | some psi31 =>
      obtain ⟨-, hphi22, -⟩ := entries_of_column_eq (c := 1) (hv4 psi21 psi31)
      rw [decompose_of_some_some h21 h31, decompose_of_some_some (by rwa [hx, hy]) (by rwa [hx', hy']), hphi11, hphi21,
        finalAngles_congr (hv4 psi21 psi31), hphi22]

/-- Settles O41: DECOMP checks the dimensions and reads the matrix, whose first two columns are those of the other state. -/
theorem decompIgnoresColumnTwo : Obligations.DecompIgnoresColumnTwo := by
  intro sc s hs m hm t h
  have hcol {c : Fin 3} (hc : c ≠ 2) : column m c = column s.csi[sc.toNat] c := funext fun r => hm r c hc
  have hangles : decompose m = decompose s.csi[sc.toNat] := decompose_congr (hcol (by decide)) (hcol (by decide))
  let u : State := { s with csi := s.csi.set sc.toNat m }
  obtain hrun | hrun : s.run = .faulted ∨ s.run = .ready := by cases s.run <;> simp
  · obtain rfl : s = t := Host.Outcome.next.inj ((exec_decomp_of_faulted hrun sc).symm.trans h)
    exact exec_decomp_of_faulted (s := u) hrun sc
  · by_cases hdim : s.nrx = 3#8 ∧ s.ntx = 3#8
    · obtain ⟨hrx, htx⟩ := hdim
      obtain rfl := Host.Outcome.next.inj ((exec_decomp hs hrun hrx htx).symm.trans h)
      refine (exec_decomp (s := u) hs hrun hrx htx).trans ?_
      rw [Vector.getElem_set_self, hangles]
      rfl
    · obtain rfl := Host.Outcome.next.inj ((exec_decomp_of_dimension hs hrun hdim).symm.trans h)
      exact exec_decomp_of_dimension (s := u) hs hrun hdim

/-! ### The six angles -/

/-- The two phases computed before any `CalcPsi`. -/
theorem decompose_phases (v : CMatrix) :
    (decompose v)[0] = some (norm2pi (carg (column (applyColumnPhases v) 0 0))) ∧
    (decompose v)[1] = some (norm2pi (carg (column (applyColumnPhases v) 0 1))) := by
  unfold decompose
  simp only
  split
  · exact ⟨rfl, rfl⟩
  · split <;> exact ⟨rfl, rfl⟩

section
variable {v : CMatrix} {psi21 psi31 : F}
  (h21 : calcPsi? (column (stageV2 v) 0 0).re (column (stageV2 v) 0 1).re = some psi21)
include h21

theorem decompose_psi21 : (decompose v)[2] = some psi21 := by
  cases h31 : calcPsi? (rotate01 psi21 (stageV2 v))[0][0].re (rotate01 psi21 (stageV2 v))[2][0].re with
  | none => rw [decompose_of_some_none h21 h31]; rfl
  | some psi31 => rw [decompose_of_some_some h21 h31]; rfl

variable (h31 : calcPsi? (column (rotate01 psi21 (stageV2 v)) 0 0).re (column (rotate01 psi21 (stageV2 v)) 0 2).re = some psi31)
include h31

theorem decompose_psi31_phi22 : (decompose v)[3] = some psi31 ∧
    (decompose v)[4] = some (norm2pi (carg (column (rotate02 psi31 (rotate01 psi21 (stageV2 v))) 1 1))) := by
  rw [decompose_of_some_some h21 h31]
  exact ⟨rfl, rfl⟩

/-- With the last `CalcPsi` specified too, all six angles are, and no free value is used up. -/
theorem decompose_psi32 {phi22 psi32 : F} (hphi22 : norm2pi (carg (column (rotate02 psi31 (rotate01 psi21 (stageV2 v))) 1 1)) = phi22)
    (h32 : calcPsi? (column (correctRow1 phi22 (rotate02 psi31 (rotate01 psi21 (stageV2 v)))) 1 1).re
      (column (correctRow1 phi22 (rotate02 psi31 (rotate01 psi21 (stageV2 v)))) 1 2).re = some psi32) :
    (decompose v)[5] = some psi32 ∧ drawsOf (decompose v) = 0 := by
  subst hphi22
  have hlast : (finalAngles (rotate02 psi31 (rotate01 psi21 (stageV2 v))))[1] = some psi32 := by
    rw [finalAngles_eq]
    exact h32
  rw [decompose_of_some h21 h31 hlast]
  exact ⟨rfl, rfl⟩

end

/-- Settles O38: the matrix after each step has the entries the statement names, and each `CalcPsi` with arguments that are not both zero
specifies the angles up to the next. -/
theorem decompCompletesOnEveryMatrix : Obligations.DecompCompletesOnEveryMatrix := by
  intro sc s hs hrun hrx htx v psi defined v1 phi11 phi21 v2 psi21 v3 psi31 v4 phi22 v5 psi32
  let m := s.csi[sc.toNat]
  let k : Fin 30 := ⟨sc.toNat, hs⟩
  have e1 (c : Fin 3) : column (applyColumnPhases m) c = fun r => v1 r c := column_applyColumnPhases m c
  have e2 (c : Fin 3) : column (stageV2 m) c = fun r => v2 r c := by
    rw [stageV2_eq, column_correctRows, e1, e1]
  have e3 (c : Fin 3) : column (rotate01 psi21 (stageV2 m)) c = fun r => v3 r c := by
    rw [column_rotate01, e2]
  have e4 (c : Fin 3) : column (rotate02 psi31 (rotate01 psi21 (stageV2 m))) c = fun r => v4 r c := by
    rw [column_rotate02, e3]
  have e5 (c : Fin 3) : column (correctRow1 phi22 (rotate02 psi31 (rotate01 psi21 (stageV2 m)))) c = fun r => v5 r c := by
    rw [column_correctRow1, e4]
  obtain ⟨h0, h1⟩ := decompose_phases m
  rw [e1] at h0 h1
  refine ⟨fillAngles k s.draws[k] (decompose m), s.draws[k] + drawsOf (decompose m), exec_decomp hs hrun hrx htx,
    fillAngles_of_some (i := 0) h0, fillAngles_of_some (i := 1) h1, fun hd2 => ?_⟩
  have h21 : calcPsi? (column (stageV2 m) 0 0).re (column (stageV2 m) 0 1).re = some psi21 := by
    rw [e2]
    exact calcPsi?_of_not_zero hd2
  refine ⟨fillAngles_of_some (i := 2) (decompose_psi21 h21), fun hd3 => ?_⟩
  have h31 : calcPsi? (column (rotate01 psi21 (stageV2 m)) 0 0).re (column (rotate01 psi21 (stageV2 m)) 0 2).re = some psi31 := by
    rw [e3]
    exact calcPsi?_of_not_zero hd3
  obtain ⟨h3, h4⟩ := decompose_psi31_phi22 h21 h31
  rw [e4] at h4
  refine ⟨fillAngles_of_some (i := 3) h3, fillAngles_of_some (i := 4) h4, fun hd5 => ?_⟩
  have h32 : calcPsi? (column (correctRow1 phi22 (rotate02 psi31 (rotate01 psi21 (stageV2 m)))) 1 1).re
      (column (correctRow1 phi22 (rotate02 psi31 (rotate01 psi21 (stageV2 m)))) 1 2).re = some psi32 := by
    rw [e5]
    exact calcPsi?_of_not_zero hd5
  obtain ⟨h5, hdraws⟩ := decompose_psi32 h21 h31 (by rw [e4]) h32
  refine ⟨fillAngles_of_some (i := 5) h5, ?_⟩
  rw [hdraws]
  rfl

/-- Settles O37: where all six angles are specified, the next state of `decompCompletesOnEveryMatrix` is this one. -/
theorem decompComputesSixAngles : Obligations.DecompComputesSixAngles := by
  intro sc s hs hrun hrx htx v psi defined v1 phi11 phi21 v2 psi21 v3 psi31 v4 phi22 v5 psi32 hd2 hd3 hd5
  obtain ⟨a, n, hexec, h0, h1, h⟩ := decompCompletesOnEveryMatrix sc s hs hrun hrx htx
  obtain ⟨h2, h⟩ := h hd2
  obtain ⟨h3, h4, h⟩ := h hd3
  obtain ⟨h5, rfl⟩ := h hd5
  have ha : a = #v[phi11, phi21, psi21, psi31, phi22, psi32] := by
    apply Vector.ext
    intro i hi
    interval_cases i
    · exact h0
    · exact h1
    · exact h2
    · exact h3
    · exact h4
    · exact h5
  rw [hexec, ha, Vector.set_getElem_self]

end Sys2Proof.Machine
end

section
/-! PROOFS. DECOMP of the identity (42_givens_decomposer.md R134). -/

namespace Sys2Proof.Machine

/-- The 3 x 3 identity, every zero positive. -/
def identityMatrix : CMatrix :=
  #v[#v[⟨fOne, fPosZero⟩, ⟨fPosZero, fPosZero⟩, ⟨fPosZero, fPosZero⟩],
    #v[⟨fPosZero, fPosZero⟩, ⟨fOne, fPosZero⟩, ⟨fPosZero, fPosZero⟩],
    #v[⟨fPosZero, fPosZero⟩, ⟨fPosZero, fPosZero⟩, ⟨fOne, fPosZero⟩]]

theorem eq_identityMatrix {v : CMatrix} (h : ∀ r c : Fin 3, v[r][c] = if r = c then ⟨fOne, 0#64⟩ else ⟨0#64, 0#64⟩) :
    v = identityMatrix := by
  have hentry : ∀ r c : Fin 3, identityMatrix[r][c] = if r = c then ⟨fOne, 0#64⟩ else ⟨0#64, 0#64⟩ := by decide
  apply Vector.ext
  intro r hr
  apply Vector.ext
  intro c hc
  exact (h ⟨r, hr⟩ ⟨c, hc⟩).trans (hentry ⟨r, hr⟩ ⟨c, hc⟩).symm

theorem norm2pi_carg_one : norm2pi (carg ⟨fOne, fPosZero⟩) = fPosZero := by decide +kernel

theorem norm2pi_carg_zero : norm2pi (carg ⟨fPosZero, fPosZero⟩) = fPosZero := by decide +kernel

theorem calcPsi?_one_zero : calcPsi? fOne fPosZero = some fPosZero := by decide +kernel

theorem applyColumnPhases_identityMatrix : applyColumnPhases identityMatrix = identityMatrix := by decide +kernel

theorem correctRows_identityMatrix : correctRows fPosZero fPosZero identityMatrix = identityMatrix := by decide +kernel

theorem rotate01_identityMatrix : rotate01 fPosZero identityMatrix = identityMatrix := by decide +kernel

theorem rotate02_identityMatrix : rotate02 fPosZero identityMatrix = identityMatrix := by decide +kernel

theorem correctRow1_identityMatrix : correctRow1 fPosZero identityMatrix = identityMatrix := by decide +kernel

/-- Every step with the angle `+0` keeps the identity, and the identity gives every step that angle (P1 to P3). -/
theorem decompose_identityMatrix : decompose identityMatrix = Vector.replicate 6 (some fPosZero) := by
  have hphi11 : norm2pi (carg identityMatrix[0][0]) = fPosZero := norm2pi_carg_one
  have hphi21 : norm2pi (carg identityMatrix[1][0]) = fPosZero := norm2pi_carg_zero
  have hphi22 : norm2pi (carg identityMatrix[1][1]) = fPosZero := norm2pi_carg_one
  have hv2 : stageV2 identityMatrix = identityMatrix := by
    rw [stageV2, applyColumnPhases_identityMatrix, hphi11, hphi21, correctRows_identityMatrix]
  have h21 : calcPsi? (stageV2 identityMatrix)[0][0].re (stageV2 identityMatrix)[1][0].re = some fPosZero := by
    rw [hv2]
    exact calcPsi?_one_zero
  have h31 : calcPsi? (rotate01 fPosZero (stageV2 identityMatrix))[0][0].re (rotate01 fPosZero (stageV2 identityMatrix))[2][0].re =
      some fPosZero := by
    rw [hv2, rotate01_identityMatrix]
    exact calcPsi?_one_zero
  have h32 : (finalAngles (rotate02 fPosZero (rotate01 fPosZero (stageV2 identityMatrix))))[1] = some fPosZero := by
    rw [hv2, rotate01_identityMatrix, rotate02_identityMatrix, finalAngles_eq, hphi22, correctRow1_identityMatrix]
    exact calcPsi?_one_zero
  rw [decompose_of_some h21 h31 h32, hv2, rotate01_identityMatrix, rotate02_identityMatrix, applyColumnPhases_identityMatrix,
    hphi11, hphi21, hphi22]
  rfl

/-- Settles O40: the six angles of the identity are specified, so no free value is stored. -/
theorem decompOfIdentityIsZero : Obligations.DecompOfIdentityIsZero := by
  intro sc s hs hrun hrx htx hm
  refine ⟨_, exec_decomp hs hrun hrx htx, fun i => ?_⟩
  rw [State.writeAngles_ang, Vector.getElem_set_self]
  refine fillAngles_of_some ?_
  rw [eq_identityMatrix hm, decompose_identityMatrix, Fin.getElem_fin, Vector.getElem_replicate]

end Sys2Proof.Machine
end

section
/-! PROOFS. The order of `F` patterns, and that each basic operation keeps it in its first operand (00_scope.md R13, R17). -/

namespace Sys2Proof.Machine

/-! ### Comparing patterns -/

theorem fle_self {x : F} (h : fIsNaN x = false) : fle x x = true := fle_iff.mpr ⟨h, h, le_rfl⟩

theorem fle_eq_false_iff {x y : F} (hx : fIsNaN x = false) (hy : fIsNaN y = false) : fle x y = false ↔ fVal y < fVal x := by
  rw [← Bool.not_eq_true, fle_iff, ← not_le]
  simp only [hx, hy, true_and]

theorem natAbs_fVal (x : F) : (fVal x).natAbs = fMag x := by
  unfold fVal
  split <;> simp

theorem fMag_le_of_fBits_le {x y : F} (h : fBits x ≤ fBits y) : fMag x ≤ fMag y := by
  rw [fMag_eq, fMag_eq]
  exact magOf_mono h

theorem fBits_le_of_fVal_le {x y : F} (hx : fSign x = false) (hy : fSign y = false) (h : fVal x ≤ fVal y) : fBits x ≤ fBits y := by
  rw [fVal_nonneg_of_pos hx, fVal_nonneg_of_pos hy, fMag_eq, fMag_eq] at h
  exact magOf_le_iff.mp (by exact_mod_cast h)

theorem fVal_le_of_fBits_le {x y : F} (hx : fSign x = false) (hy : fSign y = false) (h : fBits x ≤ fBits y) : fVal x ≤ fVal y := by
  rw [fVal_nonneg_of_pos hx, fVal_nonneg_of_pos hy]
  exact_mod_cast fMag_le_of_fBits_le h

theorem fVal_nonpos_of_neg {x : F} (h : fSign x = true) : fVal x ≤ 0 := by
  simp [fVal, h]

theorem fIsFinite_of_fBits_le {x y : F} (hy : fIsFinite y = true) (h : fBits x ≤ fBits y) : fIsFinite x = true := by
  rw [fIsFinite_iff] at *
  omega

/-- What lies between two finite values is finite. -/
theorem fIsFinite_of_between {x lo hi : F} (hx : fIsNaN x = false) (flo : fIsFinite lo = true) (fhi : fIsFinite hi = true)
    (h1 : fVal lo ≤ fVal x) (h2 : fVal x ≤ fVal hi) : fIsFinite x = true := by
  by_contra hf
  have hmag : fMag x = magOf fInfBits := by
    rw [fMag_eq, fIsInf_iff.mp (fIsInf_of_not_finite (Bool.eq_false_iff.mpr hf) hx)]
  have hlo := fMag_lt_of_finite flo
  have hhi := fMag_lt_of_finite fhi
  rw [← natAbs_fVal] at hmag hlo hhi
  omega

/-! ### The operations are monotone -/

theorem fBits_fmul_le {x y c : F} (hy : fIsFinite y = true) (hc : fIsFinite c = true) (h : fBits x ≤ fBits y) :
    fBits (fmul x c) ≤ fBits (fmul y c) := by
  rw [fmul_finite (fIsFinite_of_fBits_le hy h) hc, fmul_finite hy hc, fBits_fRound, fBits_fRound]
  exact roundBits_mono fUnit_pos fUnit_pos (Nat.mul_le_mul_right _ (Nat.mul_le_mul_right _ (fMag_le_of_fBits_le h)))

theorem fBits_fdiv_le {x y c : F} (hy : fIsFinite y = true) (hc : fIsFinite c = true) (h0 : fIsZero c = false)
    (h : fBits x ≤ fBits y) : fBits (fdiv x c) ≤ fBits (fdiv y c) := by
  rw [fdiv_finite (fIsFinite_of_fBits_le hy h) hc h0, fdiv_finite hy hc h0, fBits_fRound, fBits_fRound]
  exact roundBits_mono (fMag_pos h0) (fMag_pos h0) (Nat.mul_le_mul_right _ (Nat.mul_le_mul_right _ (fMag_le_of_fBits_le h)))

theorem fSign_fmul {x y : F} (hx : fIsFinite x = true) (hy : fIsFinite y = true) : fSign (fmul x y) = (fSign x != fSign y) := by
  rw [fmul_finite hx hy, fSign_fRound]

theorem fSign_fdiv {x y : F} (hx : fIsFinite x = true) (hy : fIsFinite y = true) (h0 : fIsZero y = false) :
    fSign (fdiv x y) = (fSign x != fSign y) := by
  rw [fdiv_finite hx hy h0, fSign_fRound]

/-- A rounded integer is its own sign times the rounded magnitude. -/
theorem fVal_fRoundInt (z : Bool) (v : Int) : fVal (fRoundInt z v) = signed (v < 0) (magOf (roundBits v.natAbs 1)) := by
  unfold fRoundInt
  split
  · next h =>
    subst h
    cases z <;> decide
  · rw [fVal_eq_signed, fSign_fRound, fMag_fRound]

theorem fVal_fRoundInt_le {v w : Int} (h : v ≤ w) (z z' : Bool) : fVal (fRoundInt z v) ≤ fVal (fRoundInt z' w) := by
  have mono {m n : Nat} (hmn : m ≤ n) : magOf (roundBits m 1) ≤ magOf (roundBits n 1) :=
    magOf_mono (roundBits_mono Nat.one_pos Nat.one_pos (Nat.mul_le_mul_right 1 hmn))
  rw [fVal_fRoundInt, fVal_fRoundInt]
  by_cases hv : v < 0
  · by_cases hw : w < 0
    · have := mono (show w.natAbs ≤ v.natAbs by omega)
      simp only [signed, hv, hw, decide_true, if_true]
      omega
    · simp only [signed, hv, hw, decide_true, decide_false, if_true, Bool.false_eq_true, if_false]
      omega
  · have := mono (show v.natAbs ≤ w.natAbs by omega)
    simp only [signed, hv, show ¬ w < 0 by omega, decide_false, Bool.false_eq_true, if_false]
    exact_mod_cast this

theorem fVal_fadd_le {x y c : F} (hx : fIsFinite x = true) (hy : fIsFinite y = true) (hc : fIsFinite c = true)
    (h : fVal x ≤ fVal y) : fVal (fadd x c) ≤ fVal (fadd y c) := by
  rw [fadd_finite hx hc, fadd_finite hy hc]
  exact fVal_fRoundInt_le (add_le_add_left h _) _ _

theorem fVal_fsub_le {x y c : F} (hx : fIsFinite x = true) (hy : fIsFinite y = true) (hc : fIsFinite c = true)
    (h : fVal x ≤ fVal y) : fVal (fsub x c) ≤ fVal (fsub y c) := by
  rw [fsub_finite hx hc, fsub_finite hy hc]
  exact fVal_fRoundInt_le (sub_le_sub_right h _) _ _

theorem ceil?_of_finite {x : F} (h : fIsFinite x = true) : ∃ z, ceil? x = some z := by
  obtain ⟨z, hz, -⟩ := (ceilIsLeastIntegerNotBelow x).1 h
  exact ⟨z, hz⟩

theorem ceil?_eq_none {x : F} (h : fIsFinite x = false) : ceil? x = none := (ceilIsLeastIntegerNotBelow x).2 h

/-- The least integer not below a smaller value is no larger. -/
theorem ceil?_le {x y : F} {a b : Int} (hx : fIsFinite x = true) (hy : fIsFinite y = true) (ha : ceil? x = some a)
    (hb : ceil? y = some b) (h : fVal x ≤ fVal y) : a ≤ b := by
  obtain ⟨a', ha', -, hlow⟩ := (ceilIsLeastIntegerNotBelow x).1 hx
  obtain ⟨b', hb', hup, -⟩ := (ceilIsLeastIntegerNotBelow y).1 hy
  obtain rfl := Option.some.inj (ha.symm.trans ha')
  obtain rfl := Option.some.inj (hb.symm.trans hb')
  have hu : (0 : Int) < fUnit := by exact_mod_cast fUnit_pos
  have := lt_of_mul_lt_mul_right (hlow.trans_le (h.trans hup)) hu.le
  omega

end Sys2Proof.Machine
end

section
/-! PROOFS. The code of an angle and its reconstruction (43_angle_quantizer.md R150 to R159). The affine transform is monotone under
the roundings, so on the affine path its ceiling is at most the ceiling at the maximum threshold, which is `KMax`. -/

namespace Sys2Proof.Machine

/-! ### The constants -/

/-- Settles O48: each threshold evaluates to the pattern of the table. -/
theorem thresholdTables : Obligations.ThresholdTables := by
  unfold Obligations.ThresholdTables
  decide +kernel

theorem kMax_le (t : Tag) {bw : Nat} (h1 : 1 ≤ bw) (h4 : bw ≤ 4) : kMax t bw ≤ 63 := by
  revert bw
  cases t <;> decide

theorem i2f_quantA {bw : Nat} (h4 : bw ≤ 4) : fIsFinite (i2f (quantA bw)) = true ∧ fSign (i2f (quantA bw)) = false ∧
    fIsZero (i2f (quantA bw)) = false := by
  revert bw
  decide +kernel

theorem thrMin_num_nonneg {bw : Nat} (h1 : 1 ≤ bw) (h4 : bw ≤ 4) : fIsNaN (thrMin bw) = false ∧ 0 ≤ fVal (thrMin bw) := by
  revert bw
  decide +kernel

theorem thrMax_finite_pos (t : Tag) {bw : Nat} (h1 : 1 ≤ bw) (h4 : bw ≤ 4) :
    fIsFinite (thrMax t bw) = true ∧ fSign (thrMax t bw) = false := by
  revert bw
  cases t <;> decide +kernel

/-- The thresholds are in order but for tag PSI at bit width 1 (R156). -/
theorem fle_thrMax_thrMin {t : Tag} {bw : Nat} (h1 : 1 ≤ bw) (h4 : bw ≤ 4) (h : ¬ (t = .psi ∧ bw = 1)) :
    fle (thrMax t bw) (thrMin bw) = false := by
  revert bw
  cases t <;> decide +kernel

/-! ### The affine path -/

/-- `x * a / pi`, the quotient in the affine transform (R157). -/
def affineQuot (x : F) (bw : Nat) : F := fdiv (fmul x (i2f (quantA bw))) fPi

theorem affineArg_eq (x : F) (bw : Nat) : affineArg x bw = fsub (affineQuot x bw) fOne := rfl

/-- The transform of the maximum threshold overflows nowhere, and its ceiling is `KMax`. -/
theorem affine_thrMax (t : Tag) {bw : Nat} (h1 : 1 ≤ bw) (h4 : bw ≤ 4) :
    fIsFinite (fmul (thrMax t bw) (i2f (quantA bw))) = true ∧ fIsFinite (affineQuot (thrMax t bw) bw) = true ∧
      fIsFinite (affineArg (thrMax t bw) bw) = true ∧ ceil? (affineArg (thrMax t bw) bw) = some (kMax t bw : Int) := by
  revert bw
  cases t <;> decide +kernel

section
variable {x y : F} {bw : Nat} (h4 : bw ≤ 4)
include h4

theorem fSign_affineQuot (hx : fIsFinite x = true) (hs : fSign x = false) (hm : fIsFinite (fmul x (i2f (quantA bw))) = true) :
    fSign (affineQuot x bw) = false := by
  obtain ⟨hafin, hasign, -⟩ := i2f_quantA h4
  rw [affineQuot, fSign_fdiv hm (by decide) (by decide), fSign_fmul hx hafin, hs, hasign]
  decide

/-- The transform is monotone on non-negative angles up to one at which it is finite. -/
theorem affineArg_le (hx : fSign x = false) (hy : fSign y = false) (hfin : fIsFinite y = true)
    (hmul : fIsFinite (fmul y (i2f (quantA bw))) = true) (hquot : fIsFinite (affineQuot y bw) = true)
    (harg : fIsFinite (affineArg y bw) = true) (h : fVal x ≤ fVal y) :
    fIsFinite (affineArg x bw) = true ∧ fVal (affineArg x bw) ≤ fVal (affineArg y bw) := by
  have hbits := fBits_le_of_fVal_le hx hy h
  have hmulBits := fBits_fmul_le hfin (i2f_quantA h4).1 hbits
  have hquotBits : fBits (affineQuot x bw) ≤ fBits (affineQuot y bw) := fBits_fdiv_le hmul (by decide) (by decide) hmulBits
  have hfinx := fIsFinite_of_fBits_le hfin hbits
  have hmulx := fIsFinite_of_fBits_le hmul hmulBits
  have hquotx := fIsFinite_of_fBits_le hquot hquotBits
  have hsx := fSign_affineQuot h4 hfinx hx hmulx
  have hsy := fSign_affineQuot h4 hfin hy hmul
  have hone : fIsFinite fOne = true := by decide
  have hupper : fVal (affineArg x bw) ≤ fVal (affineArg y bw) := fVal_fsub_le hquotx hquot hone (fVal_le_of_fBits_le hsx hsy hquotBits)
  have hlower : fVal (fsub fPosZero fOne) ≤ fVal (affineArg x bw) :=
    fVal_fsub_le (by decide) hquotx hone (fVal_le_of_fBits_le (by decide) hsx (Nat.zero_le _))
  have hnum : fIsNaN (affineArg x bw) = false := by
    rw [affineArg_eq, fsub_finite hquotx hone]
    exact fIsNaN_fRoundInt _ _
  exact ⟨fIsFinite_of_between hnum (by decide +kernel) harg hlower hupper, hupper⟩

end

/-- Strictly between zero and the maximum threshold the transform has a ceiling, and it is at most `KMax`. -/
theorem ceil?_affineArg_le {x : F} {t : Tag} {bw : Nat} (h1 : 1 ≤ bw) (h4 : bw ≤ 4) (hx : fSign x = false)
    (h : fVal x ≤ fVal (thrMax t bw)) : ∃ z, ceil? (affineArg x bw) = some z ∧ z ≤ kMax t bw := by
  obtain ⟨hfin, hs⟩ := thrMax_finite_pos t h1 h4
  obtain ⟨hmul, hquot, harg, hceil⟩ := affine_thrMax t h1 h4
  obtain ⟨hargx, hle⟩ := affineArg_le h4 hx hs hfin hmul hquot harg h
  obtain ⟨z, hz⟩ := ceil?_of_finite hargx
  exact ⟨z, hz, ceil?_le hargx harg hz hceil hle⟩

/-! ### The three clauses of QUANT's code (R150) -/

section
variable {x : F} {t : Tag} {bw : Nat}

theorem quantize?_below (h : fle x (thrMin bw) = true) : quantize? x t bw = some 0 := if_pos h

theorem quantize?_above (hmin : fle x (thrMin bw) = false) (hmax : fle (thrMax t bw) x = true) :
    quantize? x t bw = some (kMax t bw) := by
  rw [quantize?, if_neg (Bool.eq_false_iff.mp hmin), if_pos hmax]

/-- Between the thresholds the code is the ceiling of the transform, at least 0 (log 14). -/
theorem quantize?_between (h1 : 1 ≤ bw) (h4 : bw ≤ 4) (hx : fIsNaN x = false) (hmin : fle x (thrMin bw) = false)
    (hmax : fle (thrMax t bw) x = false) :
    ∃ z : Int, ceil? (affineArg x bw) = some z ∧ z ≤ kMax t bw ∧ quantize? x t bw = some z.toNat := by
  obtain ⟨hnum, hnonneg⟩ := thrMin_num_nonneg h1 h4
  have hlow := (fle_eq_false_iff hx hnum).mp hmin
  have hhigh := (fle_eq_false_iff (fIsNaN_of_finite (thrMax_finite_pos t h1 h4).1) hx).mp hmax
  have hs : fSign x = false := by
    by_contra hneg
    have := fVal_nonpos_of_neg (Bool.not_eq_false _ ▸ hneg)
    omega
  obtain ⟨z, hz, hle⟩ := ceil?_affineArg_le h1 h4 hs hhigh.le
  refine ⟨z, hz, hle, ?_⟩
  rw [quantize?, if_neg (Bool.eq_false_iff.mp hmin), if_neg (Bool.eq_false_iff.mp hmax), affine?, hz, Option.map_some]

/-- Every angle that is no NaN has a code, and it is at most `KMax` (R159 g). -/
theorem quantize?_le_kMax (h1 : 1 ≤ bw) (h4 : bw ≤ 4) (hx : fIsNaN x = false) : ∃ k, quantize? x t bw = some k ∧ k ≤ kMax t bw := by
  cases hmin : fle x (thrMin bw) with
  | true => exact ⟨0, quantize?_below hmin, Nat.zero_le _⟩
  | false =>
    cases hmax : fle (thrMax t bw) x with
    | true => exact ⟨_, quantize?_above hmin hmax, le_rfl⟩
    | false =>
      obtain ⟨z, -, hle, hq⟩ := quantize?_between h1 h4 hx hmin hmax
      exact ⟨z.toNat, hq, Int.toNat_le.mpr hle⟩

theorem quantize?_of_nonpos (h1 : 1 ≤ bw) (h4 : bw ≤ 4) (hx : fIsNaN x = false) (h : fVal x ≤ 0) : quantize? x t bw = some 0 := by
  obtain ⟨hnum, hnonneg⟩ := thrMin_num_nonneg h1 h4
  exact quantize?_below (fle_iff.mpr ⟨hx, hnum, h.trans hnonneg⟩)

theorem quantize?_posInf (h1 : 1 ≤ bw) (h4 : bw ≤ 4) : quantize? 0x7FF0000000000000#64 t bw = some (kMax t bw) := by
  revert bw
  cases t <;> decide +kernel

/-- A NaN has no code (R159 f). -/
theorem quantize?_of_nan (hx : fIsNaN x = true) : quantize? x t bw = none := by
  have hmin : ¬ fle x (thrMin bw) = true := by simp [fle_iff, hx]
  have hmax : ¬ fle (thrMax t bw) x = true := by simp [fle_iff, hx]
  have hmul : fIsNaN (fmul x (i2f (quantA bw))) = true := (fIsNaN_fmul_iff _ _).mpr (Or.inl hx)
  have hquot : fIsNaN (affineQuot x bw) = true := (fIsNaN_fdiv_iff _ _).mpr (Or.inl hmul)
  have harg : fIsNaN (affineArg x bw) = true := (fIsNaN_fsub_iff _ _).mpr (Or.inl hquot)
  have hfin : fIsFinite (affineArg x bw) = false := by
    by_contra hf
    simp [fIsNaN_of_finite (Bool.not_eq_false _ ▸ hf)] at harg
  rw [quantize?, if_neg hmin, if_neg hmax, affine?, ceil?_eq_none hfin, Option.map_none]

end

/-- Settles O43: the bound holds under each clause, on the affine path because the transform is monotone. -/
theorem codesNeverExceedKMax : Obligations.CodesNeverExceedKMax := fun _ _ hx h1 h4 =>
  ⟨quantize?_le_kMax (t := .psi) h1 h4 hx, quantize?_le_kMax (t := .phi) h1 h4 hx⟩

/-- Settles O44: each corner case falls under the clause of the minimum threshold or that of the maximum. -/
theorem quantCornerCases : Obligations.QuantCornerCases := by
  intro t bw h1 h4 top
  have htop : top = kMax t bw := rfl
  rw [htop]
  have hneg : ∀ x : F, fIsNaN x = false → fSign x = true → quantize? x t bw = some 0 := fun x hx hs =>
    quantize?_of_nonpos h1 h4 hx (fVal_nonpos_of_neg hs)
  refine ⟨fun x hz => quantize?_of_nonpos h1 h4 (fIsNaN_of_finite (fIsFinite_of_zero hz)) (fVal_of_zero hz).le, hneg,
    quantize?_below (fle_self (thrMin_num_nonneg h1 h4).1), fun hne => ?_, quantize?_posInf h1 h4, hneg _ (by decide) (by decide)⟩
  exact quantize?_above (fle_thrMax_thrMin h1 h4 hne) (fle_self (fIsNaN_of_finite (thrMax_finite_pos t h1 h4).1))

/-- Settles O49: the minimum threshold is `PI`, and above it lies the maximum, too. -/
theorem widthOnePsiHasTwoCodes : Obligations.WidthOnePsiHasTwoCodes := by
  intro x hx
  have hmin : thrMin 1 = fPi := thresholdTables.1
  have hcross : fVal (thrMax .psi 1) ≤ fVal fPi := by decide +kernel
  rw [← hmin] at hcross ⊢
  refine ⟨quantize?_below, fun h => quantize?_above h ?_⟩
  have hlt := (fle_eq_false_iff hx (thrMin_num_nonneg le_rfl (by norm_num)).1).mp h
  exact fle_iff.mpr ⟨fIsNaN_of_finite (thrMax_finite_pos .psi le_rfl (by norm_num)).1, hx, hcross.trans hlt.le⟩

/-! ### Reconstructions -/

/-- `k * pi / a`, the part of the reconstruction that depends on the code (R158). -/
def invQuot (k bw : Nat) : F := fdiv (fmul (i2f k) fPi) (i2f (quantA bw))

theorem inv_eq (k bw : Nat) : inv k bw = fadd (invQuot k bw) (fdiv fPi (i2f (quantB bw))) := rfl

theorem fSign_i2f_nat (n : Nat) : fSign (i2f n) = false := by
  unfold i2f fRoundInt
  split
  · exact fSign_fZero _
  · rw [fSign_fRound, decide_eq_false_iff_not, not_lt]
    exact mul_nonneg (Int.natCast_nonneg n) (Int.natCast_nonneg fUnit)

/-- The reconstruction of the largest code overflows nowhere. -/
theorem invQuot_largest {bw : Nat} (h4 : bw ≤ 4) : fIsFinite (fmul (i2f (63 : Nat)) fPi) = true ∧
    fIsFinite (invQuot 63 bw) = true ∧ fIsFinite (fdiv fPi (i2f (quantB bw))) = true := by
  revert bw
  decide +kernel

section
variable {m n bw : Nat} (hn : n ≤ 63)
include hn

theorem i2f_code : fIsFinite (i2f n) = true ∧ fVal (i2f n) = n * fUnit := i2f_exact (by omega)

theorem fBits_i2f_mul_fPi_le (h : m ≤ n) : fBits (fmul (i2f m) fPi) ≤ fBits (fmul (i2f n) fPi) := by
  refine fBits_fmul_le (i2f_code hn).1 (by decide) (fBits_le_of_fVal_le (fSign_i2f_nat m) (fSign_i2f_nat n) ?_)
  rw [(i2f_code (h.trans hn)).2, (i2f_code hn).2]
  exact mul_le_mul_of_nonneg_right (by exact_mod_cast h) (by positivity)

theorem fIsFinite_i2f_mul_fPi : fIsFinite (fmul (i2f n) fPi) = true :=
  fIsFinite_of_fBits_le (invQuot_largest (Nat.zero_le 4)).1 (fBits_i2f_mul_fPi_le le_rfl hn)

variable (h4 : bw ≤ 4)
include h4

theorem fBits_invQuot_le (h : m ≤ n) : fBits (invQuot m bw) ≤ fBits (invQuot n bw) := by
  obtain ⟨hafin, -, ha0⟩ := i2f_quantA h4
  exact fBits_fdiv_le (fIsFinite_i2f_mul_fPi hn) hafin ha0 (fBits_i2f_mul_fPi_le hn h)

theorem invQuot_finite_pos : fIsFinite (invQuot n bw) = true ∧ fSign (invQuot n bw) = false := by
  obtain ⟨hafin, hasign, ha0⟩ := i2f_quantA h4
  refine ⟨fIsFinite_of_fBits_le (invQuot_largest h4).2.1 (fBits_invQuot_le le_rfl h4 hn), ?_⟩
  rw [invQuot, fSign_fdiv (fIsFinite_i2f_mul_fPi hn) hafin ha0, fSign_fmul (i2f_code hn).1 (by decide), fSign_i2f_nat, hasign]
  decide

theorem fIsNaN_inv : fIsNaN (inv n bw) = false := by
  rw [inv_eq, fadd_finite (invQuot_finite_pos hn h4).1 (invQuot_largest h4).2.2]
  exact fIsNaN_fRoundInt _ _

/-- Reconstructions grow with their codes. -/
theorem inv_le (h : m ≤ n) : fle (inv m bw) (inv n bw) = true := by
  obtain ⟨hfinm, hsm⟩ := invQuot_finite_pos (h.trans hn) h4
  obtain ⟨hfinn, hsn⟩ := invQuot_finite_pos hn h4
  refine fle_iff.mpr ⟨fIsNaN_inv (h.trans hn) h4, fIsNaN_inv hn h4, ?_⟩
  exact fVal_fadd_le hfinm hfinn (invQuot_largest h4).2.2 (fVal_le_of_fBits_le hsm hsn (fBits_invQuot_le hn h4 h))

end

/-- Settles O45: the code is at most `KMax` and reconstructions grow with their codes. -/
theorem reconstructionStaysWithinBounds : Obligations.ReconstructionStaysWithinBounds := by
  intro x t bw k h1 h4 hx hq
  obtain ⟨k', hq', hle⟩ := quantize?_le_kMax (t := t) h1 h4 hx
  obtain rfl := Option.some.inj (hq.symm.trans hq')
  have hmax := kMax_le t h1 h4
  exact ⟨inv_le (hle.trans hmax) h4 (Nat.zero_le k), inv_le hmax h4 hle⟩

end Sys2Proof.Machine
end

section
/-! PROOFS. QUANT and DEQUANT as commands (43_angle_quantizer.md R150 to R152, R158 to R160). -/

namespace Sys2Proof.Machine

/-- Settles O42: the clause an angle falls under gives its code, and QUANT of an angle with a code writes it. -/
theorem quantWritesCodeAndReconstruction : Obligations.QuantWritesCodeAndReconstruction := by
  intro sc i bw s hs hi t hrun h1 h4 htag hx b x rebuilt top written
  have hmin_eq : fdiv fPi (i2f (b ^ 2 ^ (b + 2) : Nat)) = thrMin b := rfl
  have hmax_eq : rebuilt top = thrMax t b := rfl
  have hexec {k : Nat} (hq : quantize? x t b = some k) : exec (.quant sc i bw) s = written k :=
    exec_quant_some hs hi hrun h1 h4 htag hq
  rw [hmin_eq, hmax_eq]
  split
  · next hmin => exact hexec (quantize?_below hmin)
  · next hmin =>
    rw [Bool.not_eq_true] at hmin
    split
    · next hmax => exact hexec (quantize?_above hmin hmax)
    · next hmax =>
      obtain ⟨z, hz, -, hq⟩ := quantize?_between h1 h4 hx hmin (Bool.eq_false_iff.mpr hmax)
      exact ⟨z, hz, hexec hq⟩

/-- Settles O46: a NaN has no code, so QUANT writes free values. -/
theorem quantOfNaNCompletes : Obligations.QuantOfNaNCompletes := fun _ _ _ _ hs hi _ hrun h1 h4 htag hx =>
  ⟨_, _, exec_quant_none hs hi hrun h1 h4 htag (quantize?_of_nan hx)⟩

/-! ### The checks -/

theorem withTag_of_illegal {b : BitVec 2} (h : b = 0#2 ∨ b = 3#2) (f : Tag → Effect) : withTag b f = .raise .invalidAngleTag := by
  rw [withTag, tagOf?_eq_none.mpr h]

theorem command_withCell_of_raise {sc : BitVec 5} {i : BitVec 3} {s : State} (hs : sc.toNat < 30) (hi : i.toNat < 6)
    (hrun : s.run = .ready) (j : Instr) {f : Fin 30 → Fin 6 → Effect} {k : ErrKind}
    (he : f ⟨sc.toNat, hs⟩ ⟨i.toNat, hi⟩ = .raise k) : command j s (withCell sc i f) = .next (s.raise k (encode j)) := by
  rw [command, withCell_of_lt hs hi, he, issueEffect_raise hrun]

/-- Settles O47: both bodies check the bit width around everything else, and the tag within it. -/
theorem quantChecksWidthThenTag : Obligations.QuantChecksWidthThenTag := by
  intro sc i bw s hs hi hrun j hj
  have hraise {f : Fin 30 → Fin 6 → Effect} {k : ErrKind} := command_withCell_of_raise hs hi hrun j (f := f) (k := k)
  rcases hj with rfl | rfl
  · exact ⟨fun hbw => hraise (withBitWidth_of_illegal hbw _),
      fun h1 h4 htag => hraise ((withBitWidth_of_legal h1 h4 _).trans (withTag_of_illegal htag _))⟩
  · exact ⟨fun hbw => hraise (withBitWidth_of_illegal hbw _),
      fun h1 h4 htag => hraise ((withBitWidth_of_legal h1 h4 _).trans (withTag_of_illegal htag _))⟩

/-! ### DEQUANT -/

/-- Settles O50: DEQUANT writes the reconstruction of whatever code the cell holds. -/
theorem dequantReconstructsAnyCode : Obligations.DequantReconstructsAnyCode := fun _ _ _ _ hs hi _ hrun h1 h4 htag =>
  exec_dequant hs hi hrun h1 h4 htag

theorem setCell_cell_self {α : Type} (t : Vector (Vector α 6) 30) (k : Fin 30) (i : Fin 6) : setCell t k i (cell t k i) = t := by
  simp [setCell, cell]

theorem recon_writeQuantized (k : Fin 30) (i : Fin 6) {c : Nat} (hc : c ≤ 63) (n : Nat) (s : State) :
    cell (s.writeQuantized k i c n).recon k i = inv (cell (s.writeQuantized k i c n).code k i).toNat n := by
  rw [State.writeQuantized_recon, State.writeQuantized_code, cell_setCell_same, cell_setCell_same, toNat_ofNat_of_lt (by omega)]

/-- QUANT of an angle that is no NaN, if it raises nothing, leaves the reconstruction of the code it leaves (R158). -/
theorem exec_quant_ready {sc : BitVec 5} {i : BitVec 3} {bw : BitVec 4} {s t : State} (hs : sc.toNat < 30) (hi : i.toNat < 6)
    (hx : fIsNaN s.ang[sc.toNat][i.toNat] = false) (h : exec (.quant sc i bw) s = .next t) (ht : t.run = .ready) :
    1 ≤ bw.toNat ∧ bw.toNat ≤ 4 ∧ (∃ tag : Tag, t.tag[sc.toNat][i.toNat] = tag.bits) ∧
      cell t.recon ⟨sc.toNat, hs⟩ ⟨i.toNat, hi⟩ = inv (t.code[sc.toNat][i.toNat]).toNat bw.toNat := by
  rcases issueEffect_next h with ⟨hrun, rfl⟩ | ⟨-, hdone⟩ | ⟨-, k, -, rfl⟩
  · rw [hrun] at ht
    cases ht
  · rw [withCell_of_lt hs hi] at hdone
    obtain ⟨tag, h1, h4, htag, hcode⟩ := quantEffect_done hdone
    obtain ⟨c, hq, hle⟩ := quantize?_le_kMax (t := tag) h1 h4 hx
    rcases hcode with ⟨c', hq', rfl⟩ | ⟨hq', -⟩
    · obtain rfl := Option.some.inj (hq.symm.trans hq')
      exact ⟨h1, h4, ⟨tag, htag⟩, recon_writeQuantized _ _ (hle.trans (kMax_le tag h1 h4)) _ _⟩
    · cases hq.symm.trans hq'
  · cases ht

/-- Settles O51: DEQUANT writes what the cell already holds. -/
theorem dequantAfterQuantChangesNothing : Obligations.DequantAfterQuantChangesNothing := by
  intro sc i bw s t hs hi hx h hrun
  obtain ⟨h1, h4, ⟨tag, htag⟩, hrecon⟩ := exec_quant_ready hs hi hx h hrun
  rw [exec_dequant hs hi hrun h1 h4 htag, ← hrecon, setCell_cell_self]

end Sys2Proof.Machine
end

section
/-! PROOFS. PACK and UNPACK (44_bit_codec.md R170 to R184): the widths list, the two loops as inverses, and the obligations about
the two commands. -/

namespace Sys2Proof.Machine

/-! ### The widths list (R173) -/

theorem fieldWidth_le (t : Tag) {bw : Nat} (h4 : bw ≤ 4) : fieldWidth t bw ≤ 6 := by
  cases t <;> simp only [fieldWidth] <;> omega

theorem ofFn_fieldWidth_le (tags : Fin 6 → Tag) {bw : Nat} (h4 : bw ≤ 4) (i : Fin 6) :
    (Vector.ofFn fun i => fieldWidth (tags i) bw)[i] ≤ 6 := by
  rw [Fin.getElem_fin, Vector.getElem_ofFn]
  exact fieldWidth_le _ h4

theorem getElem_widthsList (wd : Vector Nat 6) (j : Fin 6) : (widthsList wd)[j] = BitVec.ofNat 3 wd[j.rev] :=
  Vector.getElem_ofFn _

/-- The widths list read backwards is the widths in slot order. -/
theorem toNat_widthsList_rev {wd : Vector Nat 6} {i : Fin 6} (h : wd[i] ≤ 6) : ((widthsList wd)[i.rev]).toNat = wd[i] := by
  simp only [getElem_widthsList, Fin.rev_rev]
  exact toNat_ofNat_of_lt (by omega)

/-- A cell of `PKW` whose fields are the widths in the reverse of slot order is the widths list. -/
theorem eq_widthsList {w : Vector (BitVec 3) 6} {wd : Vector Nat 6} (h : ∀ j : Fin 6, (w[j]).toNat = wd[j.rev]) :
    w = widthsList wd := by
  ext1 j hj
  rw [widthsList, Vector.getElem_ofFn, ← h ⟨j, hj⟩, BitVec.ofNat_toNat, BitVec.setWidth_eq]
  rfl

/-! ### The two loops (R171, R180) are inverses -/

/-- A field joined below an integer is shifted out again. -/
theorem shiftLeft_add_shiftRight {c w : Nat} (a : Nat) (h : c < 2 ^ w) : (a <<< w + c) >>> w = a := by
  rw [Nat.shiftLeft_eq, Nat.shiftRight_eq_div_pow, Nat.mul_comm, Nat.mul_add_div (by positivity), Nat.div_eq_of_lt h, Nat.add_zero]

/-- A field joined below an integer is what its width masks. -/
theorem shiftLeft_add_mod {c w : Nat} (a : Nat) (h : c < 2 ^ w) : (a <<< w + c) % 2 ^ w = c := by
  rw [Nat.shiftLeft_eq, Nat.mul_add_mod_of_lt h]

/-- What a width masks and what is above it join to the integer. -/
theorem shiftRight_shiftLeft_add_mod (v w : Nat) : (v >>> w) <<< w + v % 2 ^ w = v := by
  rw [Nat.shiftLeft_eq, Nat.shiftRight_eq_div_pow, Nat.div_add_mod']

/-- A cell of `CODE` keeps a field of at most six bits whole. -/
theorem toNat_field {w : Nat} (v : Nat) (h : w ≤ 6) : (BitVec.ofNat 6 (v % 2 ^ w)).toNat = v % 2 ^ w :=
  toNat_ofNat_of_lt (lt_of_lt_of_le (Nat.mod_lt v (by positivity)) (Nat.pow_le_pow_right (by norm_num) h))

/-- Six codes that fit their widths are unpacked from the integer they were packed into, whatever was in the cell (R183). -/
theorem unpackLoop_packLoop {wd : Vector Nat 6} {cd : Vector (BitVec 6) 6} (hw : ∀ i : Fin 6, wd[i] ≤ 6)
    (hc : ∀ i : Fin 6, (cd[i]).toNat < 2 ^ wd[i]) (old : Vector (BitVec 6) 6) :
    unpackLoop (widthsList wd) (packLoop wd cd) old = cd := by
  simp only [unpackLoop, packLoop, List.foldl, unpackStep, toNat_widthsList_rev (hw _), shiftLeft_add_shiftRight _ (hc _),
    shiftLeft_add_mod _ (hc _), BitVec.ofNat_toNat, BitVec.setWidth_eq]
  ext1 i hi
  interval_cases i <;> simp

/-- An integer that fits the sum of the widths is packed again from the codes it was unpacked into (R183): what is left for the last
slot fits its width, so the mask there drops nothing. -/
theorem packLoop_unpackLoop {wd : Vector Nat 6} {v : Nat} (hw : ∀ i : Fin 6, wd[i] ≤ 6)
    (hv : v < 2 ^ ∑ i : Fin 6, wd[i]) (old : Vector (BitVec 6) 6) :
    packLoop wd (unpackLoop (widthsList wd) v old) = v := by
  have hle (i : Nat) (hi : i < 6) : wd[i] ≤ 6 := hw ⟨i, hi⟩
  have hlast : v >>> wd[0] >>> wd[1] >>> wd[2] >>> wd[3] >>> wd[4] < 2 ^ wd[5] := by
    rw [Fin.sum_univ_six, pow_add] at hv
    simp only [Nat.shiftRight_eq_div_pow, Nat.div_div_eq_div_mul, ← pow_add]
    exact Nat.div_lt_of_lt_mul hv
  have hcell := toNat_field (v >>> wd[0] >>> wd[1] >>> wd[2] >>> wd[3] >>> wd[4]) (hle 5 (by decide))
  rw [Nat.mod_eq_of_lt hlast] at hcell
  simp only [packLoop, unpackLoop, List.foldl, unpackStep, toNat_widthsList_rev (hw _)]
  simp [-BitVec.toNat_ofNat, Nat.mod_eq_of_lt hlast, hcell, toNat_field _ (hle _ _), shiftRight_shiftLeft_add_mod]

/-! ### The commands -/

/-- Settles O52: the closed form of PACK's loop fits the 36 bits of `PKI`. -/
theorem packJoinsCodes : Obligations.PackJoinsCodes := by
  intro sc bw s hs tags hrun h1 h4 htag wd c
  have hle (i : Fin 6) : (Vector.ofFn wd)[i] ≤ 6 := ofFn_fieldWidth_le tags h4 i
  refine ⟨BitVec.ofNat 36 (packLoop (Vector.ofFn wd) s.code[sc.toNat]), ?_, exec_pack hs hrun h1 h4 htag⟩
  rw [toNat_ofNat_of_lt (packLoop_lt _ _ hle), packLoop_eq]
  simp only [Vector.getElem_ofFn]
  rfl

/-- PACK of cells that do not all hold tags raises `InvalidAngleTag` (R174). -/
theorem packEffect_of_noTag {k : Fin 30} {bw : BitVec 4} {s : State} (h1 : 1 ≤ bw.toNat) (h4 : bw.toNat ≤ 4) {i : Fin 6}
    (h : tagOf? s.tag[k][i] = none) : packEffect k bw s = .raise .invalidAngleTag := by
  rw [packEffect, withBitWidth_of_legal h1 h4, tagsOf?_eq_none i h]

theorem exec_pack_of_raise {sc : BitVec 5} {bw : BitVec 4} {s : State} {k : ErrKind} (hs : sc.toNat < 30) (hrun : s.run = .ready)
    (he : packEffect ⟨sc.toNat, hs⟩ bw s = .raise k) : exec (.pack sc bw) s = .next (s.raise k (encode (.pack sc bw))) := by
  show issueEffect _ _ _ = _
  rw [withSubcarrier_of_lt hs, he, issueEffect_raise hrun]

/-- Settles O53: the bit width is checked around everything else, and one cell without a tag is enough. -/
theorem packChecksWidthThenTags : Obligations.PackChecksWidthThenTags := by
  intro sc bw s hs hrun
  refine ⟨fun hbw => ?_, fun h1 h4 ⟨i, htag⟩ => ?_⟩
  · exact exec_pack_of_raise hs hrun (withBitWidth_of_illegal hbw _)
  · exact exec_pack_of_raise hs hrun (packEffect_of_noTag h1 h4 (tagOf?_eq_none.mpr htag))

/-- Settles O54, by the closed form of UNPACK's loop. -/
theorem unpackSplitsInteger : Obligations.UnpackSplitsInteger := by
  intro sc s hs hrun wv field
  have hfirst : field 0 0 = BitVec.ofNat 6 ((s.pki[sc.toNat]).toNat % 2 ^ wv 0) := by
    simp only [field, pow_zero, Nat.div_one]
  rw [exec_unpack hs hrun, unpackLoop_eq, hfirst]
  rfl

/-- Settles O55: in both directions the second command reads what the first left, and the loops are inverses. -/
theorem packAndUnpackAreInverse : Obligations.PackAndUnpackAreInverse := by
  intro sc bw s hs tags hrun h1 h4 htag wd
  have hget (i : Fin 6) : (Vector.ofFn wd)[i] = wd i := Vector.getElem_ofFn _
  have hle (i : Fin 6) : (Vector.ofFn wd)[i] ≤ 6 := ofFn_fieldWidth_le tags h4 i
  refine ⟨fun hcodes => ?_, fun hlist hint => ?_⟩
  · refine ⟨_, exec_pack hs hrun h1 h4 htag, hrun, fun t' hrun' hpkw hpki => ⟨_, exec_unpack hs hrun', hrun', ?_⟩⟩
    have hn : (t'.pki[sc.toNat]).toNat = packLoop (Vector.ofFn wd) s.code[sc.toNat] := by
      rw [hpki, Vector.getElem_set_self]
      exact toNat_ofNat_of_lt (packLoop_lt _ _ hle)
    rw [Vector.getElem_set_self, hn, hpkw, Vector.getElem_set_self]
    exact unpackLoop_packLoop hle (fun i => (hget i).symm ▸ hcodes i) _
  · refine ⟨_, exec_unpack hs hrun, hrun, rfl, fun t' hrun' hcode htag' =>
      ⟨_, exec_pack hs hrun' h1 h4 (htag' ▸ htag), hrun', ?_⟩⟩
    have hpkw : s.pkw[sc.toNat] = widthsList (Vector.ofFn wd) := eq_widthsList fun j => (hlist j).trans (hget _).symm
    have hn : packLoop (Vector.ofFn wd) t'.code[sc.toNat] = (s.pki[sc.toNat]).toNat := by
      rw [hcode, Vector.getElem_set_self, hpkw]
      exact packLoop_unpackLoop hle (by simpa only [hget, Fin.sum_univ_six] using hint) _
    rw [Vector.getElem_set_self, Vector.getElem_set_self, hpkw]
    exact ⟨(congrArg (BitVec.ofNat 36) hn).trans (by simp), rfl⟩

end Sys2Proof.Machine
end

section
/-! PROOFS. A READY block and the errors it can enter, a FAULTED block and the way out of it (60_exceptions.md R191 to R201). -/

namespace Sys2Proof.Machine

/-! ### The body that a command word runs -/

/-- The body of a command, under the frame of `command`. -/
def bodyOf (i : Instr) (s : State) : Effect :=
  match i with
  | .hdr p => hdrEffect p s
  | .csix => csixEffect s
  | .decomp sc => withSubcarrier sc fun k => decompEffect k s
  | .quant sc i bw => withCell sc i fun k j => quantEffect k j bw s
  | .dequant sc i bw => withCell sc i fun k j => dequantEffect k j bw s
  | .pack sc bw => withSubcarrier sc fun k => packEffect k bw s
  | .unpack sc => withSubcarrier sc fun k => unpackEffect k s

theorem exec_eq_command (i : Instr) (s : State) : exec i s = command i s (bodyOf i s) := by
  cases i <;> rfl

/-- The body that issuing a word runs: an illegal word has one, too, that raises `IllegalCommand` (60_exceptions.md R192). -/
def issuedBody (w : CmdWord) (s : State) : Effect :=
  match decode w with
  | .ok i => bodyOf i s
  | .error _ => .raise .illegalCommand

theorem issuedBody_of_decode {w : CmdWord} {i : Instr} (h : decode w = .ok i) (s : State) : issuedBody w s = bodyOf i s := by
  rw [issuedBody, h]

theorem issuedBody_of_error {w : CmdWord} {d : DecodeError} (h : decode w = .error d) (s : State) :
    issuedBody w s = .raise .illegalCommand := by
  rw [issuedBody, h]

/-- Every word, legal or not, is issued in one frame, which carries the word itself (60_exceptions.md R194). -/
theorem issue_eq_issueEffect (w : CmdWord) (s : State) : issue w s = issueEffect w s (issuedBody w s) := by
  cases h : decode w with
  | error d => rw [issuedBody_of_error h, issue, h]
  | ok i =>
    obtain ⟨-, hw⟩ := encode_of_decode h
    rw [issue_of_decode h, exec_eq_command, command, hw, issuedBody_of_decode h]

theorem withSubcarrier_done {sc : BitVec 5} {f : Fin 30 → Effect} {t : State} (h : withSubcarrier sc f = .done t) :
    ∃ k, f k = .done t := by
  rcases withSubcarrier_cases sc f with ⟨k, -, e⟩ | e
  · exact ⟨k, e ▸ h⟩
  · cases e.symm.trans h

theorem withCell_done {sc : BitVec 5} {i : BitVec 3} {f : Fin 30 → Fin 6 → Effect} {t : State} (h : withCell sc i f = .done t) :
    ∃ k j, f k j = .done t := by
  rcases withCell_cases sc i f with ⟨k, j, -, e⟩ | e
  · exact ⟨k, j, e ▸ h⟩
  · cases e.symm.trans h

/-- A command that makes its writes leaves `RUN` as it is. -/
theorem bodyOf_done_run {i : Instr} {s t : State} (h : bodyOf i s = .done t) : t.run = s.run := by
  cases i with
  | hdr p => obtain ⟨hd, -, -, rfl⟩ := hdrEffect_done h; rfl
  | csix => obtain ⟨cur, csi, -, -, -, rfl⟩ := csixEffect_done h; rfl
  | decomp sc =>
    obtain ⟨k, h⟩ := withSubcarrier_done h
    obtain ⟨-, -, rfl⟩ := decompEffect_done h
    rfl
  | quant sc i bw =>
    obtain ⟨k, j, h⟩ := withCell_done h
    obtain ⟨tag, -, -, -, ⟨c, -, rfl⟩ | ⟨-, rfl⟩⟩ := quantEffect_done h <;> rfl
  | dequant sc i bw =>
    obtain ⟨k, j, h⟩ := withCell_done h
    rw [dequantEffect_done h]
  | pack sc bw =>
    obtain ⟨k, h⟩ := withSubcarrier_done h
    obtain ⟨tags, -, rfl⟩ := packEffect_done h
    rfl
  | unpack sc =>
    obtain ⟨k, h⟩ := withSubcarrier_done h
    cases h
    rfl

theorem issuedBody_done_run {w : CmdWord} {s t : State} (h : issuedBody w s = .done t) : t.run = s.run := by
  cases hd : decode w with
  | error d => cases (issuedBody_of_error hd s).symm.trans h
  | ok i => exact bodyOf_done_run ((issuedBody_of_decode hd s).symm.trans h)

/-! ### Fault entry -/

/-- Settles O10: writes leave a READY block READY, so a block that is FAULTED afterwards has entered the fault. -/
theorem faultEntryWritesOnlyStatus : Obligations.FaultEntryWritesOnlyStatus := by
  intro w s t hs h ht
  rw [issue_eq_issueEffect] at h
  rcases issueEffect_next h with ⟨hs', -⟩ | ⟨-, hdone⟩ | ⟨-, k, -, rfl⟩
  · cases hs.symm.trans hs'
  · cases (hs.symm.trans (issuedBody_done_run hdone).symm).trans ht
  · exact ⟨k, rfl⟩

theorem State.raise_inj {k k' : ErrKind} {w : CmdWord} {s : State} : s.raise k w = s.raise k' w ↔ k = k' :=
  ⟨fun h => Option.some.inj (congrArg State.err h), fun h => by rw [h]⟩

/-- A READY block enters the fault of a kind exactly when the body raises that kind. -/
theorem issue_eq_raise_iff {w : CmdWord} {s : State} (hs : s.run = .ready) (k : ErrKind) :
    issue w s = .next (s.raise k w) ↔ issuedBody w s = .raise k := by
  rw [issue_eq_issueEffect]
  cases he : issuedBody w s with
  | done t =>
    have ht : t ≠ s.raise k w := by
      rintro rfl
      cases hs.symm.trans (issuedBody_done_run he).symm
    simp [hs, ht]
  | raise k' => simp [hs, State.raise_inj]
  | unwritten => simp [hs]

/-! ### A FAULTED block -/

/-- Settles O9. -/
theorem blockWaitsWithoutAction : Obligations.BlockWaitsWithoutAction := by
  intro s h
  rw [step, h]

/-- A FAULTED block ignores every action but a reset (60_exceptions.md R196); what it has no cell for, the host cannot read. -/
theorem perform_of_faulted {s : State} (hs : s.run = .faulted) {a : HostAction} (ha : a ≠ .reset) :
    perform a s = .next s ∨ (∃ r, a = .read r ∧ r.outsideBuf = true) ∧ perform a s = .fault .bufAddress := by
  cases a with
  | issue w => exact Or.inl ((issue_eq_issueEffect w s).trans (issueEffect_faulted hs w _))
  | write r v => exact Or.inl (hostWrite_faulted hs r v)
  | read r =>
    cases hr : r.outsideBuf with
    | false => exact Or.inl (hostReadStep_of_inside hr s)
    | true => exact Or.inr ⟨⟨r, rfl, hr⟩, if_pos hr⟩
  | reset => exact absurd rfl ha

/-- Settles O13, by induction on the actions. -/
theorem faultedBlockIgnoresEverythingButReset : Obligations.FaultedBlockIgnoresEverythingButReset := by
  intro acts s hs hacts
  induction acts with
  | nil => rfl
  | cons a rest ih =>
    obtain ⟨⟨hreset, hread⟩, hrest⟩ := List.forall_mem_cons.mp hacts
    rcases perform_of_faulted hs hreset with h | ⟨⟨r, rfl, hr⟩, -⟩
    · rw [performAll, h]
      exact ih hrest
    · cases (hread r rfl).symm.trans hr

/-- Settles O14: no other action of a FAULTED block, nor the lack of one, changes `RUN`. -/
theorem onlyResetLeavesFaulted : Obligations.OnlyResetLeavesFaulted := by
  intro s t hs h ht
  cases hhost : s.host with
  | nil =>
    cases (blockWaitsWithoutAction s hhost).symm.trans h
    cases hs.symm.trans ht
  | cons a rest =>
    by_cases ha : a = .reset
    · exact ⟨rest, by rw [ha]⟩
    · rw [step_of_host hhost] at h
      rcases perform_of_faulted (s := { s with host := rest }) hs ha with h' | ⟨-, h'⟩
      · cases h'.symm.trans h
        cases hs.symm.trans ht
      · cases h'.symm.trans h

end Sys2Proof.Machine
end

section
/-! PROOFS. The table of errors (60_exceptions.md R191 to R193): when each body raises, check by check. -/

namespace Sys2Proof.Machine

/-! ### The checks -/

theorem badCount_iff {o : Option Byte} : badCount o = true ↔ ∃ b, o = some b ∧ ¬ isCount b = true := by
  cases o <;> simp [badCount]

/-- The check of the bit width comes before whatever else a body checks (43_angle_quantizer.md R151). -/
theorem withBitWidth_eq_raise_iff {bw : BitVec 4} {f : Nat → Effect} {k : ErrKind} :
    withBitWidth bw f = .raise k ↔
      ((bw.toNat < 1 ∨ 4 < bw.toNat) ∧ .invalidBitWidth = k) ∨ (¬ (bw.toNat < 1 ∨ 4 < bw.toNat) ∧ f bw.toNat = .raise k) := by
  by_cases h : bw.toNat < 1 ∨ 4 < bw.toNat
  · simp only [withBitWidth_of_illegal h, h, Effect.raise.injEq, true_and, not_true, false_and, or_false]
  · rw [withBitWidth_of_legal (by omega) (by omega)]
    simp only [h, false_and, not_false_eq_true, true_and, false_or]

/-- The check of the tag is all that a body can fail which raises nothing of its own (43_angle_quantizer.md R152). -/
theorem withTag_eq_raise_iff {b : BitVec 2} {f : Tag → Effect} {k : ErrKind} (hf : ∀ t, f t ≠ .raise k) :
    withTag b f = .raise k ↔ (b = 0#2 ∨ b = 3#2) ∧ .invalidAngleTag = k := by
  rw [← tagOf?_eq_none, withTag]
  cases tagOf? b with
  | none => simp
  | some t => simp [hf t]

/-- Six cells hold six tags unless one of them holds none. -/
theorem tagsOf?_eq_none_iff {row : Vector (BitVec 2) 6} : tagsOf? row = none ↔ ∃ i : Fin 6, row[i] = 0#2 ∨ row[i] = 3#2 := by
  simp only [← tagOf?_eq_none]
  constructor
  · intro h
    by_contra hc
    push Not at hc
    choose tags htags using fun i => Option.ne_none_iff_exists'.mp (hc i)
    cases h.symm.trans (tagsOf?_of_bits fun i => tagOf?_eq_some.mp (htags i))
  · rintro ⟨i, h⟩
    exact tagsOf?_eq_none i h

/-! ### The bodies -/

theorem hdrEffect_eq_raise_iff {p : Bool} {s : State} {k : ErrKind} :
    hdrEffect p s = .raise k ↔ .malformedHeader = k ∧ (s.bufLen < prefixLen p + 19 ∨
      badCount (s.memRead (prefixLen p + 7)) = true ∨ badCount (s.memRead (prefixLen p + 8)) = true) := by
  rw [← Bool.or_eq_true, hdrEffect]
  split
  · next h => simp [h]
  · next h =>
    split
    · next hc => simp [hc]
    · next hc => cases readHeader s.buf (prefixLen p) <;> simp [h, hc]

theorem csixEffect_eq_raise_iff {s : State} {k : ErrKind} :
    csixEffect s = .raise k ↔ (.malformedHeader = k ∧ (¬ isCount s.nrx = true ∨ ¬ isCount s.ntx = true)) ∨
      (.truncatedCsiData = k ∧ isCount s.nrx = true ∧ isCount s.ntx = true ∧
        s.bufLen < s.payBase + 60 * s.nrx.toNat * s.ntx.toNat + 12) := by
  by_cases hc : isCount s.nrx = true ∧ isCount s.ntx = true
  · obtain ⟨hr, ht⟩ := hc
    rw [csixEffect_of_legal hr ht, Nat.mul_assoc]
    split
    · next h => simp [hr, ht, h]
    · next h => cases extractTensor s.buf s.payBase s.nrx.toNat s.ntx.toNat s.csi <;> simp [hr, ht, h]
  · rw [csixEffect_of_counts hc]
    rcases not_and_or.mp hc with h | h <;> simp [h]

theorem decompEffect_eq_raise_iff {j : Fin 30} {s : State} {k : ErrKind} :
    decompEffect j s = .raise k ↔ .unsupportedDimension = k ∧ (s.nrx.toNat ≠ 3 ∨ s.ntx.toNat ≠ 3) := by
  have hdim : (s.nrx ≠ 3#8 ∨ s.ntx ≠ 3#8) ↔ (s.nrx.toNat ≠ 3 ∨ s.ntx.toNat ≠ 3) := by simp [← BitVec.toNat_inj]
  rw [← hdim, decompEffect]
  split
  · next h => simp [h]
  · next h => simp [h]

/-- QUANT and DEQUANT fail the same two checks (43_angle_quantizer.md R160). -/
theorem quantChecks_eq_raise_iff {j : Fin 30} {i : Fin 6} {bw : BitVec 4} {s : State} {e : Effect} {k : ErrKind}
    (he : e = quantEffect j i bw s ∨ e = dequantEffect j i bw s) :
    e = .raise k ↔ ((bw.toNat < 1 ∨ 4 < bw.toNat) ∧ .invalidBitWidth = k) ∨
      (¬ (bw.toNat < 1 ∨ 4 < bw.toNat) ∧ (cell s.tag j i = 0#2 ∨ cell s.tag j i = 3#2) ∧ .invalidAngleTag = k) := by
  rcases he with rfl | rfl
  · rw [quantEffect, withBitWidth_eq_raise_iff, withTag_eq_raise_iff]
    intro t
    cases quantize? (cell s.ang j i) t bw.toNat <;> simp
  · rw [dequantEffect, withBitWidth_eq_raise_iff, withTag_eq_raise_iff]
    simp

theorem packEffect_eq_raise_iff {j : Fin 30} {bw : BitVec 4} {s : State} {k : ErrKind} :
    packEffect j bw s = .raise k ↔ ((bw.toNat < 1 ∨ 4 < bw.toNat) ∧ .invalidBitWidth = k) ∨
      (¬ (bw.toNat < 1 ∨ 4 < bw.toNat) ∧ (∃ i : Fin 6, s.tag[j][i] = 0#2 ∨ s.tag[j][i] = 3#2) ∧ .invalidAngleTag = k) := by
  rw [packEffect, withBitWidth_eq_raise_iff, ← tagsOf?_eq_none_iff]
  cases tagsOf? s.tag[j] <;> simp

/-! ### The table -/

/-- Settles O11: the word decodes to one command, whose body raises by its own rows of the table and no others. -/
theorem errorCausesAreExactly : Obligations.ErrorCausesAreExactly := by
  intro w s k hs bad badBw noTag pre
  refine ⟨by cases k <;> rfl, (issue_eq_raise_iff hs k).trans ?_⟩
  simp only [bad, badBw, noTag, ← isCount_iff]
  cases hd : decode w with
  | error d =>
    rw [issuedBody_of_error hd]
    cases k <;> simp
  | ok i =>
    obtain ⟨hi, -⟩ := encode_of_decode hd
    rw [issuedBody_of_decode hd]
    cases i with
    | hdr p =>
      rw [bodyOf, hdrEffect_eq_raise_iff, badCount_iff, badCount_iff]
      cases k <;> simp [pre, prefixLen]
    | csix =>
      rw [bodyOf, csixEffect_eq_raise_iff]
      cases k <;> simp
    | decomp sc =>
      rw [bodyOf, withSubcarrier_of_lt (legalSubcarrier_iff.mp hi), decompEffect_eq_raise_iff]
      cases k <;> simp
    | quant sc j bw =>
      obtain ⟨hsc, hj⟩ := legalCell_iff.mp hi
      rw [bodyOf, withCell_of_lt hsc hj, quantChecks_eq_raise_iff (.inl rfl)]
      cases k <;> simp [cell_eq, hsc, hj]
    | dequant sc j bw =>
      obtain ⟨hsc, hj⟩ := legalCell_iff.mp hi
      rw [bodyOf, withCell_of_lt hsc hj, quantChecks_eq_raise_iff (.inr rfl)]
      cases k <;> simp [cell_eq, hsc, hj]
    | pack sc bw =>
      have hsc := legalSubcarrier_iff.mp hi
      rw [bodyOf, withSubcarrier_of_lt hsc, packEffect_eq_raise_iff]
      cases k <;> simp [hsc]
    | unpack sc =>
      rw [bodyOf, withSubcarrier_of_lt (legalSubcarrier_iff.mp hi), unpackEffect]
      cases k <;> simp

end Sys2Proof.Machine
end

section
/-! PROOFS. Commands in the state that a reset leaves (70_reset_and_hazards.md R211): the buffer is empty, the counts are 0, and no
cell holds a tag. -/

namespace Sys2Proof.Machine

/-- Settles O16: each command fails its first check, or the second where the bit width is legal. -/
theorem commandsAfterResetFault : Obligations.CommandsAfterResetFault := by
  intro s h
  obtain ⟨n, host, draws, rfl⟩ := exists_afterReset h
  have hrun := State.afterReset_run n host draws
  have htag := State.afterReset_tag n host draws
  refine ⟨fun p => ?_, ?_, fun sc hsc => ?_, fun sc bw hsc h1 h4 => ?_⟩
  · exact exec_hdr_of_raise hrun (hdrEffect_of_short (by simp))
  · exact (csixChecksCountsThenLength _ hrun).1 (by simp)
  · exact exec_decomp_of_dimension (legalSubcarrier_iff.mp hsc) hrun (by simp)
  · have hs := legalSubcarrier_iff.mp hsc
    refine ⟨fun i hi => ?_, ?_⟩
    · have hi := legalSlot_iff.mp hi
      have hraise (j : Instr) (hj : j = .quant sc i bw ∨ j = .dequant sc i bw) :=
        (quantChecksWidthThenTag sc i bw _ hs hi hrun j hj).2 h1 h4 (.inl (htag ⟨sc.toNat, hs⟩ ⟨i.toNat, hi⟩))
      exact ⟨hraise _ (.inl rfl), hraise _ (.inr rfl)⟩
    · exact (packChecksWidthThenTags sc bw _ hs hrun).2 h1 h4 ⟨0, .inl (htag ⟨sc.toNat, hs⟩ 0)⟩

end Sys2Proof.Machine
end

section
/-! PROOFS. Commands on different subcarriers (70_reset_and_hazards.md R219). The cells of one subcarrier are its lane. A command that
names a subcarrier reads the counts and one lane and writes that lane, so it leaves the others alone, and two of them commute. -/

namespace Sys2Proof.Machine

/-! ### Lanes -/

/-- The cells of one subcarrier, its draw counter among them. -/
structure Lane where
  csi : CMatrix
  ang : Vector F 6
  tag : Vector (BitVec 2) 6
  recon : Vector F 6
  code : Vector (BitVec 6) 6
  pkw : Vector (BitVec 3) 6
  pki : BitVec 36
  draws : Nat

/-- The lane of subcarrier `k`. -/
def State.lane (s : State) (k : Fin 30) : Lane where
  csi := s.csi[k]
  ang := s.ang[k]
  tag := s.tag[k]
  recon := s.recon[k]
  code := s.code[k]
  pkw := s.pkw[k]
  pki := s.pki[k]
  draws := s.draws[k]

/-- The state with the lane of subcarrier `k` written. -/
def State.setLane (k : Fin 30) (l : Lane) (s : State) : State :=
  { s with
    csi := s.csi.set k l.csi
    ang := s.ang.set k l.ang
    tag := s.tag.set k l.tag
    recon := s.recon.set k l.recon
    code := s.code.set k l.code
    pkw := s.pkw.set k l.pkw
    pki := s.pki.set k l.pki
    draws := s.draws.set k l.draws }

theorem State.lane_setLane_other {k k' : Fin 30} (h : k' ≠ k) (l : Lane) (s : State) : (s.setLane k l).lane k' = s.lane k' := by
  have hne : k.val ≠ k'.val := fun e => h (Fin.ext e.symm)
  simp only [State.lane, State.setLane, Fin.getElem_fin, Vector.getElem_set_ne _ _ hne]

theorem State.setLane_comm {k k' : Fin 30} (h : k' ≠ k) (l l' : Lane) (s : State) :
    (s.setLane k l).setLane k' l' = (s.setLane k' l').setLane k l := by
  have hne : k.val ≠ k'.val := fun e => h (Fin.ext e.symm)
  simp only [State.setLane, Vector.set_comm _ _ hne]

/-! ### What a command writes, as a lane -/

theorem State.writeAngles_eq_setLane (k : Fin 30) (a : Vector (Option F) 6) (s : State) :
    s.writeAngles k a = s.setLane k { s.lane k with
      ang := fillAngles k (s.lane k).draws a
      tag := fixedTags
      draws := (s.lane k).draws + drawsOf a } := by
  simp [State.writeAngles, State.setLane, State.lane]

theorem State.writeQuantized_eq_setLane (k : Fin 30) (i : Fin 6) (c bw : Nat) (s : State) :
    s.writeQuantized k i c bw = s.setLane k { s.lane k with
      code := (s.lane k).code.set i (BitVec.ofNat 6 c)
      recon := (s.lane k).recon.set i (inv c bw) } := by
  simp [State.writeQuantized, State.setLane, State.lane, setCell]

theorem State.writeUnquantized_eq_setLane (k : Fin 30) (i : Fin 6) (s : State) :
    s.writeUnquantized k i = s.setLane k { s.lane k with
      code := (s.lane k).code.set i (Config.drawCode k (s.lane k).draws)
      recon := (s.lane k).recon.set i (Config.drawF k (s.lane k).draws)
      draws := (s.lane k).draws + 1 } := by
  simp [State.writeUnquantized, State.setLane, State.lane, setCell]

theorem State.setRecon_eq_setLane (k : Fin 30) (i : Fin 6) (x : F) (s : State) :
    { s with recon := setCell s.recon k i x } = s.setLane k { s.lane k with recon := (s.lane k).recon.set i x } := by
  simp [State.setLane, State.lane, setCell]

theorem State.setPacked_eq_setLane (k : Fin 30) (w : Vector (BitVec 3) 6) (n : BitVec 36) (s : State) :
    { s with pkw := s.pkw.set k w, pki := s.pki.set k n } = s.setLane k { s.lane k with pkw := w, pki := n } := by
  simp [State.setLane, State.lane]

theorem State.setCodes_eq_setLane (k : Fin 30) (c : Vector (BitVec 6) 6) (s : State) :
    { s with code := s.code.set k c } = s.setLane k { s.lane k with code := c } := by
  simp [State.setLane, State.lane]

/-! ### A body that names a subcarrier sees and writes one lane -/

/-- The states `s` and `u` agree on all that a command naming the subcarrier `sc` reads. -/
structure AlikeFor (sc : BitVec 5) (s u : State) : Prop where
  nrx : u.nrx = s.nrx
  ntx : u.ntx = s.ntx
  lane : ∀ k : Fin 30, sc.toNat = k.val → u.lane k = s.lane k

theorem AlikeFor.refl (sc : BitVec 5) (s : State) : AlikeFor sc s s := ⟨rfl, rfl, fun _ _ => rfl⟩

/-- Writing another subcarrier's lane is not seen. -/
theorem AlikeFor.setLane {sc : BitVec 5} {k : Fin 30} (h : sc.toNat ≠ k.val) (l : Lane) (s : State) : AlikeFor sc s (s.setLane k l) :=
  ⟨rfl, rfl, fun _ hk' => State.lane_setLane_other (fun e => h (hk'.trans (congrArg Fin.val e))) l s⟩

/-- A body answers alike in `s` and in `u`: it raises the same error, or writes the same lane of the subcarrier `sc`. -/
inductive AnswersAlike (sc : BitVec 5) (s u : State) : Effect → Effect → Prop
  | raise (x : ErrKind) : AnswersAlike sc s u (.raise x) (.raise x)
  | done (k : Fin 30) (hk : sc.toNat = k.val) (l : Lane) : AnswersAlike sc s u (.done (s.setLane k l)) (.done (u.setLane k l))

section
variable {sc : BitVec 5} {s u : State}

theorem AnswersAlike.withSubcarrier {f g : Fin 30 → Effect} (h : ∀ k : Fin 30, sc.toNat = k.val → AnswersAlike sc s u (f k) (g k)) :
    AnswersAlike sc s u (withSubcarrier sc f) (withSubcarrier sc g) := by
  unfold Machine.withSubcarrier
  cases hk : subcarrier? sc with
  | none => exact .raise _
  | some k => exact h k (subcarrier?_eq_some.mp hk)

theorem AnswersAlike.withCell {i : BitVec 3} {f g : Fin 30 → Fin 6 → Effect}
    (h : ∀ (k : Fin 30) (j : Fin 6), sc.toNat = k.val → AnswersAlike sc s u (f k j) (g k j)) :
    AnswersAlike sc s u (withCell sc i f) (withCell sc i g) := by
  refine .withSubcarrier fun k hk => ?_
  cases slot? i with
  | none => exact .raise _
  | some j => exact h k j hk

theorem AnswersAlike.withBitWidth {bw : BitVec 4} {f g : Nat → Effect} (h : ∀ n, AnswersAlike sc s u (f n) (g n)) :
    AnswersAlike sc s u (withBitWidth bw f) (withBitWidth bw g) := by
  unfold Machine.withBitWidth
  cases bitWidth? bw with
  | none => exact .raise _
  | some n => exact h n

theorem AnswersAlike.withTag {b : BitVec 2} {f g : Tag → Effect} (h : ∀ t, AnswersAlike sc s u (f t) (g t)) :
    AnswersAlike sc s u (withTag b f) (withTag b g) := by
  unfold Machine.withTag
  cases tagOf? b with
  | none => exact .raise _
  | some t => exact h t

variable {k : Fin 30}

theorem decompEffect_alike (h : AlikeFor sc s u) (hk : sc.toNat = k.val) :
    AnswersAlike sc s u (decompEffect k s) (decompEffect k u) := by
  have hcsi : u.csi[k] = s.csi[k] := congrArg Lane.csi (h.lane k hk)
  unfold decompEffect
  rw [h.nrx, h.ntx, hcsi, State.writeAngles_eq_setLane, State.writeAngles_eq_setLane, h.lane k hk]
  split
  · exact .raise _
  · exact .done k hk _

theorem quantEffect_alike (h : AlikeFor sc s u) (hk : sc.toNat = k.val) (i : Fin 6) (bw : BitVec 4) :
    AnswersAlike sc s u (quantEffect k i bw s) (quantEffect k i bw u) := by
  have hang : cell u.ang k i = cell s.ang k i := congrArg (fun l => l.ang[i]) (h.lane k hk)
  have htag : cell u.tag k i = cell s.tag k i := congrArg (fun l => l.tag[i]) (h.lane k hk)
  unfold quantEffect
  rw [hang, htag]
  refine .withBitWidth fun n => .withTag fun t => ?_
  cases quantize? (cell s.ang k i) t n with
  | none =>
    simp only [State.writeUnquantized_eq_setLane, h.lane k hk]
    exact .done k hk _
  | some c =>
    simp only [State.writeQuantized_eq_setLane, h.lane k hk]
    exact .done k hk _

theorem dequantEffect_alike (h : AlikeFor sc s u) (hk : sc.toNat = k.val) (i : Fin 6) (bw : BitVec 4) :
    AnswersAlike sc s u (dequantEffect k i bw s) (dequantEffect k i bw u) := by
  have htag : cell u.tag k i = cell s.tag k i := congrArg (fun l => l.tag[i]) (h.lane k hk)
  have hcode : cell u.code k i = cell s.code k i := congrArg (fun l => l.code[i]) (h.lane k hk)
  unfold dequantEffect
  simp only [htag, hcode, State.setRecon_eq_setLane, h.lane k hk]
  exact .withBitWidth fun n => .withTag fun _ => .done k hk _

theorem packEffect_alike (h : AlikeFor sc s u) (hk : sc.toNat = k.val) (bw : BitVec 4) :
    AnswersAlike sc s u (packEffect k bw s) (packEffect k bw u) := by
  have htag : u.tag[k] = s.tag[k] := congrArg Lane.tag (h.lane k hk)
  have hcode : u.code[k] = s.code[k] := congrArg Lane.code (h.lane k hk)
  unfold packEffect
  simp only [htag, hcode, State.setPacked_eq_setLane, h.lane k hk]
  refine .withBitWidth fun n => ?_
  cases tagsOf? s.tag[k] with
  | none => exact .raise _
  | some tags => exact .done k hk _

theorem unpackEffect_alike (h : AlikeFor sc s u) (hk : sc.toNat = k.val) :
    AnswersAlike sc s u (unpackEffect k s) (unpackEffect k u) := by
  have hpkw : u.pkw[k] = s.pkw[k] := congrArg Lane.pkw (h.lane k hk)
  have hpki : u.pki[k] = s.pki[k] := congrArg Lane.pki (h.lane k hk)
  have hcode : u.code[k] = s.code[k] := congrArg Lane.code (h.lane k hk)
  unfold unpackEffect
  rw [hpkw, hpki, hcode, State.setCodes_eq_setLane, State.setCodes_eq_setLane, h.lane k hk]
  exact .done k hk _

end

theorem bodyOf_alike {i : Instr} {sc : BitVec 5} {s u : State} (hi : subcarrierField i = some sc) (h : AlikeFor sc s u) :
    AnswersAlike sc s u (bodyOf i s) (bodyOf i u) := by
  cases i with
  | hdr p => cases hi
  | csix => cases hi
  | decomp _ =>
    cases hi
    exact .withSubcarrier fun k hk => decompEffect_alike h hk
  | quant _ _ bw =>
    cases hi
    exact .withCell fun k j hk => quantEffect_alike h hk j bw
  | dequant _ _ bw =>
    cases hi
    exact .withCell fun k j hk => dequantEffect_alike h hk j bw
  | pack _ bw =>
    cases hi
    exact .withSubcarrier fun k hk => packEffect_alike h hk bw
  | unpack _ =>
    cases hi
    exact .withSubcarrier fun k hk => unpackEffect_alike h hk

/-- A body that makes its writes writes one lane, and the same lane of any state alike. -/
theorem bodyOf_done_setLane {i : Instr} {sc : BitVec 5} {s t u : State} (hi : subcarrierField i = some sc) (h : bodyOf i s = .done t)
    (hu : AlikeFor sc s u) : ∃ k l, sc.toNat = k.val ∧ t = s.setLane k l ∧ bodyOf i u = .done (u.setLane k l) := by
  have halike := bodyOf_alike hi hu
  rw [h] at halike
  generalize bodyOf i u = e at halike ⊢
  cases halike with
  | done k hk l => exact ⟨k, l, hk, rfl, rfl⟩

/-- What one subcarrier's command writes, a command of another does not see. -/
theorem bodyOf_done_alike {i : Instr} {sc sc' : BitVec 5} {s t : State} (hi : subcarrierField i = some sc) (h : bodyOf i s = .done t)
    (hne : sc' ≠ sc) : AlikeFor sc' s t := by
  obtain ⟨k, l, hk, rfl, -⟩ := bodyOf_done_setLane hi h (.refl sc s)
  exact .setLane (fun e => hne (BitVec.eq_of_toNat_eq (e.trans hk.symm))) l s

/-! ### The commands -/

theorem exec_of_done {i : Instr} {s t : State} (hs : s.run = .ready) (h : bodyOf i s = .done t) : exec i s = .next t := by
  rw [exec_eq_command, command, h, issueEffect_done hs]

/-- A command that leaves the block READY has made its writes in a READY block. -/
theorem exec_next_ready {i : Instr} {s t : State} (h : exec i s = .next t) (ht : t.run = .ready) :
    s.run = .ready ∧ bodyOf i s = .done t := by
  rw [exec_eq_command, command] at h
  rcases issueEffect_next h with ⟨hs, rfl⟩ | ⟨hs, hdone⟩ | ⟨-, k, -, rfl⟩
  · cases hs.symm.trans ht
  · exact ⟨hs, hdone⟩
  · cases ht

/-- A command that names a subcarrier keeps the lane of every other one, whether it is ignored, makes its writes, or enters a fault. -/
theorem exec_keeps_other_lanes {i : Instr} {sc : BitVec 5} {s t : State} (hi : subcarrierField i = some sc) (h : exec i s = .next t)
    {k : Fin 30} (hk : k.val ≠ sc.toNat) : t.lane k = s.lane k := by
  rw [exec_eq_command, command] at h
  rcases issueEffect_next h with ⟨-, rfl⟩ | ⟨-, hdone⟩ | ⟨-, x, -, rfl⟩
  · rfl
  · obtain ⟨k', l, hk', rfl, -⟩ := bodyOf_done_setLane hi hdone (.refl sc s)
    exact State.lane_setLane_other (fun e => hk ((congrArg Fin.val e).trans hk'.symm)) l s
  · rfl

/-- Settles O21: the cells are those of the other subcarriers' lanes. -/
theorem subcarrierCommandsKeepOtherSubcarriers : Obligations.SubcarrierCommandsKeepOtherSubcarriers := by
  intro i sc s t hi h k hk
  have hlane := exec_keeps_other_lanes hi h hk
  exact ⟨congrArg Lane.csi hlane, congrArg Lane.ang hlane, congrArg Lane.tag hlane, congrArg Lane.recon hlane, congrArg Lane.code hlane,
    congrArg Lane.pkw hlane, congrArg Lane.pki hlane⟩

/-- Settles O22: each command writes the same lane before and after the other, and writes of two lanes commute. -/
theorem distinctSubcarrierCommandsCommute : Obligations.DistinctSubcarrierCommandsCommute := by
  intro i j si sj s ti tj hi hj hne hexeci hti hexecj htj
  obtain ⟨-, hdonei⟩ := exec_next_ready hexeci hti
  obtain ⟨-, hdonej⟩ := exec_next_ready hexecj htj
  obtain ⟨ki, li, hki, rfl, hij⟩ := bodyOf_done_setLane hi hdonei (bodyOf_done_alike hj hdonej hne)
  obtain ⟨kj, lj, hkj, rfl, hji⟩ := bodyOf_done_setLane hj hdonej (bodyOf_done_alike hi hdonei hne.symm)
  have hk : kj ≠ ki := by
    rintro rfl
    exact hne (BitVec.eq_of_toNat_eq (hki.trans hkj.symm))
  refine ⟨_, exec_of_done hti hji, ?_⟩
  rw [exec_of_done htj hij, State.setLane_comm hk]

end Sys2Proof.Machine
end
